-- ==== Sys2Proof/Word.lean ====
section
/-! DEFINITION. The word types of the SDEP-SPI bridge (00_scope.md R14): bytes, the 16-bit operation
word and correlation id, the 32-bit header notation. All quantities are unsigned. -/

namespace Sys2Proof

/-- A byte, bit 7 the most significant (R14). -/
abbrev Byte := BitVec 8

/-- Sixteen bits: an operation word (R91) or a correlation id (R25, R31). -/
abbrev Half := BitVec 16

/-- Thirty-two bits: a header written as one value `H = {h0, h1, h2, h3}` (R94). -/
abbrev Quad := BitVec 32

end Sys2Proof
end

