-- ==== Sys2Proof/Config.lean ====
section
/-! DEFINITION. The implementation parameters of 00_scope.md R9: the values the spec fixes, the
parameters it leaves open (a record `Params` that State carries unchanged), and the FREE VALUES, which are
opaque constants with no body. Also the alphabet of the link trace (R13) and the buffers' names and sizes (R60). -/

namespace Sys2Proof

/-- One event of the link trace (R13), the block's observable behaviour on its link side. -/
inductive LinkEvent where
  /-- the framing signal goes from deasserted to asserted -/
  | assert
  /-- one full-duplex byte exchange: the block transmitted `t`, the peer returned `r` -/
  | xchg (t r : Byte)
  /-- the framing signal goes from asserted to deasserted -/
  | deassert
  /-- the block waits the pacing delay `T_PACE` -/
  | delayPace
  /-- the block waits the poll interval `T_POLL` -/
  | delayPoll
  /-- the block requests the system reset -/
  | sysReset
deriving DecidableEq, Repr

/-- The indexed byte spaces of R60, with the host front end's `CMDBUF` (R46). -/
inductive Space where
  | txh
  | txp
  | rxh
  | rxp
  | cmdbuf
deriving DecidableEq, Repr

/-- Size in bytes of each space (R60, R46; `TXP_CAP`, `RXP_CAP`, `CMDBUF_CAP` of R9). -/
def Space.size : Space → Nat
  | .txh => 4
  | .txp => 255
  | .rxh => 4
  | .rxp => 256
  | .cmdbuf => 256

/-- What an index of a space holds after reset (R47): `TXH` and `RXH` hold zero; every other space is
unspecified, so it has no value of its own until it is written. -/
def Space.blank : Space → Option Byte
  | .txh => some 0x00#8
  | .rxh => some 0x00#8
  | .txp => none
  | .rxp => none
  | .cmdbuf => none

/-- The parameters the source leaves to the implementation (R9): fixed for a run, not architectural state
(R43). `none` as a limit is the default `inf`. -/
structure Params where
  /-- the byte transmitted during a receive exchange (D4) -/
  filler : Byte
  /-- `RETRY_LIMIT`, most attempts per byte; `none` is unbounded (D6) -/
  retryLimit : Option Nat
  /-- `SYNC_LIMIT`, most sync polls per DISPATCH; `none` is unbounded (D6) -/
  syncLimit : Option Nat
  /-- `RESET_KEYWORD`, a non-empty byte string of at most 255 bytes (D7) -/
  resetKeyword : List Byte
  /-- `NEWLINE_ECHO`, the bytes the host echoes on a line end (D22) -/
  newlineEcho : List Byte
  /-- `T_PACE` in milliseconds; no step reads it (D5) -/
  tPace : Nat
  /-- `T_POLL` in milliseconds; no step reads it (D5) -/
  tPoll : Nat
deriving DecidableEq, Repr

namespace Config

/-- Sentinel: the far side is not ready at this byte position (R9, R102). -/
def busy : Byte := 0xFE#8

/-- Sentinel: no further payload bytes (R9, R102). -/
def endOfData : Byte := 0xFF#8

/-- Message type tag `COMMAND` (R95). -/
def tagCommand : Byte := 0x10#8

/-- Message type tag `RESPONSE`, also the sync byte (R95, R204). -/
def tagResponse : Byte := 0x20#8

/-- Message type tag `ALERT` (R95). -/
def tagAlert : Byte := 0x40#8

/-- Message type tag `ERROR` (R95). -/
def tagError : Byte := 0x80#8

/-- Console byte `CR` (R9, R181). -/
def cr : Byte := 0x0D#8

/-- Console byte `LF` (R9, R181). -/
def lf : Byte := 0x0A#8

/-- Console byte `BS` (R9, R181). -/
def bs : Byte := 0x08#8

/-- The space of the backspace-space-backspace echo (R182, R183). -/
def blankChar : Byte := 0x20#8

/-- FREE VALUE (log 2): the filler byte of this implementation (R9 OPEN). -/
opaque filler : Byte

/-- FREE VALUE (log 2): the first byte of the reset keyword, so that the keyword is never empty (R201). -/
opaque keywordHead : Byte

/-- FREE VALUE (log 2): the rest of the reset keyword; only its first 254 bytes are used (R201). -/
opaque keywordTail : List Byte

/-- FREE VALUE (log 2): the bytes echoed on a line end (R185). -/
opaque newlineEcho : List Byte

/-- FREE VALUE (log 2): the pacing delay in milliseconds (R136). -/
opaque tPace : Nat

/-- FREE VALUE (log 2): the poll interval in milliseconds (R204). -/
opaque tPoll : Nat

/-- FREE VALUE (log 3): the peer's answer to an exchange that no fixed answer covers, any function of the
whole link history and of the byte being transmitted (R12). -/
opaque peerByte : List LinkEvent → Byte → Byte

/-- FREE VALUE (log 4): what an unwritten byte of `TXP`, `RXP` or `CMDBUF` holds, for each reset, space
and index (R47: a draw, possibly different at each reset). -/
opaque unspecifiedByte : Nat → Space → Nat → Byte

/-- FREE VALUE (log 5): what a host read other than of `STATUS` returns while an operation runs, one
fresh value a read (R77). -/
opaque midOpRead : Nat → Half

/-- The parameters of the machine that `State.reset` describes: every OPEN one free, both limits at the
spec's default `inf` (R9). -/
def params : Params where
  filler := filler
  retryLimit := none
  syncLimit := none
  resetKeyword := keywordHead :: keywordTail.take 254
  newlineEcho := newlineEcho
  tPace := tPace
  tPoll := tPoll

end Config

end Sys2Proof
end

