-- ==== Sys2Proof/Syntax.lean ====
section
/-! DEFINITION. Syntax: one constructor per row of spec/opcode_table.json. The table has four formats
(30_encoding.md R90): the operation word a host writes to `CMD`, the 32-bit header, the class of one byte the
peer returned, and the class of one console byte (43_console_frontend.md R181). -/

namespace Sys2Proof

/-- An item of the opcode table. Operands that R92 marks `ignored` are no operands here: every `ARG`
selects the same operation (R93). -/
inductive Instr where
  /-- `SEND_BYTE b` (R132) -/
  | sendByte (b : Byte)
  /-- `SEND_BYTES n` (R133) -/
  | sendBytes (n : Byte)
  /-- `RECV_BYTE` (R134) -/
  | recvByte
  /-- `RECV_BYTES m` (R135) -/
  | recvBytes (m : Byte)
  /-- `ENC_HDR` (R160) -/
  | encHdr
  /-- `DEC_HDR` (R161) -/
  | decHdr
  /-- `DISPATCH L` (R200) -/
  | dispatch (l : Byte)
  /-- a reserved operation word (R93, R248) -/
  | opwIllegal (w : Half)
  /-- a header of type `0x10` (R95): correlation id low, high, length -/
  | hdrCommand (lo hi len : Byte)
  /-- a header of type `0x20` (R95) -/
  | hdrResponse (lo hi len : Byte)
  /-- a header of type `0x40` (R95) -/
  | hdrAlert (lo hi len : Byte)
  /-- a header of type `0x80` (R95) -/
  | hdrError (lo hi len : Byte)
  /-- a header whose type byte is none of the four tags (R97) -/
  | hdrUnrecognized (type lo hi len : Byte)
  /-- a returned byte `0xFE` (R102) -/
  | wbBusy
  /-- a returned byte `0xFF` (R102) -/
  | wbEndOfData
  /-- a returned byte that is neither sentinel (R102) and not `0x20`, which has a row of its own -/
  | wbData (value : Byte)
  /-- a returned byte `0x20`, a data byte with a role in the sync poll (R90, R204) -/
  | wbSync
  /-- a console byte `0x0D` (R181) -/
  | conCr
  /-- a console byte `0x0A` (R181) -/
  | conLf
  /-- a console byte `0x08` (R181) -/
  | conBs
  /-- any other console byte (R181) -/
  | conOther (value : Byte)
deriving DecidableEq, Repr

/-- An encoded item, tagged by its format: the rows of one format are tried against a value of that
format only (R90). -/
inductive Encoded where
  /-- format `OPW`, 16 bits -/
  | opw (w : Half)
  /-- format `HDR`, `H = {h0, h1, h2, h3}` -/
  | hdr (h : Quad)
  /-- format `WB`, one byte returned by the peer -/
  | wb (r : Byte)
  /-- format `CON`, one console byte -/
  | con (c : Byte)
deriving DecidableEq, Repr

end Sys2Proof
end

