-- ==== Sys2Proof/WellFormed.lean ====
section
/-! DEFINITION. Well-formedness of an instruction: the operand ranges of the table's default rows
(30_encoding.md R93, R95 to R97, R102; 43_console_frontend.md R181). The operands of every other row are
whole bytes, all legal (R104). -/

namespace Sys2Proof

/-- A reserved operation word: `RSV` not zero, or `OP` zero, or `OP` at least 8 (R93). -/
abbrev ReservedWord (w : Half) : Prop :=
  w.extractLsb' 12 4 ≠ 0#4 ∨ w.extractLsb' 8 4 = 0#4 ∨ 8#4 ≤ w.extractLsb' 8 4

/-- One of the four message type tags (R95), compared as a whole byte (R96). -/
abbrev RecognizedType (t : Byte) : Prop :=
  t = Config.tagCommand ∨ t = Config.tagResponse ∨ t = Config.tagAlert ∨ t = Config.tagError

/-- A console byte with a class of its own (R181). -/
abbrev ControlByte (c : Byte) : Prop :=
  c = Config.cr ∨ c = Config.lf ∨ c = Config.bs

/-- The operands lie in the range their row covers. -/
abbrev WellFormed : Instr → Prop
  | .sendByte _ => True
  | .sendBytes _ => True
  | .recvByte => True
  | .recvBytes _ => True
  | .encHdr => True
  | .decHdr => True
  | .dispatch _ => True
  | .opwIllegal w => ReservedWord w
  | .hdrCommand _ _ _ => True
  | .hdrResponse _ _ _ => True
  | .hdrAlert _ _ _ => True
  | .hdrError _ _ _ => True
  | .hdrUnrecognized t _ _ _ => ¬ RecognizedType t
  | .wbBusy => True
  | .wbEndOfData => True
  | .wbData r => r ≠ Config.busy ∧ r ≠ Config.endOfData ∧ r ≠ Config.tagResponse
  | .wbSync => True
  | .conCr => True
  | .conLf => True
  | .conBs => True
  | .conOther c => ¬ ControlByte c

end Sys2Proof
end

