-- ==== Sys2Proof/Decode.lean ====
section
/-! DEFINITION. The decoder, total on every value of every format (30_encoding.md R90 to R104,
43_console_frontend.md R181), then the encoder written from the same tables. -/

namespace Sys2Proof

/-- Why a run of bits is not a value of any format. -/
inductive DecodeError where
  /-- no format of R90 has this many bits -/
  | noSuchWidth (nbits : Nat)
  /-- the number does not fit in the bits given -/
  | tooWide (nbits w : Nat)
deriving DecidableEq, Repr

/-- Field `RSV`, bits 15:12 of an operation word (R91). -/
def rsvField (w : Half) : BitVec 4 := w.extractLsb' 12 4

/-- Field `OP`, bits 11:8 of an operation word (R91). -/
def opField (w : Half) : BitVec 4 := w.extractLsb' 8 4

/-- Field `ARG`, bits 7:0 of an operation word (R91). -/
def argField (w : Half) : Byte := w.extractLsb' 0 8

/-- Bits 31:24 of a header, the type byte, first on the wire (R94). -/
def hdrType (h : Quad) : Byte := h.extractLsb' 24 8

/-- Bits 23:16 of a header, the correlation id's low byte (R94). -/
def hdrLow (h : Quad) : Byte := h.extractLsb' 16 8

/-- Bits 15:8 of a header, the correlation id's high byte (R94). -/
def hdrHigh (h : Quad) : Byte := h.extractLsb' 8 8

/-- Bits 7:0 of a header, the length byte (R94). -/
def hdrLength (h : Quad) : Byte := h.extractLsb' 0 8

/-- Format `OPW` (R91 to R93): `RSV` must be zero and `OP` one of 1 to 7; any other word is illegal. -/
def decodeOpw (w : Half) : Instr :=
  if rsvField w = 0#4 then
    if opField w = 1#4 then .sendByte (argField w)
    else if opField w = 2#4 then .sendBytes (argField w)
    else if opField w = 3#4 then .recvByte
    else if opField w = 4#4 then .recvBytes (argField w)
    else if opField w = 5#4 then .encHdr
    else if opField w = 6#4 then .decHdr
    else if opField w = 7#4 then .dispatch (argField w)
    else .opwIllegal w
  else .opwIllegal w

/-- Format `HDR` (R94 to R97): the type byte selects the row by equality of the whole byte (R96). -/
def decodeHdr (h : Quad) : Instr :=
  if hdrType h = Config.tagCommand then .hdrCommand (hdrLow h) (hdrHigh h) (hdrLength h)
  else if hdrType h = Config.tagResponse then .hdrResponse (hdrLow h) (hdrHigh h) (hdrLength h)
  else if hdrType h = Config.tagAlert then .hdrAlert (hdrLow h) (hdrHigh h) (hdrLength h)
  else if hdrType h = Config.tagError then .hdrError (hdrLow h) (hdrHigh h) (hdrLength h)
  else .hdrUnrecognized (hdrType h) (hdrLow h) (hdrHigh h) (hdrLength h)

/-- Format `WB` (R102): the `BUSY` test comes first (R103). -/
def decodeWb (r : Byte) : Instr :=
  if r = Config.busy then .wbBusy
  else if r = Config.endOfData then .wbEndOfData
  else if r = Config.tagResponse then .wbSync
  else .wbData r

/-- Format `CON` (R181). -/
def decodeCon (c : Byte) : Instr :=
  if c = Config.cr then .conCr
  else if c = Config.lf then .conLf
  else if c = Config.bs then .conBs
  else .conOther c

/-- The decoder: total, one row for every value of every format. -/
def decode : Encoded → Instr
  | .opw w => decodeOpw w
  | .hdr h => decodeHdr h
  | .wb r => decodeWb r
  | .con c => decodeCon c

/-- Which format a bare number of so many bits is read in (log 15). The widths 16 and 32 each belong to
one format; a bare byte is read as a console control byte where it is one and as a byte the peer returned
otherwise, since two formats of the table have 8 bits. -/
def readEncoded (nbits w : Nat) : Except DecodeError Encoded :=
  if 2 ^ nbits ≤ w then .error (.tooWide nbits w)
  else if nbits = 16 then .ok (.opw (BitVec.ofNat 16 w))
  else if nbits = 32 then .ok (.hdr (BitVec.ofNat 32 w))
  else if nbits = 8 then
    if ControlByte (BitVec.ofNat 8 w) then .ok (.con (BitVec.ofNat 8 w))
    else .ok (.wb (BitVec.ofNat 8 w))
  else .error (.noSuchWidth nbits)

/-- The instruction in a bare number of so many bits, or the name of what is wrong with it. -/
def decodeBits (nbits w : Nat) : Except DecodeError Instr :=
  match readEncoded nbits w with
  | .ok e => .ok (decode e)
  | .error r => .error r

/-- The instruction the decoder reads from a word of the opcode table, numbered as the table numbers its
bits: no format stores a word in bytes, so the number is the word itself. -/
def decodeTableWord (nbits w : Nat) : Option Instr :=
  match decodeBits nbits w with
  | .ok i => some i
  | .error _ => none

/-- An operation word with `RSV = 0`: the operation code over its operand (R91). -/
def opWord (op : BitVec 4) (arg : Byte) : Half := 0#4 ++ op ++ arg

/-- A header as one value, first wire byte most significant (R94). -/
def hdrWord (h0 h1 h2 h3 : Byte) : Quad := h0 ++ h1 ++ h2 ++ h3

/-- The encoder, from the tables of R92, R95, R102 and R181. An ignored `ARG` is written as zero. -/
def encode : Instr → Encoded
  | .sendByte b => .opw (opWord 1#4 b)
  | .sendBytes n => .opw (opWord 2#4 n)
  | .recvByte => .opw (opWord 3#4 0#8)
  | .recvBytes m => .opw (opWord 4#4 m)
  | .encHdr => .opw (opWord 5#4 0#8)
  | .decHdr => .opw (opWord 6#4 0#8)
  | .dispatch l => .opw (opWord 7#4 l)
  | .opwIllegal w => .opw w
  | .hdrCommand lo hi len => .hdr (hdrWord Config.tagCommand lo hi len)
  | .hdrResponse lo hi len => .hdr (hdrWord Config.tagResponse lo hi len)
  | .hdrAlert lo hi len => .hdr (hdrWord Config.tagAlert lo hi len)
  | .hdrError lo hi len => .hdr (hdrWord Config.tagError lo hi len)
  | .hdrUnrecognized t lo hi len => .hdr (hdrWord t lo hi len)
  | .wbBusy => .wb Config.busy
  | .wbEndOfData => .wb Config.endOfData
  | .wbData r => .wb r
  | .wbSync => .wb Config.tagResponse
  | .conCr => .con Config.cr
  | .conLf => .con Config.lf
  | .conBs => .con Config.bs
  | .conOther c => .con c

end Sys2Proof
end

