-- ==== Sys2Proof/Machine/State.lean ====
section
/-! DEFINITION. The state of the SDEP-SPI bridge as plain data (10_state.md R20 to R47), with the host front
end's state (R46), the ghost link trace (R13) and the environment's inputs. -/

namespace Sys2Proof.Machine

/-- The sequencer's phase (R41). -/
inductive Phase where
  | idle
  | send
  | recv
  | codec
  | keyChk
  | build
  | txHdr
  | txPay
  | pollWait
  | pollRx
  | rxHdr
  | decode
  | rxPay
  | term
  | resetReq
deriving DecidableEq, Repr

/-- The byte engine's state (R41, R141). -/
inductive ByteEngine where
  | idle
  | assert
  | xchg
  | deassert
  | check
  | pace
deriving DecidableEq, Repr

/-- The two levels at which R11 and R41 let the block be seen (log 1): whole operations, or one action
of the sequencer a step. -/
inductive Level where
  | operation
  | sequencer
deriving DecidableEq, Repr

/-- What the world outside the block does next (R10, R280). The spec defines no bus and R40 bounds no register
number: that a register number has 8 bits is the model's choice, as are the 16 bits of a value (DESIGN CHOICE,
log 8). -/
inductive Input where
  /-- nobody outside acts: the block takes its turn -/
  | wait
  /-- the host writes `v` to the register numbered `n` (R40; 8 bits, log 8); number 0 is `CMD` -/
  | hostWrite (n : Byte) (v : Half)
  /-- the host reads the register numbered `n` (R40; 8 bits, log 8) -/
  | hostRead (n : Byte)
  /-- the host writes byte `i` of a buffer -/
  | bufWrite (b : Space) (i : Nat) (v : Byte)
  /-- the host reads byte `i` of a buffer -/
  | bufRead (b : Space) (i : Nat)
  /-- a console byte is pending for the control loop (R187) -/
  | console (c : Byte)
  /-- the reset input is driven (R280) -/
  | reset
deriving DecidableEq, Repr

/-- The abstract render record of a reply (R189). -/
structure Render where
  type : Byte
  cid : Half
  len : Byte
  text : List Byte
deriving DecidableEq, Repr

/-- The link-side registers (R21 to R23). `frame` is the abstract level of the framing signal. -/
structure Link where
  frame : Bool
  txb : Byte
  rxb : Byte
deriving DecidableEq, Repr

/-- The transmit message registers (R24 to R26). -/
structure TxMessage where
  type : Byte
  cid : Half
  len : Byte
deriving DecidableEq, Repr

/-- The receive message registers (R30 to R32) and `RXCNT` (R35). `RX_CLASS` has no storage (R33). -/
structure RxMessage where
  type : Byte
  cid : Half
  len : Byte
  cnt : Byte
deriving DecidableEq, Repr

/-- The control registers (R36, R37) and the output `SYSRST_REQ` (R39). `cmd` holds the last operation
word accepted (log 6). -/
structure Control where
  cmd : Half
  status : Byte
  sysrstReq : Bool
deriving DecidableEq, Repr

/-- The sequencer `SEQ = (PHASE, IDX, BE)` (R41). -/
structure Sequencer where
  phase : Phase
  idx : Byte
  be : ByteEngine
deriving DecidableEq, Repr

/-- The five indexed byte spaces (R60), each a list of cells in one canonical form (log 7). -/
structure Memory where
  txh : List Host.Cell
  txp : List Host.Cell
  rxh : List Host.Cell
  rxp : List Host.Cell
  cmdbuf : List Host.Cell
deriving DecidableEq, Repr

/-- The host front end (R46): the write cursor, whether the control loop stands inside `dispatch` (R187),
the bytes written to the console so far, and the replies rendered so far (R189). -/
structure FrontEnd where
  cur : Byte
  stalled : Bool
  console : List Byte
  rendered : List Render
deriving DecidableEq, Repr

/-- What is not the machine's (R43): the peer's answers fixed ahead, the outside world's next actions, the
value the host's last read returned, counters for the free values, the level of the model, the parameters. -/
structure Environment where
  peer : List Byte
  inbox : List Input
  hostData : Half
  draws : Nat
  epoch : Nat
  level : Level
  params : Params
deriving DecidableEq, Repr

/-- The whole state. `att` and `polls` are the hidden counters of R42; `trace` is the ghost of R13,
oldest event first. -/
structure State where
  link : Link
  tx : TxMessage
  rx : RxMessage
  ctl : Control
  seq : Sequencer
  att : Nat
  polls : Nat
  mem : Memory
  front : FrontEnd
  trace : List LinkEvent
  env : Environment
deriving DecidableEq, Repr

/-- Why the machine stops. It never does: every condition the spec names leaves a state in which the block
waits, goes on or stays for ever (60_exceptions.md R246 to R249, R262; log 16), so no constructor exists. -/
inductive Fault : Type
deriving DecidableEq, Repr

/-- Why an instruction has no meaning. -/
inductive Refusal where
  /-- Raised by an arm of `exec` that has no meaning yet, with the row's mnemonic; safe. No arm of this
  model raises it. -/
  | notModelled (mnemonic : String)
deriving DecidableEq, Repr

/-- The machine right after reset (R47): registers zero, framing deasserted, sequencer idle, no byte of
`TXP`, `RXP` and `CMDBUF` written. The environment's fields are the model's own (log 1, 3). -/
def State.reset : State where
  link := { frame := false, txb := 0#8, rxb := 0#8 }
  tx := { type := 0#8, cid := 0#16, len := 0#8 }
  rx := { type := 0#8, cid := 0#16, len := 0#8, cnt := 0#8 }
  ctl := { cmd := 0#16, status := 0#8, sysrstReq := false }
  seq := { phase := .idle, idx := 0#8, be := .idle }
  att := 0
  polls := 0
  mem := { txh := [], txp := [], rxh := [], rxp := [], cmdbuf := [] }
  front := { cur := 0#8, stalled := false, console := [], rendered := [] }
  trace := []
  env :=
    { peer := []
      inbox := []
      hostData := 0#16
      draws := 0
      epoch := 0
      level := .operation
      params := Config.params }

end Sys2Proof.Machine
end

