-- ==== Sys2Proof/Machine/Flags.lean ====
section
/-! DEFINITION. The bits of `STATUS` (10_state.md R37) and the discipline by which they are set and cleared
(R38, 60_exceptions.md R246 to R248). -/

namespace Sys2Proof.Machine

/-- Bit 0, `ACTIVE` (R37). -/
def bitActive : Byte := 0x01#8

/-- Bit 1, `DONE` (R37). -/
def bitDone : Byte := 0x02#8

/-- Bit 2, `EOD` (R37). -/
def bitEod : Byte := 0x04#8

/-- Bit 3, `HDR_SHORT` (R37). -/
def bitHdrShort : Byte := 0x08#8

/-- Bit 4, `SHORT` (R37). -/
def bitShort : Byte := 0x10#8

/-- Bit 5, `TIMEOUT` (R37). -/
def bitTimeout : Byte := 0x20#8

/-- Bit 6, `ILL` (R37). -/
def bitIll : Byte := 0x40#8

/-- Whether a flag is 1 in a `STATUS` value. -/
def flagSet (status flag : Byte) : Bool := status &&& flag != 0#8

/-- `STATUS` once an operation word is accepted: bits 1 to 6 cleared, `ACTIVE` set, bit 7 reads 0 (R37, R38). -/
def acceptedStatus : Byte := bitActive

/-- `STATUS` once an operation ends: `ACTIVE` cleared and `DONE` set in the same step (R38). -/
def endedStatus (status : Byte) : Byte := (status &&& ~~~bitActive) ||| bitDone

/-- `STATUS` after an illegal word: bits 1 to 6 cleared, then `ILL` and `DONE` set, `ACTIVE` never set (R248). -/
def illegalStatus : Byte := bitIll ||| bitDone

/-- Whether an operation is running, as the host sees it (R37, R249). -/
def State.active (s : State) : Bool := flagSet s.ctl.status bitActive

/-- Sets one flag. -/
def State.raiseFlag (s : State) (flag : Byte) : State :=
  { s with ctl := { s.ctl with status := s.ctl.status ||| flag } }

/-- Replaces `STATUS`. -/
def State.putStatus (s : State) (v : Byte) : State :=
  { s with ctl := { s.ctl with status := v } }

end Sys2Proof.Machine
end

