-- ==== Sys2Proof/Machine/Ops.lean ====
section
/-! DEFINITION. The named operations over the state: byte access to the spaces (20_memory.md R60 to R67),
the link primitives (00_scope.md R14, 41_transceiver.md R130, R131, R136), the acceptance and the outcomes of
an operation (60_exceptions.md R246 to R250, the block's only counterpart of exception entry), reset
(70_reset_and_hazards.md R281), the render record of a reply (43_console_frontend.md R189) and host access (10_state.md R40, R249). -/

namespace Sys2Proof.Machine

/-! ### Cells and spaces -/

/-- The byte listed at an index, if any. -/
def cellAt (i : Nat) : List Host.Cell → Option Byte
  | [] => none
  | c :: cs => if c.1 = i then some c.2 else cellAt i cs

/-- Lists a byte at an index, keeping the indices rising. -/
def putCell (i : Nat) (v : Byte) : List Host.Cell → List Host.Cell
  | [] => [(i, v)]
  | c :: cs =>
    if i < c.1 then (i, v) :: c :: cs
    else if i = c.1 then (i, v) :: cs
    else c :: putCell i v cs

/-- Takes an index off the list. -/
def dropCell (i : Nat) : List Host.Cell → List Host.Cell
  | [] => []
  | c :: cs => if c.1 = i then dropCell i cs else c :: dropCell i cs

/-- The indices rise strictly. -/
def risingCells : List Host.Cell → Bool
  | [] => true
  | [_] => true
  | c :: d :: cs => decide (c.1 < d.1) && risingCells (d :: cs)

/-- The cells of one space. -/
def Memory.cells (m : Memory) : Space → List Host.Cell
  | .txh => m.txh
  | .txp => m.txp
  | .rxh => m.rxh
  | .rxp => m.rxp
  | .cmdbuf => m.cmdbuf

/-- Replaces the cells of one space. -/
def Memory.withCells (m : Memory) (b : Space) (cs : List Host.Cell) : Memory :=
  match b with
  | .txh => { m with txh := cs }
  | .txp => { m with txp := cs }
  | .rxh => { m with rxh := cs }
  | .rxp => { m with rxp := cs }
  | .cmdbuf => { m with cmdbuf := cs }

/-- `MemWrite(S, i, 1, v)` (R14). An index at or above the space's size is refused without effect (R67). A
value an unlisted index already holds is not listed. -/
def Memory.write (m : Memory) (b : Space) (i : Nat) (v : Byte) : Memory :=
  if i < b.size then
    m.withCells b (if b.blank = some v then dropCell i (m.cells b) else putCell i v (m.cells b))
  else m

/-- The canonical form of one space: indices strictly rising and below the space's size, no cell equal to
what an unlisted index holds. -/
def cellsWf (b : Space) (cs : List Host.Cell) : Bool :=
  risingCells cs && cs.all fun c => decide (c.1 < b.size) && !decide (b.blank = some c.2)

/-- The canonical form of the memory (log 7). -/
def Memory.wf (m : Memory) : Bool :=
  cellsWf .txh m.txh && cellsWf .txp m.txp && cellsWf .rxh m.rxh && cellsWf .rxp m.rxp &&
    cellsWf .cmdbuf m.cmdbuf

/-- What an unlisted index reads as: zero in `TXH` and `RXH`, a free value in the spaces R47 leaves
unspecified (log 4). -/
def State.unlisted (s : State) (b : Space) (i : Nat) : Byte :=
  match b.blank with
  | some v => v
  | none => Config.unspecifiedByte s.env.epoch b i

/-- `MemRead(S, i, 1)` (R14). -/
def State.readByte (s : State) (b : Space) (i : Nat) : Byte :=
  match cellAt i (s.mem.cells b) with
  | some v => v
  | none => s.unlisted b i

/-- `MemWrite(S, i, 1, v)` (R14). -/
def State.writeByte (s : State) (b : Space) (i : Nat) (v : Byte) : State :=
  { s with mem := s.mem.write b i v }

/-- `S[a..a+n-1]` (R14), the byte string read in rising index. -/
def State.readRange (s : State) (b : Space) (a : Nat) : Nat → List Byte
  | 0 => []
  | n + 1 => s.readByte b a :: s.readRange b (a + 1) n

/-- Writes a byte string at rising indices. -/
def State.writeRange (s : State) (b : Space) (a : Nat) : List Byte → State
  | [] => s
  | v :: vs => (s.writeByte b a v).writeRange b (a + 1) vs

/-! ### Sequencer fields -/

/-- `PHASE <- p`. -/
def State.setPhase (s : State) (p : Phase) : State := { s with seq := { s.seq with phase := p } }

/-- `IDX <- i`. -/
def State.setIdx (s : State) (i : Byte) : State := { s with seq := { s.seq with idx := i } }

/-- `IDX <- IDX + 1`. -/
def State.stepIdx (s : State) : State := s.setIdx (s.seq.idx + 1#8)

/-- `BE <- e`. -/
def State.setEngine (s : State) (e : ByteEngine) : State := { s with seq := { s.seq with be := e } }

/-- `ATT <- n`. -/
def State.setAtt (s : State) (n : Nat) : State := { s with att := n }

/-- `POLLS <- n`. -/
def State.setPolls (s : State) (n : Nat) : State := { s with polls := n }

/-- `RXCNT <- IDX`, the number of bytes stored so far (R35). -/
def State.countStored (s : State) : State := { s with rx := { s.rx with cnt := s.seq.idx } }

/-! ### The link -/

/-- Appends an event to the link trace (R13). -/
def State.emit (s : State) (e : LinkEvent) : State := { s with trace := s.trace ++ [e] }

/-- `FrameAssert()` (R14). -/
def State.frameAssert (s : State) : State :=
  { s with link := { s.link with frame := true } }.emit .assert

/-- `FrameDeassert()` (R14). -/
def State.frameDeassert (s : State) : State :=
  { s with link := { s.link with frame := false } }.emit .deassert

/-- `Xchg(t)` answered by `r`, with `rest` the answers fixed ahead that remain (R14, R130). -/
def State.exchanged (s : State) (t r : Byte) (rest : List Byte) : State :=
  { s with
    link := { s.link with txb := t, rxb := r }
    env := { s.env with peer := rest } }.emit (.xchg t r)

/-- `Xchg(t)`: the peer's next fixed answer, or, past those, any byte the oracle gives (R12, log 3). -/
def State.exchange (s : State) (t : Byte) : State :=
  match s.env.peer with
  | r :: rest => s.exchanged t r rest
  | [] => s.exchanged t (Config.peerByte s.trace t) []

/-- `Delay(PACE)` (R136). -/
def State.delayPace (s : State) : State := s.emit .delayPace

/-- `Delay(POLL)` (R204). -/
def State.delayPoll (s : State) : State := s.emit .delayPoll

/-- One attempt with transmit byte `t` answered by `r`: assert, exchange, deassert, and the attempt
counted (R131). -/
def State.attempt (s : State) (t r : Byte) (rest : List Byte) : State :=
  let s' := (s.frameAssert.exchanged t r rest).frameDeassert
  s'.setAtt (s'.att + 1)

/-- Whether a count has reached a limit; never, when the limit is unbounded (R138, R215). -/
def limitReached (n : Nat) : Option Nat → Bool
  | none => false
  | some k => decide (k ≤ n)

/-! ### Acceptance and outcomes

The block takes no exceptions (60_exceptions.md R253, R254); an operation ends by one of the outcomes of
R246, each ONE operation here. -/

/-- An operation word is accepted while idle: the word latched, bits 1 to 6 of `STATUS` cleared and `ACTIVE`
set before any other effect (R38), and the sequencer at the operation's first phase (R41, R212). -/
def State.accept (s : State) (word : Half) (p : Phase) : State :=
  { s with
    ctl := { s.ctl with cmd := word, status := acceptedStatus }
    seq := { phase := p, idx := 0#8, be := .idle } }

/-- `seq <- P_IDLE`. -/
def State.toIdle (s : State) : State :=
  { s with seq := { phase := .idle, idx := 0#8, be := .idle } }

/-- Outcome `Completed` (R246): `ACTIVE <- 0`, `DONE <- 1`, `seq <- P_IDLE`. -/
def State.completed (s : State) : State := (s.putStatus (endedStatus s.ctl.status)).toIdle

/-- Outcome `Timeout(BYTE)` or `Timeout(SYNC)` (R247): `TIMEOUT <- 1`, then as any end; nothing is
rolled back. -/
def State.timedOut (s : State) : State := (s.raiseFlag bitTimeout).completed

/-- Outcome `IllegalOp` (R248): no register but `STATUS` changes. -/
def State.illegalOp (s : State) : State := s.putStatus illegalStatus

/-- Outcome `SysResetRequest` (R201, R250): `SYSRST_REQ <- 1`, the event, and `P_RESETREQ` for ever. -/
def State.sysResetRequested (s : State) : State :=
  { s with
    ctl := { s.ctl with sysrstReq := true }
    seq := { phase := .resetReq, idx := 0#8, be := .idle } }.emit .sysReset

/-- The reset input (R281): every register and buffer as R47 says, whatever was running; the trace, the
world outside and the parameters are no state of the block (R43), and the draws of the unspecified bytes
start afresh (R47). -/
def State.applyReset (s : State) : State :=
  { State.reset with
    front := { State.reset.front with console := s.front.console, rendered := s.front.rendered }
    trace := s.trace
    env := { s.env with epoch := s.env.epoch + 1 } }

/-! ### The reply as the host renders it (43_console_frontend.md R189) -/

/-- The render record of the reply in the receive registers (R189). -/
def State.renderReply (s : State) : Render where
  type := s.rx.type
  cid := s.rx.cid
  len := s.rx.len
  text := s.readRange .rxp 0 s.rx.cnt.toNat

/-- Appends a rendered reply. -/
def State.addRender (s : State) (r : Render) : State :=
  { s with front := { s.front with rendered := s.front.rendered ++ [r] } }

/-! ### Host access -/

/-- Register number of `CMD` (R40). -/
def regCmd : Byte := 0x00#8

/-- `class(t)` as `RX_CLASS` reads it (R33). -/
def classCode (t : Byte) : BitVec 3 :=
  if t = Config.tagCommand then 1#3
  else if t = Config.tagResponse then 2#3
  else if t = Config.tagAlert then 3#3
  else if t = Config.tagError then 4#3
  else 0#3

/-- What each numbered register holds, zero-extended; `CMD` reads 0 (R36), and a number that names no
register reads 0 (R40). -/
def State.readReg (s : State) (n : Byte) : Half :=
  if n = 0x01#8 then s.ctl.status.setWidth 16
  else if n = 0x02#8 then s.tx.type.setWidth 16
  else if n = 0x03#8 then s.tx.cid
  else if n = 0x04#8 then s.tx.len.setWidth 16
  else if n = 0x05#8 then s.rx.type.setWidth 16
  else if n = 0x06#8 then s.rx.cid
  else if n = 0x07#8 then s.rx.len.setWidth 16
  else if n = 0x08#8 then (classCode s.rx.type).setWidth 16
  else if n = 0x09#8 then s.rx.cnt.setWidth 16
  else if n = 0x0A#8 then s.link.txb.setWidth 16
  else if n = 0x0B#8 then s.link.rxb.setWidth 16
  else if n = 0x0C#8 then (if s.link.frame then 1#16 else 0#16)
  else if n = 0x0D#8 then (if s.ctl.sysrstReq then 1#16 else 0#16)
  else 0#16

/-- A host write to a numbered register other than `CMD`, while idle: the three read/write registers
take the value's low bits (log 8), every other number ignores it (R40). -/
def State.writeReg (s : State) (n : Byte) (v : Half) : State :=
  if n = 0x02#8 then { s with tx := { s.tx with type := v.setWidth 8 } }
  else if n = 0x03#8 then { s with tx := { s.tx with cid := v } }
  else if n = 0x04#8 then { s with tx := { s.tx with len := v.setWidth 8 } }
  else s

/-- The value the host's read returned. -/
def State.hostGets (s : State) (v : Half) : State := { s with env := { s.env with hostData := v } }

/-- A host read while an operation runs returns an unspecified value, fresh at each read (R77, log 5). -/
def State.hostGetsAny (s : State) : State :=
  { s with env := { s.env with hostData := Config.midOpRead s.env.draws, draws := s.env.draws + 1 } }

/-- A host write to a register other than `CMD`, refused without effect while active (R249). -/
def State.hostWrite (s : State) (n : Byte) (v : Half) : State :=
  if s.active then s else s.writeReg n v

/-- A host read of a register: `STATUS` always (R37), a number that names none reads 0 (R40), the others
unspecified while active (R77). -/
def State.hostRead (s : State) (n : Byte) : State :=
  if n = 0x01#8 then s.hostGets (s.readReg n)
  else if 0x0E#8 ≤ n then s.hostGets 0#16
  else if s.active then s.hostGetsAny
  else s.hostGets (s.readReg n)

/-- The buffers the host may write, while idle (R27 to R29, R34, R60). `CMDBUF` is the front end's own
and no buffer of the block (R46, log 9). -/
def hostWritable : Space → Bool
  | .txp => true
  | .rxh => true
  | .txh => false
  | .rxp => false
  | .cmdbuf => false

/-- A host write to a buffer byte: refused while active (R249), outside the buffer (R67) and where the host
has no write access. -/
def State.hostBufWrite (s : State) (b : Space) (i : Nat) (v : Byte) : State :=
  if s.active then s else if hostWritable b then s.writeByte b i v else s

/-- A host read of a buffer byte: 0 outside the buffer (R67), unspecified while active (R77). -/
def State.hostBufRead (s : State) (b : Space) (i : Nat) : State :=
  if b = .cmdbuf ∨ b.size ≤ i then s.hostGets 0#16
  else if s.active then s.hostGetsAny
  else s.hostGets ((s.readByte b i).setWidth 16)

end Sys2Proof.Machine
end

