-- ==== Sys2Proof/Machine/Operands.lean ====
section
/-! DEFINITION. The operand forms of the operations: what a running operation reads from the latched word
(30_encoding.md R91), from `TXP` and `TXH`, and from `RXH`. -/

namespace Sys2Proof.Machine

/-- The `OP` field of the operation that runs. -/
def State.op (s : State) : BitVec 4 := opField s.ctl.cmd

/-- The `ARG` field of the operation that runs. -/
def State.arg (s : State) : Byte := argField s.ctl.cmd

/-- How many bytes the send phase transmits: one for SEND_BYTE (R132), `n = ARG` for SEND_BYTES (R133). -/
def State.sendCount (s : State) : Byte := if s.op = 1#4 then 1#8 else s.arg

/-- Whether the receive phase is a single RECV_BYTE, which knows no `END_OF_DATA` (R134). -/
def State.singleReceive (s : State) : Bool := s.op == 3#4

/-- The byte the byte engine transmits in the present phase (R132 to R135, R203, R204). -/
def State.phaseByte (s : State) : Byte :=
  match s.seq.phase with
  | .send => if s.op = 1#4 then s.arg else s.readByte .txp s.seq.idx.toNat
  | .txHdr => s.readByte .txh s.seq.idx.toNat
  | .txPay => s.readByte .txp s.seq.idx.toNat
  | _ => s.env.params.filler

/-- The command string `TXP[0..L-1]` (R200). -/
def State.commandString (s : State) (l : Byte) : List Byte := s.readRange .txp 0 l.toNat

/-- The received header as one value, first wire byte most significant (R29, R94). -/
def State.rxhWord (s : State) : Quad :=
  hdrWord (s.readByte .rxh 0) (s.readByte .rxh 1) (s.readByte .rxh 2) (s.readByte .rxh 3)

/-- The console line `CMDBUF[0..CUR-1]` (R182). -/
def State.consoleLine (s : State) : List Byte := s.readRange .cmdbuf 0 s.front.cur.toNat

/-- Writes the four bytes of a header buffer. -/
def State.writeHeader (s : State) (b : Space) (h0 h1 h2 h3 : Byte) : State :=
  s.writeRange b 0 [h0, h1, h2, h3]

end Sys2Proof.Machine
end

