-- ==== Sys2Proof/Machine/Operation.lean ====
section
/-! DEFINITION. The pseudocode of the operations on the peer's answers fixed ahead (41_transceiver.md R131,
R133, R139; 44_orchestrator.md R204): the operation level of 00_scope.md R11. A run that the fixed answers
do not bring to an end gives no result (log 1): the sequencer then runs the operation, exchange by exchange. -/

namespace Sys2Proof.Machine

/-- How far a piece of pseudocode gets: to its end with a result, to `raise Timeout`, or to an exchange no
fixed answer covers. -/
inductive Run (α : Type) where
  | done (a : α) (s : State)
  | timeout (s : State)
  | waiting
deriving DecidableEq, Repr

/-- Sequencing: what follows a piece that came to its end. -/
def Run.andThen {α β : Type} (r : Run α) (f : α → State → Run β) : Run β :=
  match r with
  | .done a s => f a s
  | .timeout s => .timeout s
  | .waiting => .waiting

/-- The state an operation leaves, by the outcome its body came to (R246, R247). -/
def Run.outcome (r : Run Unit) : Option State :=
  match r with
  | .done _ s => some s.completed
  | .timeout s => some s.timedOut
  | .waiting => none

/-- The loop of `byte_xfer(t)` over the answers fixed ahead (R131). -/
def xferLoop (t : Byte) : List Byte → State → Run Byte
  | [], _ => .waiting
  | r :: rest, s =>
    let s' := s.attempt t r rest
    if r ≠ Config.busy then .done r s'
    else if limitReached s'.att s'.env.params.retryLimit then .timeout s'
    else xferLoop t rest s'.delayPace

/-- `byte_xfer(t)` (R131): the first answer that is not `BUSY`. -/
def byteXfer (t : Byte) (s : State) : Run Byte := xferLoop t s.env.peer (s.setAtt 0)

/-- `receive_byte()` (R134). -/
def receiveByte (s : State) : Run Byte := byteXfer s.env.params.filler s

/-- `send_bytes` from index `IDX` on, `k` bytes (R133). -/
def sendLoop (b : Space) : Nat → State → Run Unit
  | 0, s => .done () s
  | k + 1, s => (byteXfer (s.readByte b s.seq.idx.toNat) s).andThen fun _ s' => sendLoop b k s'.stepIdx

/-- `send_bytes(S, 0, n)` (R133). -/
def sendBytes (b : Space) (n : Nat) (s : State) : Run Unit := sendLoop b n (s.setIdx 0#8)

/-- The loop of `recv_bytes(S, base, max)`, `k` bytes short of `max`; `IDX` is the count `n` (R139). -/
def recvLoop (b : Space) (base : Nat) : Nat → State → Run Unit
  | 0, s => .done () s
  | k + 1, s =>
    (receiveByte s).andThen fun r s' =>
      if r = Config.endOfData then .done () (s'.raiseFlag bitEod)
      else recvLoop b base k (s'.writeByte b (base + s'.seq.idx.toNat) r).stepIdx

/-- `recv_bytes(S, base, max)` (R139); the count received stands in `IDX`. -/
def recvBytes (b : Space) (base max : Nat) (s : State) : Run Unit :=
  recvLoop b base max (s.setIdx 0#8)

/-- `RXCNT <- recv_bytes(RXP, 0, max)` (R135, R207); `RXCNT` counts the bytes stored also when a
`Timeout` ends it (R247). -/
def recvPayload (max : Nat) (s : State) : Run Unit :=
  match recvBytes .rxp 0 max s with
  | .done _ s' => .done () s'.countStored
  | .timeout s' => .timeout s'.countStored
  | .waiting => .waiting

/-- The sync poll, at most `fuel` polls; every poll takes an answer, so as many polls as answers remain are
enough (R204). -/
def pollLoop : Nat → State → Run Unit
  | 0, _ => .waiting
  | fuel + 1, s =>
    (receiveByte s.delayPoll).andThen fun r s' =>
      let s'' := s'.setPolls (s'.polls + 1)
      if r = Config.tagResponse then .done () s''
      else if limitReached s''.polls s''.env.params.syncLimit then .timeout s''
      else pollLoop fuel s''

/-- Step 4 of DISPATCH (R204): poll, then the sync byte kept as the reply's type byte. -/
def syncPoll (s : State) : Run Unit :=
  (pollLoop s.env.peer.length (s.setPolls 0)).andThen fun _ s' =>
    .done () (s'.writeByte .rxh 0 Config.tagResponse)

/-- Runs an operation word while idle. While active it is refused without effect (R249, R252). Otherwise the
word is accepted (R38); at the operation level the block runs to the operation's end when the answers fixed
ahead bring it there, and in every other case the sequencer stands at the first phase. -/
def State.operate (s : State) (word : Half) (p : Phase) (body : State → Option State) : State :=
  if s.active then s
  else
    match s.env.level with
    | .sequencer => s.accept word p
    | .operation => (body (s.accept word p)).getD (s.accept word p)

end Sys2Proof.Machine
end

