-- ==== Sys2Proof/Machine/Codec.lean ====
section
/-! DEFINITION. The SDEP message codec (42_codec.md R160 to R168): the two header functions, the two
operations, and the classification of a type byte. -/

namespace Sys2Proof.Machine

/-- The triple a header encodes (R160). -/
structure Header where
  type : Byte
  cid : Half
  len : Byte
deriving DecidableEq, Repr

/-- The four bytes of a header in wire order (R94). -/
structure HeaderBytes where
  h0 : Byte
  h1 : Byte
  h2 : Byte
  h3 : Byte
deriving DecidableEq, Repr

/-- `encode_header` (R160): the correlation id's low byte first (R63). -/
def encodeHeader (h : Header) : HeaderBytes where
  h0 := h.type
  h1 := h.cid.extractLsb' 0 8
  h2 := h.cid.extractLsb' 8 8
  h3 := h.len

/-- `decode_header` (R161): no byte is validated. -/
def decodeHeader (b : HeaderBytes) : Header where
  type := b.h0
  cid := b.h2 ++ b.h1
  len := b.h3

/-- The class of a type byte, a variant with an explicit unrecognised case that keeps the byte (R163). -/
inductive MessageClass where
  | command
  | response
  | alert
  | error
  | unrecognized (t : Byte)
deriving DecidableEq, Repr

/-- `class(t)` (R163). -/
def classify (t : Byte) : MessageClass :=
  if t = Config.tagCommand then .command
  else if t = Config.tagResponse then .response
  else if t = Config.tagAlert then .alert
  else if t = Config.tagError then .error
  else .unrecognized t

/-- The value `RX_CLASS` reads for a class (R33). -/
def MessageClass.code : MessageClass → BitVec 3
  | .unrecognized _ => 0#3
  | .command => 1#3
  | .response => 2#3
  | .alert => 3#3
  | .error => 4#3

/-- `(RX_TYPE, RX_CID, RX_LEN) <- decode_header(...)` (R161, R206). -/
def State.putReceived (s : State) (h : Header) : State :=
  { s with rx := { s.rx with type := h.type, cid := h.cid, len := h.len } }

/-- The bytes of `RXH` in wire order (R29). -/
def State.rxhBytes (s : State) : HeaderBytes where
  h0 := s.readByte .rxh 0
  h1 := s.readByte .rxh 1
  h2 := s.readByte .rxh 2
  h3 := s.readByte .rxh 3

/-- `TXH[0..3] <- encode_header(TX_TYPE, TX_CID, TX_LEN)` (R160). -/
def State.encodeToTxh (s : State) : State :=
  let b := encodeHeader { type := s.tx.type, cid := s.tx.cid, len := s.tx.len }
  s.writeHeader .txh b.h0 b.h1 b.h2 b.h3

/-- `ENC_HDR` always completes (R160). -/
def encHdrBody (s : State) : Option State := some s.encodeToTxh.completed

/-- `DEC_HDR` always completes (R161). -/
def decHdrBody (s : State) : Option State := some (s.putReceived (decodeHeader s.rxhBytes)).completed

/-- `ENC_HDR` (R160). -/
def execEncHdr (s : State) : Host.Outcome State Fault Refusal :=
  .next (s.operate (opWord 5#4 0#8) .codec encHdrBody)

/-- `DEC_HDR` (R161). -/
def execDecHdr (s : State) : Host.Outcome State Fault Refusal :=
  .next (s.operate (opWord 6#4 0#8) .codec decHdrBody)

end Sys2Proof.Machine
end

