-- ==== Sys2Proof/Machine/Orchestrator.lean ====
section
/-! DEFINITION. The request/response orchestrator: `DISPATCH` (44_orchestrator.md R200 to R218). -/

namespace Sys2Proof.Machine

/-- Step 1's test: the command string is the reset keyword, as a whole byte string (R201). -/
def State.isResetKeyword (s : State) (l : Byte) : Bool :=
  decide (s.commandString l = s.env.params.resetKeyword)

/-- Step 2 (R202): the request header built from type `COMMAND`, correlation id 0 and length `L`; `RXH`
cleared. -/
def State.buildRequest (s : State) (l : Byte) : State :=
  ({ s with tx := { type := Config.tagCommand, cid := 0#16, len := l } }.encodeToTxh).writeHeader
    .rxh 0#8 0#8 0#8 0#8

/-- Step 5's report: a header tail of fewer than three bytes (R205). -/
def State.markShortHeader (s : State) : State :=
  if s.seq.idx.toNat < 3 then s.raiseFlag bitHdrShort else s

/-- Step 7 (R208): the terminator after the payload, and `SHORT` when fewer bytes came than declared. -/
def State.terminate (s : State) : State :=
  let s' := s.writeByte .rxp s.rx.cnt.toNat 0#8
  if s.rx.cnt < s.rx.len then s'.raiseFlag bitShort else s'

/-- The end of step 7 (R189, R208): the host renders the reply of a DISPATCH that completes, whoever wrote its
operation word, in the step in which it completes (log 23). -/
def State.reportReply (s : State) : State := s.addRender s.renderReply

/-- Steps 3 to 7 of DISPATCH, once the request is built (R203 to R208, R213). -/
def transaction (l : Byte) (s : State) : Run Unit :=
  (sendBytes .txh 4 s).andThen fun _ s =>
  (sendBytes .txp l.toNat s).andThen fun _ s =>
  (syncPoll s).andThen fun _ s =>
  (recvBytes .rxh 1 3 s).andThen fun _ s =>
  let s := s.markShortHeader
  let s := s.putReceived (decodeHeader s.rxhBytes)
  (recvPayload s.rx.len.toNat s).andThen fun _ s =>
  .done () s.terminate.reportReply

/-- `DISPATCH L` on the answers fixed ahead (R213). The reset keyword ends it for ever with no link
traffic and no other register changed (R201). -/
def dispatchBody (l : Byte) (s : State) : Option State :=
  if s.isResetKeyword l then some s.sysResetRequested
  else (transaction l (s.buildRequest l)).outcome

/-- `DISPATCH L` (R200). -/
def execDispatch (l : Byte) (s : State) : Host.Outcome State Fault Refusal :=
  .next (s.operate (opWord 7#4 l) .keyChk (dispatchBody l))

end Sys2Proof.Machine
end

