-- ==== Sys2Proof/Machine/Console.lean ====
section
/-! DEFINITION. The host-side console front end (43_console_frontend.md R180 to R189): the `CON` rows are `FEED`
on each class of console byte. It stands outside the block. -/

namespace Sys2Proof.Machine

/-- `console_write` of a byte string (R188). -/
def State.consoleWrite (s : State) (bs : List Byte) : State :=
  { s with front := { s.front with console := s.front.console ++ bs } }

/-- `CUR <- c` (R46). -/
def State.setCursor (s : State) (c : Byte) : State := { s with front := { s.front with cur := c } }

/-- Whether the control loop stands inside `dispatch` (R187). -/
def State.setStalled (s : State) (v : Bool) : State := { s with front := { s.front with stalled := v } }

/-- Whether the host cannot run `FEED` now: an operation runs, or `dispatch` has not returned (R187). The spec has no
`FEED` there; that `exec` of a `CON` row then leaves the state is the model's choice (DESIGN CHOICE, log 10). -/
def State.hostBusy (s : State) : Bool := s.active || s.front.stalled

/-- The text as displayed: up to the first terminator (R189, R298). -/
def Render.displayed (r : Render) : List Byte := r.text.takeWhile fun b => b != 0#8

/-- `dispatch` returns to the control loop: `CUR <- 0` (R185). A reply was rendered when the DISPATCH completed
(log 23). -/
def State.dispatchReturned (s : State) : State := (s.setCursor 0#8).setStalled false

/-- The host's call of `dispatch` on a byte string: the string into `TXP`, then the operation word (R106). -/
def State.hostDispatch (s : State) (line : List Byte) (l : Byte) : State :=
  (s.writeRange .txp 0 line).operate (opWord 7#4 l) .keyChk (dispatchBody l)

/-- `FEED` on a line end (R182, R185): an empty line is ignored; else the newline echoed, the line terminated
and dispatched, and, when `dispatch` has returned, the buffer emptied. While the host is busy nothing changes (DESIGN
CHOICE, log 10). -/
def State.feedLineEnd (s : State) : State :=
  if s.hostBusy then s
  else if s.front.cur = 0#8 then s
  else
    let s₁ := s.consoleWrite s.env.params.newlineEcho
    let s₂ := s₁.writeByte .cmdbuf s.front.cur.toNat 0#8
    let s₃ := (s₂.hostDispatch s₂.consoleLine s.front.cur).setStalled true
    if s₃.seq.phase = .idle then s₃.dispatchReturned else s₃

/-- `FEED` on a backspace (R183). While the host is busy nothing changes (DESIGN CHOICE, log 10). -/
def State.feedBackspace (s : State) : State :=
  if s.hostBusy then s
  else if s.front.cur = 0#8 then s
  else (s.consoleWrite [Config.bs, Config.blankChar, Config.bs]).setCursor (s.front.cur - 1#8)

/-- `FEED` on any other byte (R184): dropped without echo when the buffer is full. While the host is busy nothing
changes (DESIGN CHOICE, log 10). -/
def State.feedOther (s : State) (c : Byte) : State :=
  if s.hostBusy then s
  else if s.front.cur < 255#8 then
    ((s.consoleWrite [c]).writeByte .cmdbuf s.front.cur.toNat c).setCursor (s.front.cur + 1#8)
  else s

/-- `FEED` on a carriage return (R185). -/
def execConCr (s : State) : Host.Outcome State Fault Refusal :=
  .next s.feedLineEnd

/-- `FEED` on a line feed (R185). -/
def execConLf (s : State) : Host.Outcome State Fault Refusal :=
  .next s.feedLineEnd

/-- `FEED` on a backspace (R183). -/
def execConBs (s : State) : Host.Outcome State Fault Refusal :=
  .next s.feedBackspace

/-- `FEED` on any other byte (R184). -/
def execConOther (c : Byte) (s : State) : Host.Outcome State Fault Refusal :=
  .next (s.feedOther c)

end Sys2Proof.Machine
end

