-- ==== Sys2Proof/Machine/Header.lean ====
section
/-! DEFINITION. The `HDR` rows: a header taken from `RXH` and interpreted (30_encoding.md R95 to R101). The
decode phase of DISPATCH (44_orchestrator.md R206, R212) and the codec phase of DEC_HDR (42_codec.md R161)
run these. -/

namespace Sys2Proof.Machine

/-- A header is decoded into the receive registers. In the decode phase of DISPATCH the payload follows
(R212); in the codec phase the operation ends, as DEC_HDR does (R161). DESIGN CHOICE (log 10): the codec phase ends
whatever operation is latched, ENC_HDR included, where the spec decodes no header; in any other phase nothing more
happens. No step runs a header there. -/
def State.takeHeader (s : State) (t lo hi len : Byte) : State :=
  let s' := s.putReceived (decodeHeader { h0 := t, h1 := lo, h2 := hi, h3 := len })
  match s.seq.phase with
  | .decode => (s'.setIdx 0#8).setPhase .rxPay
  | .codec => s'.completed
  | _ => s'

/-- A `COMMAND` header (R95). -/
def execHdrCommand (lo hi len : Byte) (s : State) : Host.Outcome State Fault Refusal :=
  .next (s.takeHeader Config.tagCommand lo hi len)

/-- A `RESPONSE` header (R95, R101). -/
def execHdrResponse (lo hi len : Byte) (s : State) : Host.Outcome State Fault Refusal :=
  .next (s.takeHeader Config.tagResponse lo hi len)

/-- An `ALERT` header (R95). -/
def execHdrAlert (lo hi len : Byte) (s : State) : Host.Outcome State Fault Refusal :=
  .next (s.takeHeader Config.tagAlert lo hi len)

/-- An `ERROR` header (R95). -/
def execHdrError (lo hi len : Byte) (s : State) : Host.Outcome State Fault Refusal :=
  .next (s.takeHeader Config.tagError lo hi len)

/-- A header with any other type byte: accepted and passed through (R97). -/
def execHdrUnrecognized (t lo hi len : Byte) (s : State) : Host.Outcome State Fault Refusal :=
  .next (s.takeHeader t lo hi len)

end Sys2Proof.Machine
end

