-- ==== Sys2Proof/Machine/Transceiver.lean ====
section
/-! DEFINITION. The four transceiver operations (41_transceiver.md R132 to R135) and the reserved operation
word (60_exceptions.md R248). -/

namespace Sys2Proof.Machine

/-- `SEND_BYTE b` on the answers fixed ahead: `byte_xfer(b)`, its result discarded (R132). -/
def sendByteBody (b : Byte) (s : State) : Option State :=
  ((byteXfer b s).andThen fun _ s' => Run.done () s').outcome

/-- `SEND_BYTES n` on the answers fixed ahead: `send_bytes(TXP, 0, n)` (R133). -/
def sendBytesBody (n : Byte) (s : State) : Option State := (sendBytes .txp n.toNat s).outcome

/-- `RECV_BYTE` on the answers fixed ahead: the result stays in `RXB` (R134). -/
def recvByteBody (s : State) : Option State :=
  ((receiveByte s).andThen fun _ s' => Run.done () s').outcome

/-- `RECV_BYTES m` on the answers fixed ahead: `RXCNT <- recv_bytes(RXP, 0, m)` (R135). -/
def recvBytesBody (m : Byte) (s : State) : Option State := (recvPayload m.toNat s).outcome

/-- `SEND_BYTE b` (R132). -/
def execSendByte (b : Byte) (s : State) : Host.Outcome State Fault Refusal :=
  .next (s.operate (opWord 1#4 b) .send (sendByteBody b))

/-- `SEND_BYTES n` (R133). -/
def execSendBytes (n : Byte) (s : State) : Host.Outcome State Fault Refusal :=
  .next (s.operate (opWord 2#4 n) .send (sendBytesBody n))

/-- `RECV_BYTE` (R134). -/
def execRecvByte (s : State) : Host.Outcome State Fault Refusal :=
  .next (s.operate (opWord 3#4 0#8) .recv recvByteBody)

/-- `RECV_BYTES m` (R135). -/
def execRecvBytes (m : Byte) (s : State) : Host.Outcome State Fault Refusal :=
  .next (s.operate (opWord 4#4 m) .recv (recvBytesBody m))

/-- A reserved operation word written while idle ends at once with `IllegalOp`; while active the write is
refused (R248, R249, R252). -/
def execOpwIllegal (_w : Half) (s : State) : Host.Outcome State Fault Refusal :=
  .next (if s.active then s else s.illegalOp)

end Sys2Proof.Machine
end

