-- ==== Sys2Proof/Machine/WireByte.lean ====
section
/-! DEFINITION. The `WB` rows: what the byte engine does with a byte the peer returned, in the state `B_CHECK`
(41_transceiver.md R141) and by the phase it was received for (30_encoding.md R102, R103; 44_orchestrator.md
R212; 60_exceptions.md R252). -/

namespace Sys2Proof.Machine

/-- The phases that run the byte engine (R141, R212). -/
def Phase.usesEngine : Phase → Bool
  | .send => true
  | .recv => true
  | .txHdr => true
  | .txPay => true
  | .pollRx => true
  | .rxHdr => true
  | .rxPay => true
  | _ => false

/-- Whether the present phase stores into `RXP`, so that a `Timeout` leaves the count in `RXCNT` (R247). -/
def State.storesPayload (s : State) : Bool :=
  match s.seq.phase with
  | .recv => !s.singleReceive
  | .rxPay => true
  | _ => false

/-- A `BUSY` answer (R131, R141): `Timeout(BYTE)` at the retry limit, else the pacing delay comes next.
DESIGN CHOICE (log 10): so whatever `BE` and `RXB` are, and nothing in a phase that runs no byte. -/
def State.takeBusy (s : State) : State :=
  if s.seq.phase.usesEngine then
    if limitReached s.att s.env.params.retryLimit then
      (if s.storesPayload then s.countStored else s).timedOut
    else s.setEngine .pace
  else s

/-- The send phase took its answer: the next byte, or the end after the last (R133). -/
def State.sentOne (s : State) : State :=
  let s' := s.stepIdx
  if s'.seq.idx = s'.sendCount then s'.completed else s'

/-- The receive phase takes `r`: RECV_BYTE ends with it in `RXB` (R134); RECV_BYTES ends on
`END_OF_DATA`, else stores it, and ends after the last (R135, R139). -/
def State.receivedOne (s : State) (r : Byte) : State :=
  if s.singleReceive then s.completed
  else if r = Config.endOfData then (s.raiseFlag bitEod).countStored.completed
  else
    let s' := (s.writeByte .rxp s.seq.idx.toNat r).stepIdx
    if s'.seq.idx = s'.arg then s'.countStored.completed else s'

/-- The header send took its answer (R212, `P_TXHDR`). -/
def State.headerSentOne (s : State) : State :=
  let s' := s.stepIdx
  if s'.seq.idx = 4#8 then (s'.setIdx 0#8).setPhase .txPay else s'

/-- The sync poll takes `r` (R204; R212, `P_POLLRX`): `0x20` is the sync byte; any other byte is
discarded, and `Timeout(SYNC)` comes at the limit. -/
def State.polledOne (s : State) (r : Byte) : State :=
  let s' := s.setPolls (s.polls + 1)
  if r = Config.tagResponse then ((s'.writeByte .rxh 0 Config.tagResponse).setIdx 0#8).setPhase .rxHdr
  else if limitReached s'.polls s'.env.params.syncLimit then s'.timedOut
  else s'.setPhase .pollWait

/-- The header tail takes `r` (R205; R212, `P_RXHDR`). -/
def State.tailOne (s : State) (r : Byte) : State :=
  if r = Config.endOfData then ((s.raiseFlag bitEod).raiseFlag bitHdrShort).setPhase .decode
  else (s.writeByte .rxh (1 + s.seq.idx.toNat) r).stepIdx

/-- The payload receive takes `r` (R207; R212, `P_RXPAY`). -/
def State.payloadOne (s : State) (r : Byte) : State :=
  if r = Config.endOfData then (s.raiseFlag bitEod).setPhase .term
  else (s.writeByte .rxp s.seq.idx.toNat r).stepIdx

/-- A byte other than `BUSY` is handed to the phase as the result of the byte (R141). DESIGN
CHOICE (log 10): so whatever `BE` and `RXB` are; a phase that runs no byte takes none. -/
def State.takeByte (s : State) (r : Byte) : State :=
  let s' := s.setEngine .idle
  match s.seq.phase with
  | .send => s'.sentOne
  | .recv => s'.receivedOne r
  | .txHdr => s'.headerSentOne
  | .txPay => s'.stepIdx
  | .pollRx => s'.polledOne r
  | .rxHdr => s'.tailOne r
  | .rxPay => s'.payloadOne r
  | _ => s

/-- A returned `BUSY` (R131). -/
def execWbBusy (s : State) : Host.Outcome State Fault Refusal :=
  .next s.takeBusy

/-- A returned `END_OF_DATA`: it ends a multi-byte receive and is an ordinary byte elsewhere (R103). -/
def execWbEndOfData (s : State) : Host.Outcome State Fault Refusal :=
  .next (s.takeByte Config.endOfData)

/-- A returned ordinary byte (R102). -/
def execWbData (r : Byte) (s : State) : Host.Outcome State Fault Refusal :=
  .next (s.takeByte r)

/-- A returned `0x20`: the sync byte in the sync poll, an ordinary byte elsewhere (R204). -/
def execWbSync (s : State) : Host.Outcome State Fault Refusal :=
  .next (s.takeByte Config.tagResponse)

end Sys2Proof.Machine
end

