-- ==== Sys2Proof/Machine/Dispatch.lean ====
section
/-! DEFINITION. The meaning of every row of the opcode table, one arm a constructor. -/

namespace Sys2Proof.Machine

def exec (i : Instr) (s : State) : Host.Outcome State Fault Refusal :=
  match i with
  | .sendByte b => Sys2Proof.Machine.execSendByte b s
  | .sendBytes n => Sys2Proof.Machine.execSendBytes n s
  | .recvByte => Sys2Proof.Machine.execRecvByte s
  | .recvBytes m => Sys2Proof.Machine.execRecvBytes m s
  | .encHdr => Sys2Proof.Machine.execEncHdr s
  | .decHdr => Sys2Proof.Machine.execDecHdr s
  | .dispatch l => Sys2Proof.Machine.execDispatch l s
  | .opwIllegal w => Sys2Proof.Machine.execOpwIllegal w s
  | .hdrCommand lo hi len => Sys2Proof.Machine.execHdrCommand lo hi len s
  | .hdrResponse lo hi len => Sys2Proof.Machine.execHdrResponse lo hi len s
  | .hdrAlert lo hi len => Sys2Proof.Machine.execHdrAlert lo hi len s
  | .hdrError lo hi len => Sys2Proof.Machine.execHdrError lo hi len s
  | .hdrUnrecognized t lo hi len => Sys2Proof.Machine.execHdrUnrecognized t lo hi len s
  | .wbBusy => Sys2Proof.Machine.execWbBusy s
  | .wbEndOfData => Sys2Proof.Machine.execWbEndOfData s
  | .wbData r => Sys2Proof.Machine.execWbData r s
  | .wbSync => Sys2Proof.Machine.execWbSync s
  | .conCr => Sys2Proof.Machine.execConCr s
  | .conLf => Sys2Proof.Machine.execConLf s
  | .conBs => Sys2Proof.Machine.execConBs s
  | .conOther c => Sys2Proof.Machine.execConOther c s

end Sys2Proof.Machine
end

