-- ==== Sys2Proof/Machine/Sequencer.lean ====
section
/-! DEFINITION. The sequencer's own actions (41_transceiver.md R141, 44_orchestrator.md R212) and who acts next:
the reset input, the host, or the block (00_scope.md R10). A turn either runs a decoded item of the opcode
table or is an action that no row stands for. -/

namespace Sys2Proof.Machine

/-- Whose turn it is and what it does: run an instruction in a state, or move to a state. -/
inductive Turn where
  | run (i : Instr) (s : State)
  | move (s : State)
deriving DecidableEq, Repr

/-- A phase starts a byte: `ATT = 0` and the byte engine at `B_ASSERT` (R141). -/
def State.startByte (s : State) : State := (s.setAtt 0).setEngine .assert

/-- A phase that runs the byte engine, on entry or between two bytes: its bound is tested before the next
byte starts (R133, R139, R212). -/
def State.enterPhase (s : State) : State :=
  match s.seq.phase with
  | .send => if s.seq.idx = s.sendCount then s.completed else s.startByte
  | .recv =>
    if s.singleReceive then s.startByte
    else if s.seq.idx = s.arg then s.countStored.completed
    else s.startByte
  | .txPay => if s.seq.idx = s.arg then (s.setPolls 0).setPhase .pollWait else s.startByte
  | .rxHdr => if s.seq.idx = 3#8 then s.setPhase .decode else s.startByte
  | .rxPay => if s.seq.idx = s.rx.len then s.setPhase .term else s.startByte
  | _ => s.startByte

/-- `P_KEYCHK` (R212). -/
def State.checkKeyword (s : State) : State :=
  if s.isResetKeyword s.arg then s.sysResetRequested else s.setPhase .build

/-- `P_BUILD` (R212). -/
def State.buildPhase (s : State) : State := ((s.buildRequest s.arg).setIdx 0#8).setPhase .txHdr

/-- `P_POLLWAIT` (R212). -/
def State.pollWaitPhase (s : State) : State := s.delayPoll.setPhase .pollRx

/-- `P_TERM` (R212), with the rendering of the reply (R189, log 23). -/
def State.terminatePhase (s : State) : State := s.countStored.terminate.reportReply.completed

/-- One action of the byte engine (R141); in `B_CHECK` the returned byte is decoded and run. -/
def State.engineTurn (s : State) : Turn :=
  match s.seq.be with
  | .idle => .move s.enterPhase
  | .assert => .move (s.frameAssert.setEngine .xchg)
  | .xchg => .move ((s.exchange s.phaseByte).setEngine .deassert)
  | .deassert => .move ((s.frameDeassert.setAtt (s.att + 1)).setEngine .check)
  | .check => .run (decode (.wb s.link.rxb)) s
  | .pace => .move (s.delayPace.setEngine .assert)

/-- One action of the block. Idle it does nothing (R47); in `P_RESETREQ` it does nothing, for ever (R212);
where a header stands complete in `RXH` it is decoded and run. -/
def State.blockTurn (s : State) : Turn :=
  match s.seq.phase with
  | .idle => .move s
  | .resetReq => .move s
  | .codec => if s.op = 6#4 then .run (decode (.hdr s.rxhWord)) s else .move s.encodeToTxh.completed
  | .keyChk => .move s.checkKeyword
  | .build => .move s.buildPhase
  | .pollWait => .move s.pollWaitPhase
  | .decode => .run (decode (.hdr s.rxhWord)) s
  | .term => .move s.terminatePhase
  | .send => s.engineTurn
  | .recv => s.engineTurn
  | .txHdr => s.engineTurn
  | .txPay => s.engineTurn
  | .pollRx => s.engineTurn
  | .rxHdr => s.engineTurn
  | .rxPay => s.engineTurn

/-- The outside world's next action with the inputs after it, the state `s` already without it. A word
written to `CMD` and a console byte are decoded and run; a console byte waits while the control loop is
stalled (R187), so the block acts and the byte stays pending. -/
def State.inputTurn (s : State) (i : Input) (later : List Input) : Turn :=
  let s' := { s with env := { s.env with inbox := later } }
  match i with
  | .wait => s'.blockTurn
  | .reset => .move s'.applyReset
  | .hostWrite n v => if n = regCmd then .run (decode (.opw v)) s' else .move (s'.hostWrite n v)
  | .hostRead n => .move (s'.hostRead n)
  | .bufWrite b k v => .move (s'.hostBufWrite b k v)
  | .bufRead b k => .move (s'.hostBufRead b k)
  | .console c => if s.hostBusy then s.blockTurn else .run (decode (.con c)) s'

/-- Whether `dispatch` has ended and its return to the control loop is still due (R185). -/
def State.returnDue (s : State) : Bool := s.front.stalled && decide (s.seq.phase = .idle)

/-- Who acts next: the reset input before all else (R280), then the return of an ended `dispatch`, then the
outside world's next action, or the block if there is none. -/
def State.turn (s : State) : Turn :=
  match s.env.inbox with
  | .reset :: later => s.inputTurn .reset later
  | [] => if s.returnDue then .move s.dispatchReturned else s.blockTurn
  | i :: later => if s.returnDue then .move s.dispatchReturned else s.inputTurn i later

end Sys2Proof.Machine
end

