-- ==== Sys2Proof/Machine/Step.lean ====
section
/-! DEFINITION. One step of the machine: whoever's turn it is acts, and a decoded item of the opcode table runs
through `exec`. -/

namespace Sys2Proof.Machine

/-- One step (log 1, log 12). -/
def step (s : State) : Host.Outcome State Fault Refusal :=
  match s.turn with
  | .run i s' => exec i s'
  | .move s' => .next s'

/-- The state with an operation word about to be written to `CMD`, the block idle. -/
def State.withOperationWord (s : State) (w : Half) : State :=
  { s.toIdle with
    ctl := { s.ctl with status := s.ctl.status &&& ~~~bitActive }
    front := { s.front with stalled := false }
    env := { s.env with inbox := .hostWrite regCmd w :: s.env.inbox } }

/-- The state with DEC_HDR running on a header standing in `RXH`. -/
def State.withHeaderWord (s : State) (h : Quad) : State :=
  { s with
    ctl := { s.ctl with cmd := opWord 6#4 0#8, status := s.ctl.status ||| bitActive }
    seq := { phase := .codec, idx := 0#8, be := .idle }
    mem := (s.writeHeader .rxh (hdrType h) (hdrLow h) (hdrHigh h) (hdrLength h)).mem
    env := { s.env with inbox := .wait :: s.env.inbox } }

/-- The state with a byte the peer returned to a sync poll about to be checked. -/
def State.withReturnedByte (s : State) (r : Byte) : State :=
  { s with
    link := { s.link with rxb := r }
    ctl := { s.ctl with status := s.ctl.status ||| bitActive }
    seq := { phase := .pollRx, idx := 0#8, be := .check }
    env := { s.env with inbox := .wait :: s.env.inbox } }

/-- The state with a console byte pending, the control loop free to take it. -/
def State.withConsoleByte (s : State) (c : Byte) : State :=
  { s.toIdle with
    ctl := { s.ctl with status := s.ctl.status &&& ~~~bitActive }
    front := { s.front with stalled := false }
    env := { s.env with inbox := .console c :: s.env.inbox } }

/-- The state in which the very next step runs the instruction `decodeTableWord nbits w` (log 15): the block
fetches no program (R41), so each format stands where its reader takes it from. A number that is a value of
no format leaves the state as it is. -/
def State.withFetchWord (s : State) (nbits w : Nat) : State :=
  match readEncoded nbits w with
  | .ok (.opw v) => s.withOperationWord v
  | .ok (.hdr h) => s.withHeaderWord h
  | .ok (.wb r) => s.withReturnedByte r
  | .ok (.con c) => s.withConsoleByte c
  | .error _ => s

end Sys2Proof.Machine
end

