-- ==== Sys2Proof/Safety.lean ====
section
/-! DEFINITION. What counts as a good state and a good run, in the terms the statements use: the machine's
invariant, the shape of the link trace (41_transceiver.md R142), the bytes that crossed the link, and the peer's
answers a byte takes. -/

namespace Sys2Proof.Machine

/-! ### The invariant of the machine -/

/-- The operation codes that run in each phase (R41, R141, R212). -/
def State.opFitsPhase (s : State) : Prop :=
  match s.seq.phase with
  | .idle => True
  | .send => s.op = 1#4 ∨ s.op = 2#4
  | .recv => s.op = 3#4 ∨ s.op = 4#4
  | .codec => s.op = 5#4 ∨ s.op = 6#4
  | _ => s.op = 7#4

/-- `IDX` stays within the bound of the loop that runs, so it never wraps and indexes no buffer out of
range (R41, R67). -/
def State.idxInBound (s : State) : Prop :=
  match s.seq.phase with
  | .send => s.seq.idx ≤ s.sendCount ∧ (s.seq.be ≠ .idle → s.seq.idx < s.sendCount)
  | .recv => s.singleReceive = false →
      s.seq.idx ≤ s.arg ∧ (s.seq.be ≠ .idle → s.seq.idx < s.arg)
  | .txHdr => s.seq.idx < 4#8
  | .txPay => s.seq.idx ≤ s.arg ∧ (s.seq.be ≠ .idle → s.seq.idx < s.arg)
  | .rxHdr => s.seq.idx ≤ 3#8 ∧ (s.seq.be ≠ .idle → s.seq.idx < 3#8)
  | .rxPay => s.seq.idx ≤ s.rx.len ∧ (s.seq.be ≠ .idle → s.seq.idx < s.rx.len)
  | .term => s.seq.idx ≤ s.rx.len
  | _ => True

/-- What holds of every state a run reaches. -/
structure State.Inv (s : State) : Prop where
  /-- the memory has its canonical form -/
  memory : s.mem.wf = true
  /-- `FRAME = 1` exactly between the assert and the deassert of an attempt (R21) -/
  frame : s.link.frame = true ↔ s.seq.be = .xchg ∨ s.seq.be = .deassert
  /-- the byte engine rests in every phase that runs no byte (R141) -/
  engine : s.seq.phase.usesEngine = false → s.seq.be = .idle
  /-- `STATUS.ACTIVE = 1` exactly when a phase runs (R41) -/
  active : s.active = true ↔ s.seq.phase ≠ .idle
  /-- `STATUS` bit 7 reads 0 (R37) -/
  reserved : s.ctl.status &&& 0x80#8 = 0#8
  /-- `SYSRST_REQ` is set exactly in `P_RESETREQ` (R39, R41) -/
  request : s.ctl.sysrstReq = true ↔ s.seq.phase = .resetReq
  /-- the latched operation is one of those that run in the phase -/
  operation : s.opFitsPhase
  /-- `IDX` is in bound -/
  index : s.idxInBound

/-- The parameters are as R9 and R201 allow: a non-empty keyword of at most 255 bytes, limits of at
least 1. -/
structure Params.Ok (p : Params) : Prop where
  keyword : p.resetKeyword ≠ [] ∧ p.resetKeyword.length ≤ 255
  retry : ∀ n, p.retryLimit = some n → 1 ≤ n
  sync : ∀ n, p.syncLimit = some n → 1 ≤ n

/-! ### The shape of the link trace (R142) -/

/-- Where a trace stands between two events. -/
inductive LinkPhase where
  /-- nothing open; the next block may start with any byte, and no poll delay may come -/
  | fresh
  /-- just after a block whose answer was not `BUSY` -/
  | quiet
  /-- after `Assert`; the byte that must be transmitted, if the block is a retry -/
  | opened (want : Option Byte)
  /-- after `Xchg(t, r)` -/
  | exchanged (t r : Byte)
  /-- after a block with byte `t` answered `BUSY` -/
  | closedBusy (t : Byte)
  /-- after the pacing delay that follows such a block -/
  | paced (t : Byte)
deriving DecidableEq, Repr

/-- One event more. `limited` says whether `RETRY_LIMIT` is finite: only then may a block answered `BUSY` be
the last of its byte. -/
def LinkPhase.next (limited : Bool) (p : LinkPhase) (e : LinkEvent) : Option LinkPhase :=
  match p, e with
  | .fresh, .assert => some (.opened none)
  | .fresh, .sysReset => some .fresh
  | .quiet, .assert => some (.opened none)
  | .quiet, .delayPoll => some .fresh
  | .quiet, .sysReset => some .fresh
  | .opened none, .xchg t r => some (.exchanged t r)
  | .opened (some w), .xchg t r => if t = w then some (.exchanged t r) else none
  | .exchanged t r, .deassert => some (if r = Config.busy then .closedBusy t else .quiet)
  | .closedBusy t, .delayPace => some (.paced t)
  | .closedBusy _, .assert => if limited then some (.opened none) else none
  | .closedBusy _, .sysReset => if limited then some .fresh else none
  | .paced t, .assert => some (.opened (some t))
  | _, _ => none

/-- A trace read event by event; `none` where it leaves the shape of R142. -/
def scanTrace (limited : Bool) : LinkPhase → List LinkEvent → Option LinkPhase
  | p, [] => some p
  | p, e :: es => (p.next limited e).bind fun q => scanTrace limited q es

/-- Where the trace must stand for the byte engine to go on from its present state. -/
def State.linkPhaseFits (s : State) (p : LinkPhase) : Prop :=
  match s.seq.be with
  | .idle =>
    if s.seq.phase = .txPay ∨ s.seq.phase = .pollWait ∨ s.seq.phase = .rxHdr ∨ s.seq.phase = .decode ∨
        s.seq.phase = .rxPay then
      p = .quiet
    else if s.seq.phase = .pollRx then p = .fresh
    else p = .fresh ∨ p = .quiet ∨
      (s.env.params.retryLimit.isSome = true ∧ ∃ t, p = .closedBusy t)
  | .assert => p = .paced s.phaseByte ∨ p = .fresh ∨ p = .quiet ∨
      (s.env.params.retryLimit.isSome = true ∧ ∃ t, p = .closedBusy t)
  | .xchg => p = .opened none ∨ p = .opened (some s.phaseByte)
  | .deassert => p = .exchanged s.link.txb s.link.rxb ∧ s.link.txb = s.phaseByte
  | .check => s.link.txb = s.phaseByte ∧
      p = if s.link.rxb = Config.busy then .closedBusy s.link.txb else .quiet
  | .pace => p = .closedBusy s.phaseByte

/-- The whole trace has the shape of R142 and the byte engine continues it. -/
def State.traceShaped (s : State) : Prop :=
  ∃ p, scanTrace s.env.params.retryLimit.isSome .fresh s.trace = some p ∧ s.linkPhaseFits p

/-! ### What crosses the link -/

/-- The events of one byte: `busy` attempts answered `BUSY`, each followed by the pacing delay, then an
attempt answered `r` (R132). -/
def byteTrace (t : Byte) : Nat → Byte → List LinkEvent
  | 0, r => [.assert, .xchg t r, .deassert]
  | k + 1, r => [.assert, .xchg t Config.busy, .deassert, .delayPace] ++ byteTrace t k r

/-- The events of a byte that times out after so many attempts: no delay after the last (R138). -/
def timeoutTrace (t : Byte) : Nat → List LinkEvent
  | 0 => []
  | 1 => [.assert, .xchg t Config.busy, .deassert]
  | n + 2 => [.assert, .xchg t Config.busy, .deassert, .delayPace] ++ timeoutTrace t (n + 1)

/-- The answers that one byte takes: so many `BUSY`, then `r` (R132). -/
def byteAnswers (a : Nat × Byte) : List Byte := List.replicate a.1 Config.busy ++ [a.2]

/-- The answers a list of bytes takes. -/
def allAnswers (as : List (Nat × Byte)) : List Byte := (as.map byteAnswers).flatten

/-- The events of sending a list of bytes, each with its answers (R133). -/
def sendTrace : List Byte → List (Nat × Byte) → List LinkEvent
  | b :: bs, a :: as => byteTrace b a.1 a.2 ++ sendTrace bs as
  | _, _ => []

/-- The events of receiving a list of answers (R134, R139). -/
def recvTrace (filler : Byte) (as : List (Nat × Byte)) : List LinkEvent :=
  (as.map fun a => byteTrace filler a.1 a.2).flatten

/-- The events of a list of sync polls (R204). -/
def pollTrace (filler : Byte) (as : List (Nat × Byte)) : List LinkEvent :=
  (as.map fun a => .delayPoll :: byteTrace filler a.1 a.2).flatten

/-- Every byte's answers end it within the retry limit (R138): fewer `BUSY` answers than the limit, and an
answer that is not `BUSY`. -/
def Answered (limit : Option Nat) (as : List (Nat × Byte)) : Prop :=
  ∀ a ∈ as, a.2 ≠ Config.busy ∧ ∀ n, limit = some n → a.1 < n

/-- The bytes delivered to the peer: those whose answer was not `BUSY` (R203). -/
def deliveredBytes : List LinkEvent → List Byte
  | [] => []
  | .xchg t r :: es => if r = Config.busy then deliveredBytes es else t :: deliveredBytes es
  | _ :: es => deliveredBytes es

/-- What a multi-byte receive of at most `max` bytes collects from the peer's answers: every `BUSY`
deleted, cut at the first `END_OF_DATA` or after `max` bytes (R140). -/
def collected (max : Nat) (answers : List Byte) : List Byte :=
  ((answers.filter fun r => r != Config.busy).takeWhile fun r => r != Config.endOfData).take max

/-- The seven operations of R8 (an operation word that is not reserved). -/
def isOperation : Instr → Bool
  | .sendByte _ => true
  | .sendBytes _ => true
  | .recvByte => true
  | .recvBytes _ => true
  | .encHdr => true
  | .decHdr => true
  | .dispatch _ => true
  | _ => false

/-- The same state seen at the other level (log 1). -/
def State.atLevel (s : State) (l : Level) : State := { s with env := { s.env with level := l } }

end Sys2Proof.Machine
end

