-- ==== Sys2Proof/Certificates/Slice0/Obligations.lean ====
section
/-! DEFINITION. The statements for the provers, each from the numbered rules of spec/. -/

open Sys2Proof Sys2Proof.Machine

/-! ### The step and the decoder -/

/-- Where a decoded item of the opcode table stands, the next step is `exec` of it (R90; log 12): a word
written to `CMD`, a console byte the control loop is free to take, a byte the peer returned, a header. The item
of the outside world that was taken leaves the inbox; nothing else is added around `exec`. -/
def Obligations.StepRunsTheDecodedItem : Prop :=
  ∀ s : State,
    (∀ v later, s.env.inbox = .hostWrite regCmd v :: later → s.returnDue = false →
      step s = exec (decode (.opw v)) { s with env := { s.env with inbox := later } }) ∧
    (∀ c later, s.env.inbox = .console c :: later → s.hostBusy = false →
      step s = exec (decode (.con c)) { s with env := { s.env with inbox := later } }) ∧
    (s.env.inbox = [] → s.seq.phase.usesEngine = true → s.seq.be = .check →
      step s = exec (decode (.wb s.link.rxb)) s) ∧
    (s.env.inbox = [] → (s.seq.phase = .decode ∨ s.seq.phase = .codec ∧ s.op = 6#4) →
      step s = exec (decode (.hdr s.rxhWord)) s)

/-- The worked encodings of the spec (R108), and two words more of 95_test_vectors.md 2.1. -/
def Obligations.SpecWordsDecode : Prop :=
  encodeHeader { type := 0x10#8, cid := 0#16, len := 4#8 } =
    { h0 := 0x10#8, h1 := 0x00#8, h2 := 0x00#8, h3 := 0x04#8 } ∧
  decodeHeader { h0 := 0x20#8, h1 := 0x01#8, h2 := 0x00#8, h3 := 0x02#8 } =
    { type := 0x20#8, cid := 1#16, len := 2#8 } ∧
  encodeHeader { type := 0x40#8, cid := 0xBEEF#16, len := 0xFF#8 } =
    { h0 := 0x40#8, h1 := 0xEF#8, h2 := 0xBE#8, h3 := 0xFF#8 } ∧
  decode (.hdr 0x10000004#32) = .hdrCommand 0x00#8 0x00#8 0x04#8 ∧
  decode (.hdr 0x20010002#32) = .hdrResponse 0x01#8 0x00#8 0x02#8 ∧
  encode (.sendByte 0x41#8) = .opw 0x0141#16 ∧ decode (.opw 0x0141#16) = .sendByte 0x41#8 ∧
  encode (.recvBytes 16#8) = .opw 0x0410#16 ∧ decode (.opw 0x0410#16) = .recvBytes 16#8 ∧
  encode (.dispatch 4#8) = .opw 0x0704#16 ∧ decode (.opw 0x0704#16) = .dispatch 4#8 ∧
  decode (.opw 0x0206#16) = .sendBytes 6#8 ∧
  decode (.opw 0x03A5#16) = .recvByte ∧
  decode (.opw 0x1704#16) = .opwIllegal 0x1704#16 ∧
  decode (.opw 0x0000#16) = .opwIllegal 0x0000#16 ∧
  decode (.opw 0x0800#16) = .opwIllegal 0x0800#16

/-- Decoding what the encoder writes gives the item back, for every well-formed item. -/
def Obligations.DecodeOfEncodeIsIdentity : Prop :=
  ∀ i : Instr, WellFormed i → decode (encode i) = i

/-- Every value of every format decodes to a well-formed item, which the encoder's word decodes to
again; a header, a returned byte and a console byte are encoded back bit for bit (R90). -/
def Obligations.EncodeOfDecodeKeepsTheItem : Prop :=
  (∀ e : Encoded, WellFormed (decode e) ∧ decode (encode (decode e)) = decode e) ∧
  (∀ h, encode (decode (.hdr h)) = .hdr h) ∧
  (∀ r, encode (decode (.wb r)) = .wb r) ∧
  (∀ c, encode (decode (.con c)) = .con c)

/-- Each row of the operation table by its match and mask (R92). -/
def Obligations.OperationRowsByMask : Prop :=
  ∀ w : Half,
    (w &&& 0xFF00#16 = 0x0100#16 → decode (.opw w) = .sendByte (w.setWidth 8)) ∧
    (w &&& 0xFF00#16 = 0x0200#16 → decode (.opw w) = .sendBytes (w.setWidth 8)) ∧
    (w &&& 0xFF00#16 = 0x0300#16 → decode (.opw w) = .recvByte) ∧
    (w &&& 0xFF00#16 = 0x0400#16 → decode (.opw w) = .recvBytes (w.setWidth 8)) ∧
    (w &&& 0xFF00#16 = 0x0500#16 → decode (.opw w) = .encHdr) ∧
    (w &&& 0xFF00#16 = 0x0600#16 → decode (.opw w) = .decHdr) ∧
    (w &&& 0xFF00#16 = 0x0700#16 → decode (.opw w) = .dispatch (w.setWidth 8))

/-- Reserved words and what they do (R93, R248): exactly they are illegal; one written while idle leaves
`ILL` and `DONE` in `STATUS` and changes nothing else; every `ARG` of an operation that ignores it selects that
operation. -/
def Obligations.ReservedWordsAreIllegal : Prop :=
  (∀ w : Half, ReservedWord w → decode (.opw w) = .opwIllegal w) ∧
  (∀ w v : Half, ¬ ReservedWord w → decode (.opw w) ≠ .opwIllegal v) ∧
  (∀ (w : Half) (s : State), s.active = false →
    exec (.opwIllegal w) s = .next { s with ctl := { s.ctl with status := 0x42#8 } }) ∧
  (∀ a : Byte, decode (.opw (0x03#8 ++ a)) = .recvByte ∧ decode (.opw (0x05#8 ++ a)) = .encHdr ∧
    decode (.opw (0x06#8 ++ a)) = .decHdr)

/-- A header's type byte selects its row by equality of the whole byte (R96), and the other three bytes
are its operands (R94, R97). -/
def Obligations.HeaderRowsByWholeType : Prop :=
  ∀ t lo hi len : Byte,
    (t = 0x10#8 → decode (.hdr (hdrWord t lo hi len)) = .hdrCommand lo hi len) ∧
    (t = 0x20#8 → decode (.hdr (hdrWord t lo hi len)) = .hdrResponse lo hi len) ∧
    (t = 0x40#8 → decode (.hdr (hdrWord t lo hi len)) = .hdrAlert lo hi len) ∧
    (t = 0x80#8 → decode (.hdr (hdrWord t lo hi len)) = .hdrError lo hi len) ∧
    (t ≠ 0x10#8 → t ≠ 0x20#8 → t ≠ 0x40#8 → t ≠ 0x80#8 →
      decode (.hdr (hdrWord t lo hi len)) = .hdrUnrecognized t lo hi len)

/-- A returned byte falls in exactly one class (R102); of the data bytes, `0x20` has its own row. A console byte
falls in exactly one class; `0x00` and `0x7F` are ordinary bytes (R181). -/
def Obligations.ByteClasses : Prop :=
  (∀ r : Byte,
    (decode (.wb r) = .wbBusy ↔ r = 0xFE#8) ∧
    (decode (.wb r) = .wbEndOfData ↔ r = 0xFF#8) ∧
    (decode (.wb r) = .wbSync ↔ r = 0x20#8) ∧
    (decode (.wb r) = .wbData r ↔ r ≤ 0xFD#8 ∧ r ≠ 0x20#8)) ∧
  (∀ c : Byte,
    (decode (.con c) = .conCr ↔ c = 0x0D#8) ∧
    (decode (.con c) = .conLf ↔ c = 0x0A#8) ∧
    (decode (.con c) = .conBs ↔ c = 0x08#8) ∧
    (decode (.con c) = .conOther c ↔ c ≠ 0x0D#8 ∧ c ≠ 0x0A#8 ∧ c ≠ 0x08#8))

/-! ### The codec -/

/-- `decode_header` and `encode_header` are inverse to each other (R162). -/
def Obligations.HeaderRoundTrip : Prop :=
  (∀ h : Header, decodeHeader (encodeHeader h) = h) ∧
  (∀ b : HeaderBytes, encodeHeader (decodeHeader b) = b)

/-- The class of a type byte: one of the four tags, or unrecognised with the byte kept (R163); `RX_CLASS`,
register 8, reads 1 to 4 for the four tags, 0 for every other byte, and never 5 to 7 (R33). -/
def Obligations.TypeClassification : Prop :=
  (∀ t : Byte,
    (t = 0x10#8 → classify t = .command) ∧ (t = 0x20#8 → classify t = .response) ∧
    (t = 0x40#8 → classify t = .alert) ∧ (t = 0x80#8 → classify t = .error) ∧
    (t ≠ 0x10#8 → t ≠ 0x20#8 → t ≠ 0x40#8 → t ≠ 0x80#8 → classify t = .unrecognized t)) ∧
  (∀ s : State,
    (s.rx.type = 0x10#8 → s.readReg 0x08#8 = 1#16) ∧ (s.rx.type = 0x20#8 → s.readReg 0x08#8 = 2#16) ∧
    (s.rx.type = 0x40#8 → s.readReg 0x08#8 = 3#16) ∧ (s.rx.type = 0x80#8 → s.readReg 0x08#8 = 4#16) ∧
    (s.rx.type ≠ 0x10#8 → s.rx.type ≠ 0x20#8 → s.rx.type ≠ 0x40#8 → s.rx.type ≠ 0x80#8 →
      s.readReg 0x08#8 = 0#16) ∧
    s.readReg 0x08#8 < 5#16)

/-- ENC_HDR: every word with `OP = 5` is it; at the operation level, while idle, it leaves the four bytes of `TXH`
and `STATUS = DONE`, and no other byte, register or event changes (R160). What `CMD` and the hidden `IDX` and
`BE` hold afterwards is not stated (log 6, 13). -/
def Obligations.EncHdrEncodes : Prop :=
  (∀ a : Byte, decode (.opw (0x05#8 ++ a)) = .encHdr) ∧
  ∀ s : State, s.active = false → s.env.level = .operation →
    ∃ t, exec .encHdr s = .next t ∧
      t.readByte .txh 0 = s.tx.type ∧
      t.readByte .txh 1 = s.tx.cid.extractLsb' 0 8 ∧
      t.readByte .txh 2 = s.tx.cid.extractLsb' 8 8 ∧
      t.readByte .txh 3 = s.tx.len ∧
      (∀ b i, b ≠ .txh ∨ 4 ≤ i → t.readByte b i = s.readByte b i) ∧
      t.seq.phase = .idle ∧
      t = { s with
        ctl := { s.ctl with cmd := t.ctl.cmd, status := 0x02#8 }
        seq := t.seq
        mem := t.mem }

/-- DEC_HDR: every word with `OP = 6` is it; at the operation level, while idle, it leaves `RX_TYPE`,
`RX_CID = RXH[1] + 256 * RXH[2]`, `RX_LEN` and `STATUS = DONE`, and nothing else changes (R161). What `CMD` and the
hidden `IDX` and `BE` hold afterwards is not stated (log 6, 13). -/
def Obligations.DecHdrDecodes : Prop :=
  (∀ a : Byte, decode (.opw (0x06#8 ++ a)) = .decHdr) ∧
  ∀ s : State, s.active = false → s.env.level = .operation →
    ∃ t, exec .decHdr s = .next t ∧ t.seq.phase = .idle ∧
      t = { s with
        rx :=
          { type := s.readByte .rxh 0
            cid := BitVec.ofNat 16 ((s.readByte .rxh 1).toNat + 256 * (s.readByte .rxh 2).toNat)
            len := s.readByte .rxh 3
            cnt := s.rx.cnt }
        ctl := { s.ctl with cmd := t.ctl.cmd, status := 0x02#8 }
        seq := t.seq }

/-- A header met where one is decoded: in the decode phase of DISPATCH its fields go into the receive registers
and the payload comes next, whatever its type (R206, R212); in the codec phase, where DEC_HDR runs at the
sequencer level, its fields go into the receive registers and the operation ends (R161). That this is so whatever
`RXH` holds and, in the codec phase, whatever operation is latched is the model's choice (log 10), and so are the
rest values of `IDX` and `BE` (log 13). -/
def Obligations.HeaderItemsLoadReceiveRegisters : Prop :=
  ∀ (s : State) (t lo hi len : Byte), ¬ RecognizedType t →
    let all := fun result : Byte → State =>
      exec (.hdrCommand lo hi len) s = .next (result 0x10#8) ∧
      exec (.hdrResponse lo hi len) s = .next (result 0x20#8) ∧
      exec (.hdrAlert lo hi len) s = .next (result 0x40#8) ∧
      exec (.hdrError lo hi len) s = .next (result 0x80#8) ∧
      exec (.hdrUnrecognized t lo hi len) s = .next (result t)
    (s.seq.phase = .decode → all fun type => { s with
      rx := { type := type, cid := hi ++ lo, len := len, cnt := s.rx.cnt }
      seq := { s.seq with phase := .rxPay, idx := 0#8 } }) ∧
    (s.seq.phase = .codec → s.ctl.status = 0x01#8 → all fun type => { s with
      rx := { type := type, cid := hi ++ lo, len := len, cnt := s.rx.cnt }
      ctl := { s.ctl with status := 0x02#8 }
      seq := { phase := .idle, idx := 0#8, be := .idle } })

/-! ### Accepting an operation word -/

/-- At the sequencer level (log 1) an operation word written while idle is accepted: bits 1 to 6 of `STATUS`
cleared and `ACTIVE` set, the sequencer at the operation's first phase (R38, R141, R212), nothing else changed. The
word latched in `CMD` and the values 0 and `B_IDLE` of `IDX` and `BE` on acceptance are the model's (log 6, 13). -/
def Obligations.SequencerLevelAccepts : Prop :=
  ∀ (s : State) (a : Byte), s.active = false → s.env.level = .sequencer →
    let start := fun (w : Half) (p : Phase) => { s with
      ctl := { s.ctl with cmd := w, status := 0x01#8 }
      seq := { phase := p, idx := 0#8, be := .idle } }
    exec (.sendByte a) s = .next (start (0x01#8 ++ a) .send) ∧
    exec (.sendBytes a) s = .next (start (0x02#8 ++ a) .send) ∧
    exec .recvByte s = .next (start 0x0300#16 .recv) ∧
    exec (.recvBytes a) s = .next (start (0x04#8 ++ a) .recv) ∧
    exec .encHdr s = .next (start 0x0500#16 .codec) ∧
    exec .decHdr s = .next (start 0x0600#16 .codec) ∧
    exec (.dispatch a) s = .next (start (0x07#8 ++ a) .keyChk)

/-- While `STATUS.ACTIVE = 1`, in any phase that runs, a host write to any register, `CMD` included, or to
any buffer has no effect at all and is not queued (R249). -/
def Obligations.HostWritesRefusedWhileActive : Prop :=
  ∀ (s : State) (later : List Input), s.active = true → s.seq.phase ≠ .idle →
    (∀ n v, s.env.inbox = .hostWrite n v :: later →
      step s = .next { s with env := { s.env with inbox := later } }) ∧
    (∀ b i v, s.env.inbox = .bufWrite b i v :: later →
      step s = .next { s with env := { s.env with inbox := later } })

/-- No operation reads a flag, so the flags one operation leaves change nothing of the next (R38). -/
def Obligations.FlagsAreNeverRead : Prop :=
  ∀ (i : Instr) (s : State) (v : Byte), isOperation i = true → s.active = false →
    flagSet v bitActive = false → exec i (s.putStatus v) = exec i s

/-! ### The transceiver -/

/-- SEND_BYTE: with `k` answers `BUSY` before another answer `r`, `k + 1` attempts and `k` pacing delays in
strict alternation; `TXB = b`, `RXB = r`, `FRAME = 0`, `STATUS = DONE`; nothing else changes (R132). The word
latched in `CMD` and the rest values of `IDX` and `BE` are the model's (log 6, 13). -/
def Obligations.SendByteCompletes : Prop :=
  ∀ (b : Byte) (k : Nat) (r : Byte) (rest : List Byte) (s : State),
    s.active = false → s.env.level = .operation →
    Answered s.env.params.retryLimit [(k, r)] → s.env.peer = byteAnswers (k, r) ++ rest →
    exec (.sendByte b) s = .next
      { s with
        link := { frame := false, txb := b, rxb := r }
        ctl := { s.ctl with cmd := 0x01#8 ++ b, status := 0x02#8 }
        seq := { phase := .idle, idx := 0#8, be := .idle }
        att := k + 1
        trace := s.trace ++ byteTrace b k r
        env := { s.env with peer := rest } }

/-- With `RETRY_LIMIT = n`, `n` answers `BUSY` end SEND_BYTE with `Timeout(BYTE)` after `n` attempts and `n - 1`
pacing delays, the link released (R138, R246, R247). The word latched in `CMD` and the rest values of `IDX` and
`BE` are the model's (log 6, 13). -/
def Obligations.SendByteTimesOut : Prop :=
  ∀ (b : Byte) (n : Nat) (rest : List Byte) (s : State),
    s.active = false → s.env.level = .operation → 1 ≤ n → s.env.params.retryLimit = some n →
    s.env.peer = List.replicate n Config.busy ++ rest →
    exec (.sendByte b) s = .next
      { s with
        link := { frame := false, txb := b, rxb := 0xFE#8 }
        ctl := { s.ctl with cmd := 0x01#8 ++ b, status := 0x22#8 }
        seq := { phase := .idle, idx := 0#8, be := .idle }
        att := n
        trace := s.trace ++ timeoutTrace b n
        env := { s.env with peer := rest } }

/-- With no limit, a byte whose every answer is `BUSY` goes on without end (R137): however many such answers come,
after five actions for each the byte engine is back at `B_ASSERT` in the same phase, `STATUS` as it was, and
the trace has one more attempt and one more pacing delay for each. -/
def Obligations.BusyPeerBlocksForEver : Prop :=
  ∀ (k : Nat) (rest : List Byte) (s : State),
    s.env.params.retryLimit = none → s.env.inbox = [] → s.seq.phase.usesEngine = true →
    s.seq.be = .assert → s.env.peer = List.replicate (k + 1) Config.busy ++ rest →
    Host.Core.run Sys2Proof.core (5 * (k + 1)) s = .next
      { s with
        link := { frame := false, txb := s.phaseByte, rxb := 0xFE#8 }
        att := s.att + (k + 1)
        trace := s.trace ++ (List.replicate (k + 1)
          [LinkEvent.assert, .xchg s.phaseByte 0xFE#8, .deassert, .delayPace]).flatten
        env := { s.env with peer := rest } }

/-- SEND_BYTES: the bytes `TXP[0..n-1]` in order, each with its own retries, no delay between two bytes (R133);
no buffer and no message register changes. The word latched in `CMD` and the rest values of `IDX` and `BE` are
the model's (log 6, 13). -/
def Obligations.SendBytesCompletes : Prop :=
  ∀ (n : Byte) (as : List (Nat × Byte)) (rest : List Byte) (s : State),
    s.active = false → s.env.level = .operation → as.length = n.toNat →
    Answered s.env.params.retryLimit as → s.env.peer = allAnswers as ++ rest →
    ∃ t, exec (.sendBytes n) s = .next t ∧
      t.trace = s.trace ++ sendTrace (s.readRange .txp 0 n.toNat) as ∧
      (as = [] → t.link = s.link) ∧
      (∀ a, as.getLast? = some a →
        t.link = { frame := false, txb := s.readByte .txp (n.toNat - 1), rxb := a.2 }) ∧
      t = { s with
        link := t.link
        ctl := { s.ctl with cmd := 0x02#8 ++ n, status := 0x02#8 }
        seq := { phase := .idle, idx := 0#8, be := .idle }
        att := t.att
        trace := t.trace
        env := { s.env with peer := rest } }

/-- RECV_BYTE: the filler transmitted until an answer `r` other than `BUSY`, which may be `0xFF`; the result is
`RXB = r`, with `STATUS = DONE` and no `EOD`; `RXP` and `RXCNT` are not written (R134). The word latched in
`CMD` and the rest values of `IDX` and `BE` are the model's (log 6, 13). -/
def Obligations.RecvByteCompletes : Prop :=
  ∀ (k : Nat) (r : Byte) (rest : List Byte) (s : State),
    s.active = false → s.env.level = .operation →
    Answered s.env.params.retryLimit [(k, r)] → s.env.peer = byteAnswers (k, r) ++ rest →
    exec .recvByte s = .next
      { s with
        link := { frame := false, txb := s.env.params.filler, rxb := r }
        ctl := { s.ctl with cmd := 0x0300#16, status := 0x02#8 }
        seq := { phase := .idle, idx := 0#8, be := .idle }
        att := k + 1
        trace := s.trace ++ byteTrace s.env.params.filler k r
        env := { s.env with peer := rest } }

/-- RECV_BYTES, no sentinel among the first `m` answers: all `m` bytes stored in order, `RXCNT = m`, `STATUS =
DONE`, and no further exchange (R135). The word latched in `CMD` and the rest values of `IDX` and `BE` are the
model's (log 6, 13). -/
def Obligations.RecvBytesStoresAll : Prop :=
  ∀ (m : Byte) (as : List (Nat × Byte)) (rest : List Byte) (s : State),
    s.active = false → s.env.level = .operation → as.length = m.toNat →
    Answered s.env.params.retryLimit as → (∀ a ∈ as, a.2 ≠ 0xFF#8) →
    s.env.peer = allAnswers as ++ rest →
    ∃ t, exec (.recvBytes m) s = .next t ∧
      t.trace = s.trace ++ recvTrace s.env.params.filler as ∧
      (∀ i (h : i < as.length), t.readByte .rxp i = as[i].2) ∧
      (∀ b i, b ≠ .rxp ∨ m.toNat ≤ i → t.readByte b i = s.readByte b i) ∧
      (as = [] → t.link = s.link) ∧
      (∀ a, as.getLast? = some a →
        t.link = { frame := false, txb := s.env.params.filler, rxb := a.2 }) ∧
      t = { s with
        link := t.link
        rx := { s.rx with cnt := m }
        ctl := { s.ctl with cmd := 0x04#8 ++ m, status := 0x02#8 }
        seq := { phase := .idle, idx := 0#8, be := .idle }
        att := t.att
        mem := t.mem
        trace := t.trace
        env := { s.env with peer := rest } }

/-- RECV_BYTES, `0xFF` before `m` bytes: it ends there with the bytes before it stored, `RXCNT` their number,
the sentinel neither stored nor counted, `STATUS = DONE, EOD`, the rest of `RXP` as it was (R135). The word
latched in `CMD` and the rest values of `IDX` and `BE` are the model's (log 6, 13). -/
def Obligations.RecvBytesEndsOnSentinel : Prop :=
  ∀ (m : Byte) (as : List (Nat × Byte)) (k : Nat) (rest : List Byte) (s : State),
    s.active = false → s.env.level = .operation → as.length < m.toNat →
    Answered s.env.params.retryLimit (as ++ [(k, 0xFF#8)]) → (∀ a ∈ as, a.2 ≠ 0xFF#8) →
    s.env.peer = allAnswers (as ++ [(k, 0xFF#8)]) ++ rest →
    ∃ t, exec (.recvBytes m) s = .next t ∧
      (∀ i (h : i < as.length), t.readByte .rxp i = as[i].2) ∧
      (∀ b i, b ≠ .rxp ∨ as.length ≤ i → t.readByte b i = s.readByte b i) ∧
      t = { s with
        link := { frame := false, txb := s.env.params.filler, rxb := 0xFF#8 }
        rx := { s.rx with cnt := BitVec.ofNat 8 as.length }
        ctl := { s.ctl with cmd := 0x04#8 ++ m, status := 0x06#8 }
        seq := { phase := .idle, idx := 0#8, be := .idle }
        att := k + 1
        mem := t.mem
        trace := s.trace ++ recvTrace s.env.params.filler (as ++ [(k, 0xFF#8)])
        env := { s.env with peer := rest } }

/-- RECV_BYTES that times out: the bytes before stay stored, `RXCNT` counts them, `STATUS = DONE, TIMEOUT`, `RXB
= 0xFE` (R247). The word latched in `CMD` and the rest values of `IDX` and `BE` are the model's (log 6, 13). -/
def Obligations.RecvBytesTimeoutKeepsStored : Prop :=
  ∀ (m : Byte) (as : List (Nat × Byte)) (n : Nat) (rest : List Byte) (s : State),
    s.active = false → s.env.level = .operation → as.length < m.toNat → 1 ≤ n →
    s.env.params.retryLimit = some n → Answered (some n) as → (∀ a ∈ as, a.2 ≠ 0xFF#8) →
    s.env.peer = allAnswers as ++ List.replicate n Config.busy ++ rest →
    ∃ t, exec (.recvBytes m) s = .next t ∧
      (∀ i (h : i < as.length), t.readByte .rxp i = as[i].2) ∧
      (∀ b i, b ≠ .rxp ∨ as.length ≤ i → t.readByte b i = s.readByte b i) ∧
      t = { s with
        link := { frame := false, txb := s.env.params.filler, rxb := 0xFE#8 }
        rx := { s.rx with cnt := BitVec.ofNat 8 as.length }
        ctl := { s.ctl with cmd := 0x04#8 ++ m, status := 0x22#8 }
        seq := { phase := .idle, idx := 0#8, be := .idle }
        att := n
        mem := t.mem
        trace := s.trace ++ recvTrace s.env.params.filler as ++ timeoutTrace s.env.params.filler n
        env := { s.env with peer := rest } }

/-- What a RECV_BYTES that completes has stored (R140): the peer's answers with every `0xFE` deleted, cut at
the first `0xFF` or after `m` bytes; fewer than `m` exactly when `EOD` was set. -/
def Obligations.ReceivedBytesPrecedeTheSentinel : Prop :=
  ∀ (m : Byte) (s t : State),
    s.active = false → s.env.level = .operation → exec (.recvBytes m) s = .next t →
    t.active = false → flagSet t.ctl.status bitTimeout = false →
    t.rx.cnt.toNat = (collected m.toNat s.env.peer).length ∧
    (∀ i (h : i < (collected m.toNat s.env.peer).length),
      t.readByte .rxp i = (collected m.toNat s.env.peer)[i]) ∧
    (t.rx.cnt < m ↔ flagSet t.ctl.status bitEod = true)

/-- With no retry limit, the peer alone decides whether a transceiver operation ends on the answers it has
given (R290): enough answers other than `0xFE`, or, for RECV_BYTES, a `0xFF` among them. -/
def Obligations.TransceiverEndsIffAnswered : Prop :=
  ∀ (s t : State) (a : Byte), s.active = false → s.env.level = .operation →
    s.env.params.retryLimit = none →
    let heard := s.env.peer.filter fun r => r != Config.busy
    (exec (.sendByte a) s = .next t → (t.active = false ↔ 1 ≤ heard.length)) ∧
    (exec (.sendBytes a) s = .next t → (t.active = false ↔ a.toNat ≤ heard.length)) ∧
    (exec .recvByte s = .next t → (t.active = false ↔ 1 ≤ heard.length)) ∧
    (exec (.recvBytes a) s = .next t →
      (t.active = false ↔ a.toNat ≤ heard.length ∨ Config.endOfData ∈ heard))

/-- What SEND_BYTE, SEND_BYTES and RECV_BYTE leave unchanged, however far they get (R132 to R134): every
message register, every byte of every buffer, the poll counter, the reset request, the front end; the world
outside loses only the answers taken, from the first on; the trace only grows. -/
def Obligations.SendAndReceiveByteFrame : Prop :=
  ∀ (i : Instr) (s t : State) (a : Byte), i = .sendByte a ∨ i = .sendBytes a ∨ i = .recvByte →
    exec i s = .next t →
    t.tx = s.tx ∧ t.rx = s.rx ∧ t.mem = s.mem ∧ t.polls = s.polls ∧ t.front = s.front ∧
    t.ctl.sysrstReq = s.ctl.sysrstReq ∧ t.env = { s.env with peer := t.env.peer } ∧
    t.env.peer <:+ s.env.peer ∧ s.trace <+: t.trace

/-- What RECV_BYTES leaves unchanged, however far it gets (R135, R139): every byte but `RXP[0..m-1]`, every
message register but `RXCNT`, and the rest as RECV_BYTE does. -/
def Obligations.ReceiveBytesFrame : Prop :=
  ∀ (m : Byte) (s t : State), exec (.recvBytes m) s = .next t →
    t.tx = s.tx ∧ t.rx = { s.rx with cnt := t.rx.cnt } ∧
    (∀ b i, b ≠ .rxp ∨ m.toNat ≤ i → t.readByte b i = s.readByte b i) ∧
    t.polls = s.polls ∧ t.front = s.front ∧ t.ctl.sysrstReq = s.ctl.sysrstReq ∧
    t.env = { s.env with peer := t.env.peer } ∧ t.env.peer <:+ s.env.peer ∧ s.trace <+: t.trace

/-! ### The orchestrator -/

/-- DISPATCH of the reset keyword (R201): `SYSRST_REQ = 1`, the event `SysReset` and no link event, `ACTIVE`
left set and `DONE` clear in `P_RESETREQ`, every other register and byte as it was. The word latched in `CMD`
and the rest values of `IDX` and `BE` are the model's (log 6, 13). -/
def Obligations.DispatchOfKeywordRequestsReset : Prop :=
  ∀ (l : Byte) (s : State), s.active = false → s.env.level = .operation →
    s.commandString l = s.env.params.resetKeyword →
    exec (.dispatch l) s = .next
      { s with
        ctl := { cmd := 0x07#8 ++ l, status := 0x01#8, sysrstReq := true }
        seq := { phase := .resetReq, idx := 0#8, be := .idle }
        trace := s.trace ++ [.sysReset] }

/-- `P_RESETREQ` is left only by reset (R41, R212, R249): in every state that meets the invariant, any step but
the reset input leaves every register, every byte, the sequencer and the trace as they are. -/
def Obligations.ResetRequestLastsUntilReset : Prop :=
  ∀ s t : State, s.Inv → s.seq.phase = .resetReq → (∀ later, s.env.inbox ≠ .reset :: later) →
    step s = .next t →
    t = { s with env := { s.env with
      inbox := t.env.inbox, hostData := t.env.hostData, draws := t.env.draws } }

/-- DISPATCH, a full reply (R202 to R208): `10 00 00 L` and the command sent, `noise` polled and discarded, the
sync byte, three header bytes and as many payload bytes as declared received; the reply decoded, the payload
stored and terminated, `STATUS = DONE`, and the reply rendered (R189), in that step (log 23). What `RXB` and `ATT`
hold is not stated. The word latched in `CMD` and the rest values of `IDX` and `BE` are the model's (log 6, 13). -/
def Obligations.DispatchDeliversReply : Prop :=
  ∀ (l : Byte) (send noise pay : List (Nat × Byte)) (k : Nat) (c0 c1 c2 : Nat × Byte)
    (rest : List Byte) (s : State),
    let replies := (k, 0x20#8) :: c0 :: c1 :: c2 :: pay
    s.active = false → s.env.level = .operation →
    s.commandString l ≠ s.env.params.resetKeyword →
    send.length = 4 + l.toNat → pay.length = c2.2.toNat →
    (∀ a ∈ noise, a.2 ≠ 0x20#8) → (∀ a ∈ c0 :: c1 :: c2 :: pay, a.2 ≠ 0xFF#8) →
    Answered s.env.params.retryLimit (send ++ noise ++ replies) →
    (∀ n, s.env.params.syncLimit = some n → noise.length < n) →
    s.env.peer = allAnswers (send ++ noise ++ replies) ++ rest →
    ∃ t, exec (.dispatch l) s = .next t ∧
      t.trace = s.trace ++
        sendTrace ([0x10#8, 0x00#8, 0x00#8, l] ++ s.commandString l) send ++
        pollTrace s.env.params.filler (noise ++ [(k, 0x20#8)]) ++
        recvTrace s.env.params.filler (c0 :: c1 :: c2 :: pay) ∧
      t.readRange .txh 0 4 = [0x10#8, 0x00#8, 0x00#8, l] ∧
      t.readRange .rxh 0 4 = [0x20#8, c0.2, c1.2, c2.2] ∧
      (∀ i (h : i < pay.length), t.readByte .rxp i = pay[i].2) ∧
      t.readByte .rxp pay.length = 0x00#8 ∧
      (∀ i, pay.length < i → t.readByte .rxp i = s.readByte .rxp i) ∧
      t.mem.txp = s.mem.txp ∧ t.mem.cmdbuf = s.mem.cmdbuf ∧
      t.link.frame = false ∧ t.link.txb = s.env.params.filler ∧
      t = { s with
        link := t.link
        tx := { type := 0x10#8, cid := 0#16, len := l }
        rx := { type := 0x20#8, cid := c1.2 ++ c0.2, len := c2.2, cnt := c2.2 }
        ctl := { s.ctl with cmd := 0x07#8 ++ l, status := 0x02#8 }
        seq := { phase := .idle, idx := 0#8, be := .idle }
        att := t.att
        polls := noise.length + 1
        mem := t.mem
        front := { s.front with
          rendered := s.front.rendered ++
            [{ type := 0x20#8, cid := c1.2 ++ c0.2, len := c2.2, text := pay.map Prod.snd }] }
        trace := t.trace
        env := { s.env with peer := rest } }

/-- DISPATCH, a payload cut short by `0xFF` (R207, R208, R210): delivered as it came, `RXCNT` bytes and the
terminator, the declared length kept in `RX_LEN`, `STATUS = DONE, EOD, SHORT`; rendered with the shorter text
(R189), in that step (log 23). The word latched in `CMD` is the model's (log 6). -/
def Obligations.DispatchDeliversTruncatedPayload : Prop :=
  ∀ (l : Byte) (send noise pay : List (Nat × Byte)) (k j : Nat) (c0 c1 c2 : Nat × Byte)
    (rest : List Byte) (s : State),
    let replies := (k, 0x20#8) :: c0 :: c1 :: c2 :: (pay ++ [(j, 0xFF#8)])
    s.active = false → s.env.level = .operation →
    s.commandString l ≠ s.env.params.resetKeyword →
    send.length = 4 + l.toNat → pay.length < c2.2.toNat →
    (∀ a ∈ noise, a.2 ≠ 0x20#8) → (∀ a ∈ c0 :: c1 :: c2 :: pay, a.2 ≠ 0xFF#8) →
    Answered s.env.params.retryLimit (send ++ noise ++ replies) →
    (∀ n, s.env.params.syncLimit = some n → noise.length < n) →
    s.env.peer = allAnswers (send ++ noise ++ replies) ++ rest →
    ∃ t, exec (.dispatch l) s = .next t ∧
      (∀ i (h : i < pay.length), t.readByte .rxp i = pay[i].2) ∧
      t.readByte .rxp pay.length = 0x00#8 ∧
      (∀ i, pay.length < i → t.readByte .rxp i = s.readByte .rxp i) ∧
      t.rx = { type := 0x20#8, cid := c1.2 ++ c0.2, len := c2.2, cnt := BitVec.ofNat 8 pay.length } ∧
      t.ctl = { s.ctl with cmd := 0x07#8 ++ l, status := 0x16#8 } ∧
      t.seq.phase = .idle ∧ t.env = { s.env with peer := rest } ∧
      t.front = { s.front with
        rendered := s.front.rendered ++
          [{ type := 0x20#8, cid := c1.2 ++ c0.2, len := c2.2, text := pay.map Prod.snd }] }

/-- DISPATCH, a header tail cut short by `0xFF` (R205, R206): the missing bytes read 0, so no payload exchange
happens, and `STATUS = DONE, EOD, HDR_SHORT` (log 14: nothing else rests on these zeros); what was decoded is
rendered with no text (R189), in that step (log 23). The word latched in `CMD` is the model's (log 6). -/
def Obligations.DispatchReportsShortHeader : Prop :=
  ∀ (l : Byte) (send noise tail : List (Nat × Byte)) (k j : Nat) (rest : List Byte) (s : State),
    let replies := (k, 0x20#8) :: (tail ++ [(j, 0xFF#8)])
    s.active = false → s.env.level = .operation →
    s.commandString l ≠ s.env.params.resetKeyword →
    send.length = 4 + l.toNat → tail.length < 3 →
    (∀ a ∈ noise, a.2 ≠ 0x20#8) → (∀ a ∈ tail, a.2 ≠ 0xFF#8) →
    Answered s.env.params.retryLimit (send ++ noise ++ replies) →
    (∀ n, s.env.params.syncLimit = some n → noise.length < n) →
    s.env.peer = allAnswers (send ++ noise ++ replies) ++ rest →
    ∃ t, exec (.dispatch l) s = .next t ∧
      t.readByte .rxh 0 = 0x20#8 ∧
      (∀ i (h : i < tail.length), t.readByte .rxh (1 + i) = tail[i].2) ∧
      (∀ i, tail.length ≤ i → i < 3 → t.readByte .rxh (1 + i) = 0x00#8) ∧
      t.rx.type = 0x20#8 ∧ t.rx.cid = t.readByte .rxh 2 ++ t.readByte .rxh 1 ∧
      t.rx.len = 0#8 ∧ t.rx.cnt = 0#8 ∧ t.readByte .rxp 0 = 0x00#8 ∧
      (∀ i, 0 < i → t.readByte .rxp i = s.readByte .rxp i) ∧
      t.ctl = { s.ctl with cmd := 0x07#8 ++ l, status := 0x0E#8 } ∧
      t.seq.phase = .idle ∧ t.env = { s.env with peer := rest } ∧
      t.front = { s.front with
        rendered := s.front.rendered ++
          [{ type := 0x20#8, cid := t.rx.cid, len := 0#8, text := [] }] }

/-- DISPATCH with `SYNC_LIMIT = n` and `n` polled bytes none of which is `0x20`: `Timeout(SYNC)`, the request
built and sent, the receive registers as they were, `RXH` cleared, `STATUS = DONE, TIMEOUT` (R215, R247), nothing
rendered (log 11). The word latched in `CMD` is the model's (log 6). -/
def Obligations.DispatchSyncTimeout : Prop :=
  ∀ (l : Byte) (send noise : List (Nat × Byte)) (n : Nat) (rest : List Byte) (s : State),
    s.active = false → s.env.level = .operation →
    s.commandString l ≠ s.env.params.resetKeyword →
    send.length = 4 + l.toNat → (∀ a ∈ noise, a.2 ≠ 0x20#8) →
    1 ≤ n → s.env.params.syncLimit = some n → noise.length = n →
    Answered s.env.params.retryLimit (send ++ noise) →
    s.env.peer = allAnswers (send ++ noise) ++ rest →
    ∃ t, exec (.dispatch l) s = .next t ∧
      t.trace = s.trace ++
        sendTrace ([0x10#8, 0x00#8, 0x00#8, l] ++ s.commandString l) send ++
        pollTrace s.env.params.filler noise ∧
      t.readRange .rxh 0 4 = [0x00#8, 0x00#8, 0x00#8, 0x00#8] ∧
      t.tx = { type := 0x10#8, cid := 0#16, len := l } ∧ t.rx = s.rx ∧
      t.mem.txp = s.mem.txp ∧ t.mem.rxp = s.mem.rxp ∧ t.mem.cmdbuf = s.mem.cmdbuf ∧
      t.polls = n ∧ t.ctl = { s.ctl with cmd := 0x07#8 ++ l, status := 0x22#8 } ∧
      t.seq.phase = .idle ∧ t.env = { s.env with peer := rest } ∧ t.front = s.front

/-- A DISPATCH that completes has delivered the header of type `COMMAND`, correlation id 0 and length `L`, and
then exactly the command's bytes, before anything else (R203). -/
def Obligations.DispatchSendsTheRequest : Prop :=
  ∀ (l : Byte) (s t : State), s.active = false → s.env.level = .operation →
    s.commandString l ≠ s.env.params.resetKeyword → exec (.dispatch l) s = .next t →
    t.active = false → flagSet t.ctl.status bitTimeout = false →
    ∃ d, t.trace = s.trace ++ d ∧
      (deliveredBytes d).take (4 + l.toNat) = [0x10#8, 0x00#8, 0x00#8, l] ++ s.commandString l

/-- What DISPATCH leaves unchanged, however far it gets (R34, R200): `TXP`, `CMDBUF`, and every byte of `RXP` above
index `RXCNT`; the front end but for one render record more, which is that of the receive registers and comes only
with an end that is no `Timeout` (log 11, 23); the world outside but the answers taken, from the first on; the
reset request unless the command is the keyword; the trace only grows. -/
def Obligations.DispatchFrame : Prop :=
  ∀ (l : Byte) (s t : State), exec (.dispatch l) s = .next t →
    t.mem.txp = s.mem.txp ∧ t.mem.cmdbuf = s.mem.cmdbuf ∧
    (∀ i, t.rx.cnt.toNat < i → t.readByte .rxp i = s.readByte .rxp i) ∧
    (t.front = s.front ∨
      t.active = false ∧ flagSet t.ctl.status bitTimeout = false ∧
        t.front = { s.front with rendered := s.front.rendered ++
          [{ type := t.rx.type, cid := t.rx.cid, len := t.rx.len
             text := t.readRange .rxp 0 t.rx.cnt.toNat }] }) ∧
    t.env = { s.env with peer := t.env.peer } ∧ t.env.peer <:+ s.env.peer ∧ s.trace <+: t.trace ∧
    (s.commandString l ≠ s.env.params.resetKeyword → t.ctl.sysrstReq = s.ctl.sysrstReq)

/-! ### One byte returned by the peer -/

/-- `BUSY` in a phase that runs a byte (R131, R141): below the limit the pacing delay comes next; at the limit
`Timeout(BYTE)`, and the phases that store into `RXP` leave the count in `RXCNT` (R247). The rest values of
`IDX` and `BE` are the model's (log 13), and so is that it holds outside `B_CHECK` too (log 10). -/
def Obligations.BusyAnswerRetriesOrTimesOut : Prop :=
  ∀ s : State, s.seq.phase.usesEngine = true →
    (limitReached s.att s.env.params.retryLimit = false →
      exec .wbBusy s = .next { s with seq := { s.seq with be := .pace } }) ∧
    (limitReached s.att s.env.params.retryLimit = true →
      let ended := { s with
        ctl := { s.ctl with status := endedStatus (s.ctl.status ||| 0x20#8) }
        seq := { phase := .idle, idx := 0#8, be := .idle } }
      (s.storesPayload = true →
        exec .wbBusy s = .next { ended with rx := { s.rx with cnt := s.seq.idx } }) ∧
      (s.storesPayload = false → exec .wbBusy s = .next ended))

/-- The sync poll (R204): `0x20` is kept in `RXH[0]` and the header tail comes next; any other byte, `0xFF`
included, is discarded and polled again after the interval, or ends the operation at the limit. The rest values
of `IDX` and `BE` are the model's (log 13), and so is that it holds outside `B_CHECK` too (log 10). -/
def Obligations.SyncPollTakesOneByte : Prop :=
  ∀ (s : State) (r : Byte), s.seq.phase = .pollRx → WellFormed (.wbData r) →
    exec .wbSync s = .next { s with
      seq := { phase := .rxHdr, idx := 0#8, be := .idle }
      polls := s.polls + 1
      mem := s.mem.write .rxh 0 0x20#8 } ∧
    (limitReached (s.polls + 1) s.env.params.syncLimit = false →
      let again := { s with
        seq := { s.seq with phase := .pollWait, be := .idle }
        polls := s.polls + 1 }
      exec (.wbData r) s = .next again ∧ exec .wbEndOfData s = .next again) ∧
    (limitReached (s.polls + 1) s.env.params.syncLimit = true →
      let ended := { s with
        ctl := { s.ctl with status := endedStatus (s.ctl.status ||| 0x20#8) }
        seq := { phase := .idle, idx := 0#8, be := .idle }
        polls := s.polls + 1 }
      exec (.wbData r) s = .next ended ∧ exec .wbEndOfData s = .next ended)

/-- The header tail (R205): an ordinary byte, `0x20` included, is stored after those before it; `0xFF` ends the
tail with `EOD` and `HDR_SHORT`. That it holds outside `B_CHECK` too is the model's choice (log 10). -/
def Obligations.HeaderTailTakesOneByte : Prop :=
  ∀ (s : State) (r : Byte), s.seq.phase = .rxHdr → WellFormed (.wbData r) →
    let stored := fun v : Byte => { s with
      seq := { phase := .rxHdr, idx := s.seq.idx + 1#8, be := .idle }
      mem := s.mem.write .rxh (1 + s.seq.idx.toNat) v }
    exec (.wbData r) s = .next (stored r) ∧
    exec .wbSync s = .next (stored 0x20#8) ∧
    exec .wbEndOfData s = .next { s with
      ctl := { s.ctl with status := s.ctl.status ||| 0x04#8 ||| 0x08#8 }
      seq := { s.seq with phase := .decode, be := .idle } }

/-- The payload of DISPATCH (R207): an ordinary byte, `0x20` included, is stored after those before it; `0xFF`
ends the payload with `EOD`. That it holds outside `B_CHECK` too is the model's choice (log 10). -/
def Obligations.PayloadTakesOneByte : Prop :=
  ∀ (s : State) (r : Byte), s.seq.phase = .rxPay → WellFormed (.wbData r) →
    let stored := fun v : Byte => { s with
      seq := { phase := .rxPay, idx := s.seq.idx + 1#8, be := .idle }
      mem := s.mem.write .rxp s.seq.idx.toNat v }
    exec (.wbData r) s = .next (stored r) ∧
    exec .wbSync s = .next (stored 0x20#8) ∧
    exec .wbEndOfData s = .next { s with
      ctl := { s.ctl with status := s.ctl.status ||| 0x04#8 }
      seq := { s.seq with phase := .term, be := .idle } }

/-- While the command's payload is sent, any answer but `BUSY` only moves on to the next byte (R103, R292); in
RECV_BYTE it is the result and the operation ends, with no `EOD` even on `0xFF` (R134). The rest values of `IDX`
and `BE` are the model's (log 13), and so is that it holds outside `B_CHECK` too (log 10). -/
def Obligations.SendAndSingleReceiveTakeAnyByte : Prop :=
  ∀ (s : State) (r : Byte), WellFormed (.wbData r) →
    (s.seq.phase = .txPay →
      let moved := { s with seq := { phase := .txPay, idx := s.seq.idx + 1#8, be := .idle } }
      exec (.wbData r) s = .next moved ∧ exec .wbSync s = .next moved ∧
        exec .wbEndOfData s = .next moved) ∧
    (s.seq.phase = .recv → s.op = 3#4 → s.ctl.status = 0x01#8 →
      let ended := { s with
        ctl := { s.ctl with status := 0x02#8 }
        seq := { phase := .idle, idx := 0#8, be := .idle } }
      exec (.wbData r) s = .next ended ∧ exec .wbSync s = .next ended ∧
        exec .wbEndOfData s = .next ended)

/-! ### The console front end -/

/-- `FEED` of any other byte (R184): echoed, stored at the cursor, the cursor advanced; dropped without echo or
any change when the buffer is full. -/
def Obligations.FeedStoresOtherBytes : Prop :=
  ∀ (s : State) (c : Byte), s.hostBusy = false → WellFormed (.conOther c) →
    (s.front.cur < 255#8 →
      exec (.conOther c) s = .next { s with
        mem := s.mem.write .cmdbuf s.front.cur.toNat c
        front := { s.front with cur := s.front.cur + 1#8, console := s.front.console ++ [c] } }) ∧
    (s.front.cur = 255#8 → exec (.conOther c) s = .next s)

/-- `FEED` of a backspace (R183): on a non-empty buffer backspace, space, backspace are echoed and the cursor goes
back by one; on an empty one nothing happens. -/
def Obligations.FeedBackspaceErasesOne : Prop :=
  ∀ s : State, s.hostBusy = false →
    (s.front.cur ≠ 0#8 →
      exec .conBs s = .next { s with
        front := { s.front with
          cur := s.front.cur - 1#8
          console := s.front.console ++ [0x08#8, 0x20#8, 0x08#8] } }) ∧
    (s.front.cur = 0#8 → exec .conBs s = .next s)

/-- `FEED` of a line end at the sequencer level (R185, R106; log 1, 22): the newline echoed, the line terminated and
copied to `TXP`, `DISPATCH CUR` accepted at `P_KEYCHK` (R212); the cursor is still there until `dispatch` returns. The
word latched in `CMD` and the values 0 and `B_IDLE` of `IDX` and `BE` on acceptance are the model's (log 6, 13). -/
def Obligations.FeedLineEndStartsDispatch : Prop :=
  ∀ s : State, s.hostBusy = false → s.front.cur ≠ 0#8 → s.env.level = .sequencer →
    ∃ t, exec .conCr s = .next t ∧ exec .conLf s = .next t ∧
      (∀ i, i < s.front.cur.toNat → t.readByte .txp i = s.readByte .cmdbuf i) ∧
      t.readByte .cmdbuf s.front.cur.toNat = 0x00#8 ∧
      (∀ b i, (b ≠ .txp ∨ s.front.cur.toNat ≤ i) → (b ≠ .cmdbuf ∨ i ≠ s.front.cur.toNat) →
        t.readByte b i = s.readByte b i) ∧
      t = { s with
        ctl := { s.ctl with cmd := 0x07#8 ++ s.front.cur, status := 0x01#8 }
        seq := { phase := .keyChk, idx := 0#8, be := .idle }
        mem := t.mem
        front := { s.front with
          stalled := true
          console := s.front.console ++ s.env.params.newlineEcho } }

/-- `FEED` of a line end at the operation level (R185, R189): it is DISPATCH of the line, made in the state the
echo and the host's writes leave; when that ends, the cursor is 0, and one reply more is rendered, that of the
receive registers, unless it timed out (log 11, 23). -/
def Obligations.FeedLineEndDispatchesTheLine : Prop :=
  ∀ s u : State, s.hostBusy = false → s.front.cur ≠ 0#8 → s.env.level = .operation →
    let s₁ := (s.consoleWrite s.env.params.newlineEcho).writeByte .cmdbuf s.front.cur.toNat 0#8
    exec (.dispatch s.front.cur) (s₁.writeRange .txp 0 s.consoleLine) = .next u → u.active = false →
    let reply : Render :=
      { type := u.rx.type, cid := u.rx.cid, len := u.rx.len
        text := u.readRange .rxp 0 u.rx.cnt.toNat }
    let t := { u with front := { u.front with
      cur := 0#8
      stalled := false
      rendered := if flagSet u.ctl.status bitTimeout then s.front.rendered
        else s.front.rendered ++ [reply] } }
    exec .conCr s = .next t ∧ exec .conLf s = .next t

/-- Feeding ordinary bytes to an empty buffer that has room for them gathers exactly them, each echoed once
(R186, first part): the line that a line end then dispatches. -/
def Obligations.FeedGathersTheLine : Prop :=
  ∀ (cs : List Byte) (s : State), s.hostBusy = false → s.front.cur = 0#8 → cs.length ≤ 255 →
    (∀ c ∈ cs, WellFormed (.conOther c)) →
    ∃ t, Host.Core.run Sys2Proof.core cs.length
        { s with env := { s.env with inbox := cs.map Input.console } } = .next t ∧
      t.consoleLine = cs ∧ t.front.cur.toNat = cs.length ∧
      t.front.console = s.front.console ++ cs ∧ t.trace = s.trace ∧ t.env.inbox = []

/-- A line end on an empty buffer is ignored (R185); so a line feed right after a carriage return dispatches
nothing more (R186, second part). -/
def Obligations.LineEndOnEmptyLineIsIgnored : Prop :=
  (∀ s : State, s.hostBusy = false → s.front.cur = 0#8 →
    exec .conCr s = .next s ∧ exec .conLf s = .next s) ∧
  (∀ s t : State, s.hostBusy = false → s.env.level = .operation → exec .conCr s = .next t →
    t.active = false → exec .conLf t = .next t)

/-- The end of DISPATCH at the sequencer level, whoever wrote its operation word (R208, R212, `P_TERM`): `RXCNT`, the
terminator and `SHORT` written, the operation completed, and the reply rendered (R189) in that step (log 23), with
the rest values of `IDX` and `BE` the model's (log 13). Then, for a `dispatch` of the front end, its return to the
control loop, before the next action of the outside world (log 12): the cursor 0 and the loop free again (R185), no
more. -/
def Obligations.EndedDispatchReturnsAndRenders : Prop :=
  (∀ s : State, s.env.inbox = [] → s.seq.phase = .term →
    let reported := if s.seq.idx < s.rx.len then s.ctl.status ||| 0x10#8 else s.ctl.status
    step s = .next { s with
      rx := { s.rx with cnt := s.seq.idx }
      ctl := { s.ctl with status := endedStatus reported }
      seq := { phase := .idle, idx := 0#8, be := .idle }
      mem := s.mem.write .rxp s.seq.idx.toNat 0x00#8
      front := { s.front with rendered := s.front.rendered ++
        [{ type := s.rx.type, cid := s.rx.cid, len := s.rx.len
           text := s.readRange .rxp 0 s.seq.idx.toNat }] } }) ∧
  (∀ s : State, s.returnDue = true → (∀ later, s.env.inbox ≠ .reset :: later) →
    step s = .next { s with front := { s.front with cur := 0#8, stalled := false } })

/-! ### Reset, the host, the whole machine -/

/-- The values after reset (R47): the registers, the bytes of `TXH` and `RXH`; and the block does nothing until the
host acts. That a byte of `TXP`, `RXP` and `CMDBUF`, which R47 leaves unspecified, is drawn, as a free value, and is no
fault is the model's choice (log 4), and so is the number 0 of the reset under which it is drawn (log 19). -/
def Obligations.ResetValues : Prop :=
  let s := State.reset
  s.link = { frame := false, txb := 0x00#8, rxb := 0x00#8 } ∧
  s.tx = { type := 0x00#8, cid := 0x0000#16, len := 0x00#8 } ∧
  s.rx = { type := 0x00#8, cid := 0x0000#16, len := 0x00#8, cnt := 0#8 } ∧
  s.readReg 0x08#8 = 0#16 ∧ s.ctl.status = 0x00#8 ∧ s.ctl.sysrstReq = false ∧
  s.seq = { phase := .idle, idx := 0#8, be := .idle } ∧ s.att = 0 ∧ s.polls = 0 ∧
  s.front.cur = 0#8 ∧
  (∀ i, s.readByte .txh i = 0x00#8 ∧ s.readByte .rxh i = 0x00#8) ∧
  (∀ b i, b = .txp ∨ b = .rxp ∨ b = .cmdbuf → s.readByte b i = Config.unspecifiedByte 0 b i) ∧
  step s = .next s

/-- The reset input, at any time (R280, R281): every register, counter and buffer as after reset, whatever was
running; unwritten bytes read fresh free values (log 4); the trace shows no event for it; what was written to the
console and rendered stays (log 18). -/
def Obligations.ResetInputResets : Prop :=
  ∀ (s : State) (later : List Input), s.env.inbox = .reset :: later →
    step s = .next { State.reset with
      front := { State.reset.front with
        console := s.front.console, rendered := s.front.rendered }
      trace := s.trace
      env := { s.env with inbox := later, epoch := s.env.epoch + 1 } }

/-- Host register writes while idle (R40): the three read/write registers take the value's low bits, every other number
but `CMD` takes nothing (widths of the value and of the number: log 8). -/
def Obligations.HostRegisterWrites : Prop :=
  ∀ (s : State) (n : Byte) (v : Half) (later : List Input),
    s.active = false → s.returnDue = false → n ≠ regCmd → s.env.inbox = .hostWrite n v :: later →
    step s = .next { s with
      tx :=
        { type := if n = 0x02#8 then v.setWidth 8 else s.tx.type
          cid := if n = 0x03#8 then v else s.tx.cid
          len := if n = 0x04#8 then v.setWidth 8 else s.tx.len }
      env := { s.env with inbox := later } }

/-- Host reads of a register (R36, R37, R40, R77): `STATUS` at all times; a number from `0x0E` on, of 8 bits (log 8),
reads 0; while idle `CMD` reads 0 and the others what they hold; while active any of them returns a fresh
unspecified value (log 5). -/
def Obligations.HostRegisterReads : Prop :=
  ∀ (s : State) (n : Byte) (later : List Input), s.returnDue = false →
    s.env.inbox = .hostRead n :: later →
    let reads := fun v : Half => { s with env := { s.env with inbox := later, hostData := v } }
    (n = 0x01#8 → step s = .next (reads (s.ctl.status.setWidth 16))) ∧
    (0x0E#8 ≤ n → step s = .next (reads 0#16)) ∧
    (s.active = false →
      (n = regCmd → step s = .next (reads 0#16)) ∧
      (n = 0x02#8 → step s = .next (reads (s.tx.type.setWidth 16))) ∧
      (n = 0x03#8 → step s = .next (reads s.tx.cid)) ∧
      (n = 0x04#8 → step s = .next (reads (s.tx.len.setWidth 16))) ∧
      (n = 0x05#8 → step s = .next (reads (s.rx.type.setWidth 16))) ∧
      (n = 0x06#8 → step s = .next (reads s.rx.cid)) ∧
      (n = 0x07#8 → step s = .next (reads (s.rx.len.setWidth 16))) ∧
      (n = 0x08#8 → step s = .next (reads ((classify s.rx.type).code.setWidth 16))) ∧
      (n = 0x09#8 → step s = .next (reads (s.rx.cnt.setWidth 16))) ∧
      (n = 0x0A#8 → step s = .next (reads (s.link.txb.setWidth 16))) ∧
      (n = 0x0B#8 → step s = .next (reads (s.link.rxb.setWidth 16))) ∧
      (n = 0x0C#8 → step s = .next (reads (if s.link.frame then 1#16 else 0#16))) ∧
      (n = 0x0D#8 → step s = .next (reads (if s.ctl.sysrstReq then 1#16 else 0#16)))) ∧
    (s.active = true → n ≠ 0x01#8 → n < 0x0E#8 →
      step s = .next { s with env := { s.env with
        inbox := later
        hostData := Config.midOpRead s.env.draws
        draws := s.env.draws + 1 } })

/-- Host access to a buffer while idle (R28, R29, R34, R67): a byte written to `TXP` or `RXH` inside the buffer reads
back and no other byte changes; an index at or above the size, and a read-only buffer, refuse the write; a read
outside the buffer returns 0. -/
def Obligations.HostBufferAccess : Prop :=
  ∀ (s : State) (b : Space) (i : Nat) (v : Byte) (later : List Input),
    s.active = false → s.returnDue = false →
    (s.env.inbox = .bufWrite b i v :: later →
      let s' := { s with env := { s.env with inbox := later } }
      ((b = .txp ∨ b = .rxh) ∧ i < b.size →
        ∃ t, step s = .next t ∧ t = { s' with mem := t.mem } ∧ t.readByte b i = v ∧
          ∀ b' j, b' ≠ b ∨ j ≠ i → t.readByte b' j = s.readByte b' j) ∧
      (b ≠ .txp ∧ b ≠ .rxh ∨ b.size ≤ i → step s = .next s')) ∧
    (s.env.inbox = .bufRead b i :: later → b ≠ .cmdbuf →
      step s = .next { s with env := { s.env with
        inbox := later
        hostData := if i < b.size then (s.readByte b i).setWidth 16 else 0#16 } })

/-- A byte written reads back, and a write changes no other byte of any space (R61, R65, R74). -/
def Obligations.ByteWrittenReadsBack : Prop :=
  ∀ (s : State) (b b' : Space) (i j : Nat) (v : Byte), i < b.size →
    (s.writeByte b i v).readByte b' j = if b' = b ∧ j = i then v else s.readByte b' j

/-- The invariant holds at reset. -/
def Obligations.InvariantAtReset : Prop := State.reset.Inv ∧ State.reset.traceShaped

/-- Every step from a state that meets the invariant leads to one that meets it. -/
def Obligations.InvariantKeptByEveryStep : Prop :=
  ∀ s t : State, s.Inv → step s = .next t → t.Inv

/-- Every step but a reset keeps the trace in the shape of R142: framed exchanges one at a time, a pacing delay
after a `BUSY` answer and only there, then a retry of the same byte, a poll delay only after an answer that is
not `BUSY`. -/
def Obligations.TraceShapeKeptByEveryStep : Prop :=
  ∀ s t : State, s.Inv → s.traceShaped → (∀ later, s.env.inbox ≠ .reset :: later) →
    step s = .next t → t.traceShaped

/-- No step takes back an event of the link, changes a parameter or stops (R43, R69, R74, R283): there is always a
next state, its trace continues the trace, and the parameters are those of before. -/
def Obligations.EveryStepGoesOn : Prop :=
  ∀ s : State, ∃ t, step s = .next t ∧ s.trace <+: t.trace ∧ t.env.params = s.env.params

/-- While nobody outside acts, `TXP` and `CMDBUF` are never written (R28, R46): with nothing listed, with a `wait` next,
or with a console byte next that stays pending because the control loop is busy (R187, log 12). -/
def Obligations.BlockNeverWritesTransmitBuffer : Prop :=
  ∀ s t : State,
    (s.env.inbox = [] ∨ (∃ later, s.env.inbox = .wait :: later) ∨
      ((∃ c later, s.env.inbox = .console c :: later) ∧ s.hostBusy = true)) →
    step s = .next t → t.mem.txp = s.mem.txp ∧ t.mem.cmdbuf = s.mem.cmdbuf

/-- The two levels of the model, chosen by its own field `env.level` (log 1), agree as R41, R141 and R212 say of the
spec's two forms: whatever an operation does at the operation level, the sequencer reaches the same state, action
by action, from its acceptance. -/
def Obligations.SequencerReachesOperationResult : Prop :=
  ∀ (i : Instr) (s t u : State), isOperation i = true → s.env.inbox = [] →
    exec i (s.atLevel .operation) = .next t → exec i (s.atLevel .sequencer) = .next u →
    ∃ n, Host.Core.run Sys2Proof.core n u = .next (t.atLevel .sequencer)
end

