-- ==== Sys2Proof/Laws/Encoding.lean ====
section
/-! SUPPORT. The fields of the words the encoder writes (30_encoding.md R91, R94), bit by bit and field by
field. -/

namespace Sys2Proof

/-- The bits of an operation word. -/
theorem opWord_bit (op : BitVec 4) (a : Byte) (i : Nat) :
    (opWord op a).getLsbD i = if i < 8 then a.getLsbD i else op.getLsbD (i - 8) := by
  have h : (opWord op a).getLsbD i = BitVec.getLsbD (w := 4 + 4 + 8) (0#4 ++ op ++ a) i := rfl
  rw [h, BitVec.getLsbD_append, BitVec.getLsbD_append]
  have hz : ∀ j, (0#4).getLsbD j = false := fun j => by simp
  simp only [hz]
  split_ifs with h1 h2
  · rfl
  · rfl
  · rw [BitVec.getLsbD_of_ge]
    omega

theorem rsvField_opWord (op : BitVec 4) (a : Byte) : rsvField (opWord op a) = 0#4 := by
  apply BitVec.eq_of_getLsbD_eq
  intro i hi
  simp only [rsvField, BitVec.getLsbD_extractLsb', opWord_bit]
  rw [if_neg (by omega), BitVec.getLsbD_of_ge]
  · simp
  · omega

theorem opField_opWord (op : BitVec 4) (a : Byte) : opField (opWord op a) = op := by
  apply BitVec.eq_of_getLsbD_eq
  intro i hi
  simp only [opField, BitVec.getLsbD_extractLsb', opWord_bit]
  rw [if_neg (by omega)]
  simp [hi]

theorem argField_opWord (op : BitVec 4) (a : Byte) : argField (opWord op a) = a := by
  apply BitVec.eq_of_getLsbD_eq
  intro i hi
  simp only [argField, BitVec.getLsbD_extractLsb', opWord_bit]
  rw [if_pos (by omega)]
  simp [hi]

/-- The bits of a header. -/
theorem hdrWord_bit (h0 h1 h2 h3 : Byte) (i : Nat) :
    (hdrWord h0 h1 h2 h3).getLsbD i =
      if i < 8 then h3.getLsbD i
      else if i < 16 then h2.getLsbD (i - 8)
      else if i < 24 then h1.getLsbD (i - 16)
      else h0.getLsbD (i - 24) := by
  have h : (hdrWord h0 h1 h2 h3).getLsbD i =
      BitVec.getLsbD (w := 8 + 8 + 8 + 8) (h0 ++ h1 ++ h2 ++ h3) i := rfl
  rw [h, BitVec.getLsbD_append, BitVec.getLsbD_append, BitVec.getLsbD_append]
  split_ifs <;> first | rfl | omega

theorem hdrType_hdrWord (h0 h1 h2 h3 : Byte) : hdrType (hdrWord h0 h1 h2 h3) = h0 := by
  apply BitVec.eq_of_getLsbD_eq
  intro i hi
  simp only [hdrType, BitVec.getLsbD_extractLsb', hdrWord_bit]
  rw [if_neg (by omega), if_neg (by omega), if_neg (by omega)]
  simp [hi]

theorem hdrLow_hdrWord (h0 h1 h2 h3 : Byte) : hdrLow (hdrWord h0 h1 h2 h3) = h1 := by
  apply BitVec.eq_of_getLsbD_eq
  intro i hi
  simp only [hdrLow, BitVec.getLsbD_extractLsb', hdrWord_bit]
  rw [if_neg (by omega), if_neg (by omega), if_pos (by omega)]
  simp [hi]

theorem hdrHigh_hdrWord (h0 h1 h2 h3 : Byte) : hdrHigh (hdrWord h0 h1 h2 h3) = h2 := by
  apply BitVec.eq_of_getLsbD_eq
  intro i hi
  simp only [hdrHigh, BitVec.getLsbD_extractLsb', hdrWord_bit]
  rw [if_neg (by omega), if_pos (by omega)]
  simp [hi]

theorem hdrLength_hdrWord (h0 h1 h2 h3 : Byte) : hdrLength (hdrWord h0 h1 h2 h3) = h3 := by
  apply BitVec.eq_of_getLsbD_eq
  intro i hi
  simp only [hdrLength, BitVec.getLsbD_extractLsb', hdrWord_bit]
  rw [if_pos (by omega)]
  simp [hi]

/-- A header is its four bytes. -/
theorem hdrWord_fields (h : Quad) : hdrWord (hdrType h) (hdrLow h) (hdrHigh h) (hdrLength h) = h := by
  apply BitVec.eq_of_getLsbD_eq
  intro i hi
  simp only [hdrWord_bit, hdrType, hdrLow, hdrHigh, hdrLength, BitVec.getLsbD_extractLsb']
  split_ifs with h1 h2 h3
  · simp [h1]
  · have e : 8 + (i - 8) = i := by omega
    simp [e]
    omega
  · have e : 16 + (i - 16) = i := by omega
    simp [e]
    omega
  · have e : 24 + (i - 24) = i := by omega
    simp [e]
    omega

/-- An operation word with `RSV = 0` is its code and its operand. -/
theorem opWord_fields {w : Half} (h : rsvField w = 0#4) : opWord (opField w) (argField w) = w := by
  apply BitVec.eq_of_getLsbD_eq
  intro i hi
  simp only [opWord_bit, opField, argField, BitVec.getLsbD_extractLsb']
  split_ifs with h1
  · simp [h1]
  · have e : 8 + (i - 8) = i := by omega
    rw [e]
    by_cases h2 : i - 8 < 4
    · simp [h2]
    · have h3 : (rsvField w).getLsbD (i - 12) = false := by rw [h]; simp
      simp only [rsvField, BitVec.getLsbD_extractLsb'] at h3
      have e2 : 12 + (i - 12) = i := by omega
      rw [e2] at h3
      have h4 : i - 12 < 4 := by omega
      simp [h4] at h3
      simp [h3]

end Sys2Proof
end

