-- ==== Sys2Proof/Laws/Memory.lean ====
section
/-! SUPPORT. The laws of the byte spaces: a read after a write, and the canonical form that every memory
operation keeps. -/

namespace Sys2Proof.Machine

/-! ### Cells -/

theorem cellAt_putCell_self (i : Nat) (v : Byte) (cs : List Host.Cell) :
    cellAt i (putCell i v cs) = some v := by
  induction cs with
  | nil => simp [putCell, cellAt]
  | cons c cs ih =>
    unfold putCell
    split
    · simp [cellAt]
    · split
      · simp [cellAt]
      · rename_i h
        simp [cellAt, Ne.symm h, ih]

theorem cellAt_putCell_other {i j : Nat} (h : j ≠ i) (v : Byte) (cs : List Host.Cell) :
    cellAt j (putCell i v cs) = cellAt j cs := by
  induction cs with
  | nil => simp [putCell, cellAt, Ne.symm h]
  | cons c cs ih =>
    unfold putCell
    split
    · simp [cellAt, Ne.symm h]
    · split
      · rename_i hc
        simp [cellAt, ← hc, Ne.symm h]
      · simp [cellAt, ih]

theorem cellAt_dropCell_self (i : Nat) (cs : List Host.Cell) : cellAt i (dropCell i cs) = none := by
  induction cs with
  | nil => rfl
  | cons c cs ih =>
    unfold dropCell
    split
    · exact ih
    · rename_i h
      simp [cellAt, h, ih]

theorem cellAt_dropCell_other {i j : Nat} (h : j ≠ i) (cs : List Host.Cell) :
    cellAt j (dropCell i cs) = cellAt j cs := by
  induction cs with
  | nil => rfl
  | cons c cs ih =>
    unfold dropCell
    split
    · rename_i hc
      simp [cellAt, hc, Ne.symm h, ih]
    · simp [cellAt, ih]

/-! ### The spaces of a memory -/

@[simp] theorem cells_withCells_self (m : Memory) (b : Space) (cs : List Host.Cell) :
    (m.withCells b cs).cells b = cs := by
  cases b <;> rfl

theorem cells_withCells_other {b b' : Space} (h : b' ≠ b) (m : Memory) (cs : List Host.Cell) :
    (m.withCells b cs).cells b' = m.cells b' := by
  cases b <;> cases b' <;> first | rfl | exact absurd rfl h

theorem cells_write_other {b b' : Space} (h : b' ≠ b) (m : Memory) (i : Nat) (v : Byte) :
    (m.write b i v).cells b' = m.cells b' := by
  unfold Memory.write
  split
  · exact cells_withCells_other h _ _
  · rfl

/-- A write of an index a space does not have changes nothing (R67). -/
theorem write_out_of_range {b : Space} {i : Nat} (h : b.size ≤ i) (m : Memory) (v : Byte) :
    m.write b i v = m := by
  simp [Memory.write, Nat.not_lt.mpr h]

/-! ### Reading -/

/-- A read after a write: the byte written, where it was written. -/
theorem readByte_writeByte_self {b : Space} {i : Nat} (h : i < b.size) (s : State) (v : Byte) :
    (s.writeByte b i v).readByte b i = v := by
  simp only [State.readByte, State.writeByte, Memory.write, h, if_true, cells_withCells_self]
  split_ifs with hb
  · simp [cellAt_dropCell_self, State.unlisted, hb]
  · simp [cellAt_putCell_self]

/-- A write leaves every other byte of every space as it was. -/
theorem readByte_writeByte_other {b b' : Space} {i j : Nat} (h : b' ≠ b ∨ j ≠ i) (s : State) (v : Byte) :
    (s.writeByte b i v).readByte b' j = s.readByte b' j := by
  have hcell : cellAt j ((s.mem.write b i v).cells b') = cellAt j (s.mem.cells b') := by
    by_cases hb : b' = b
    · subst hb
      have hj : j ≠ i := h.resolve_left fun hn => hn rfl
      unfold Memory.write
      split
      · rw [cells_withCells_self]
        split
        · exact cellAt_dropCell_other hj _
        · exact cellAt_putCell_other hj _ _
      · rfl
    · rw [cells_write_other hb]
  simp only [State.readByte, State.writeByte, hcell]
  rfl

/-! ### The canonical form -/

theorem risingCells_cons_iff (c : Host.Cell) (cs : List Host.Cell) :
    risingCells (c :: cs) = true ↔ (∀ d ∈ cs, c.1 < d.1) ∧ risingCells cs = true := by
  induction cs generalizing c with
  | nil => simp [risingCells]
  | cons d cs ih =>
    simp only [risingCells, Bool.and_eq_true, decide_eq_true_eq, List.mem_cons, forall_eq_or_imp]
    constructor
    · rintro ⟨hcd, hd⟩
      have := (ih d).mp hd
      exact ⟨⟨hcd, fun e he => Nat.lt_trans hcd (this.1 e he)⟩, hd⟩
    · rintro ⟨⟨hcd, _⟩, hd⟩
      exact ⟨hcd, hd⟩

theorem mem_putCell {i : Nat} {v : Byte} {cs : List Host.Cell} {c : Host.Cell}
    (h : c ∈ putCell i v cs) : c = (i, v) ∨ c ∈ cs := by
  induction cs with
  | nil => exact .inl (by simpa [putCell] using h)
  | cons d cs ih =>
    unfold putCell at h
    split at h
    · simpa using h
    · split at h
      · rcases List.mem_cons.mp h with h | h
        · exact .inl h
        · exact .inr (List.mem_cons_of_mem _ h)
      · rcases List.mem_cons.mp h with h | h
        · exact .inr (h ▸ List.mem_cons_self ..)
        · rcases ih h with h | h
          · exact .inl h
          · exact .inr (List.mem_cons_of_mem _ h)

theorem mem_dropCell {i : Nat} {cs : List Host.Cell} {c : Host.Cell} (h : c ∈ dropCell i cs) :
    c ∈ cs := by
  induction cs with
  | nil => exact h
  | cons d cs ih =>
    unfold dropCell at h
    split at h
    · exact List.mem_cons_of_mem _ (ih h)
    · rcases List.mem_cons.mp h with h | h
      · exact h ▸ List.mem_cons_self ..
      · exact List.mem_cons_of_mem _ (ih h)

theorem risingCells_putCell {cs : List Host.Cell} (i : Nat) (v : Byte) (h : risingCells cs = true) :
    risingCells (putCell i v cs) = true := by
  induction cs with
  | nil => rfl
  | cons c cs ih =>
    have hc := (risingCells_cons_iff c cs).mp h
    unfold putCell
    split
    · rename_i hi
      refine (risingCells_cons_iff _ _).mpr ⟨fun d hd => ?_, h⟩
      rcases List.mem_cons.mp hd with rfl | hd
      · exact hi
      · exact Nat.lt_trans hi (hc.1 d hd)
    · split
      · rename_i hi
        exact (risingCells_cons_iff _ _).mpr ⟨fun d hd => hi ▸ hc.1 d hd, hc.2⟩
      · rename_i hlt hne
        refine (risingCells_cons_iff _ _).mpr ⟨fun d hd => ?_, ih hc.2⟩
        rcases mem_putCell hd with rfl | hd
        · omega
        · exact hc.1 d hd

theorem risingCells_dropCell {cs : List Host.Cell} (i : Nat) (h : risingCells cs = true) :
    risingCells (dropCell i cs) = true := by
  induction cs with
  | nil => rfl
  | cons c cs ih =>
    have hc := (risingCells_cons_iff c cs).mp h
    unfold dropCell
    split
    · exact ih hc.2
    · exact (risingCells_cons_iff _ _).mpr ⟨fun d hd => hc.1 d (mem_dropCell hd), ih hc.2⟩

theorem cellsWf_putCell {b : Space} {cs : List Host.Cell} {i : Nat} {v : Byte} (h : cellsWf b cs = true)
    (hi : i < b.size) (hv : b.blank ≠ some v) : cellsWf b (putCell i v cs) = true := by
  simp only [cellsWf, Bool.and_eq_true, List.all_eq_true] at h ⊢
  refine ⟨risingCells_putCell i v h.1, fun c hc => ?_⟩
  rcases mem_putCell hc with rfl | hc
  · simp [hi, hv]
  · exact h.2 c hc

theorem cellsWf_dropCell {b : Space} {cs : List Host.Cell} (i : Nat) (h : cellsWf b cs = true) :
    cellsWf b (dropCell i cs) = true := by
  simp only [cellsWf, Bool.and_eq_true, List.all_eq_true] at h ⊢
  exact ⟨risingCells_dropCell i h.1, fun c hc => h.2 c (mem_dropCell hc)⟩

theorem Memory.wf_iff (m : Memory) : m.wf = true ↔ ∀ b, cellsWf b (m.cells b) = true := by
  constructor
  · intro h b
    simp only [Memory.wf, Bool.and_eq_true] at h
    cases b <;> simp [Memory.cells, h]
  · intro h
    simp only [Memory.wf, Bool.and_eq_true]
    exact ⟨⟨⟨⟨h .txh, h .txp⟩, h .rxh⟩, h .rxp⟩, h .cmdbuf⟩

/-- Every write keeps the canonical form; `Memory.write` is the only operation that changes a memory. -/
theorem Memory.wf_write {m : Memory} (h : m.wf = true) (b : Space) (i : Nat) (v : Byte) :
    (m.write b i v).wf = true := by
  rw [Memory.wf_iff] at h ⊢
  intro b'
  by_cases hb : b' = b
  · subst hb
    unfold Memory.write
    split
    · rename_i hi
      rw [cells_withCells_self]
      split
      · exact cellsWf_dropCell i (h b')
      · rename_i hv
        exact cellsWf_putCell (h b') hi hv
    · exact h b'
  · rw [cells_write_other hb]
    exact h b'

/-- A byte string written keeps the canonical form. -/
theorem wf_writeRange {s : State} (h : s.mem.wf = true) (b : Space) (a : Nat) (vs : List Byte) :
    (s.writeRange b a vs).mem.wf = true := by
  induction vs generalizing s a with
  | nil => exact h
  | cons v vs ih => exact ih (Memory.wf_write h b a v) (a + 1)

/-- The memory after reset has the canonical form. -/
theorem wf_reset : State.reset.mem.wf = true := by decide

/-! ### What a write of a byte string leaves -/

/-- A byte string written changes the memory alone. -/
theorem writeRange_frame (s : State) (b : Space) (a : Nat) (vs : List Byte) :
    s.writeRange b a vs = { s with mem := (s.writeRange b a vs).mem } := by
  induction vs generalizing s a with
  | nil => rfl
  | cons v vs ih => exact ih (s.writeByte b a v) (a + 1)

/-- Every byte outside those written reads as before. -/
theorem readByte_writeRange_other {b b' : Space} {a j : Nat} {vs : List Byte}
    (h : b' ≠ b ∨ j < a ∨ a + vs.length ≤ j) (s : State) :
    (s.writeRange b a vs).readByte b' j = s.readByte b' j := by
  induction vs generalizing s a with
  | nil => rfl
  | cons v vs ih =>
    have hl : (v :: vs).length = vs.length + 1 := rfl
    have hne : b' ≠ b ∨ j ≠ a := by
      rcases h with h | h | h
      · exact .inl h
      · exact .inr (by omega)
      · exact .inr (by omega)
    have hrest : b' ≠ b ∨ j < a + 1 ∨ a + 1 + vs.length ≤ j := by
      rcases h with h | h | h
      · exact .inl h
      · exact .inr (.inl (by omega))
      · exact .inr (.inr (by omega))
    exact (ih hrest (s.writeByte b a v)).trans (readByte_writeByte_other hne s v)

/-- Every byte written reads as written. -/
theorem readByte_writeRange_self {b : Space} {a k : Nat} {vs : List Byte} (hk : k < vs.length)
    (hsize : a + vs.length ≤ b.size) (s : State) :
    (s.writeRange b a vs).readByte b (a + k) = vs[k] := by
  induction vs generalizing s a k with
  | nil => simp at hk
  | cons v vs ih =>
    have hl : (v :: vs).length = vs.length + 1 := rfl
    cases k with
    | zero =>
      have h1 := readByte_writeRange_other (b := b) (b' := b) (a := a + 1) (j := a) (vs := vs)
        (.inr (.inl (by omega))) (s.writeByte b a v)
      exact h1.trans (readByte_writeByte_self (by omega) s v)
    | succ k =>
      have h1 := ih (a := a + 1) (k := k) (by omega) (by omega) (s.writeByte b a v)
      have h2 : a + (k + 1) = a + 1 + k := by omega
      rw [h2]
      exact h1

end Sys2Proof.Machine
end

