-- ==== Sys2Proof/Laws/State.lean ====
section
/-! SUPPORT. One lemma for each field and each update of the state, so that no later proof unfolds a record
update. -/

namespace Sys2Proof.Machine

variable (s : State)

/-! `raiseFlag` -/

@[simp] theorem raiseFlag_link (f : Byte) : (s.raiseFlag f).link = s.link := rfl
@[simp] theorem raiseFlag_tx (f : Byte) : (s.raiseFlag f).tx = s.tx := rfl
@[simp] theorem raiseFlag_rx (f : Byte) : (s.raiseFlag f).rx = s.rx := rfl
@[simp] theorem raiseFlag_ctl (f : Byte) :
    (s.raiseFlag f).ctl = { s.ctl with status := s.ctl.status ||| f } := rfl
@[simp] theorem raiseFlag_seq (f : Byte) : (s.raiseFlag f).seq = s.seq := rfl
@[simp] theorem raiseFlag_att (f : Byte) : (s.raiseFlag f).att = s.att := rfl
@[simp] theorem raiseFlag_polls (f : Byte) : (s.raiseFlag f).polls = s.polls := rfl
@[simp] theorem raiseFlag_mem (f : Byte) : (s.raiseFlag f).mem = s.mem := rfl
@[simp] theorem raiseFlag_front (f : Byte) : (s.raiseFlag f).front = s.front := rfl
@[simp] theorem raiseFlag_trace (f : Byte) : (s.raiseFlag f).trace = s.trace := rfl
@[simp] theorem raiseFlag_env (f : Byte) : (s.raiseFlag f).env = s.env := rfl

/-! `putStatus` -/

@[simp] theorem putStatus_link (v : Byte) : (s.putStatus v).link = s.link := rfl
@[simp] theorem putStatus_tx (v : Byte) : (s.putStatus v).tx = s.tx := rfl
@[simp] theorem putStatus_rx (v : Byte) : (s.putStatus v).rx = s.rx := rfl
@[simp] theorem putStatus_ctl (v : Byte) : (s.putStatus v).ctl = { s.ctl with status := v } := rfl
@[simp] theorem putStatus_seq (v : Byte) : (s.putStatus v).seq = s.seq := rfl
@[simp] theorem putStatus_att (v : Byte) : (s.putStatus v).att = s.att := rfl
@[simp] theorem putStatus_polls (v : Byte) : (s.putStatus v).polls = s.polls := rfl
@[simp] theorem putStatus_mem (v : Byte) : (s.putStatus v).mem = s.mem := rfl
@[simp] theorem putStatus_front (v : Byte) : (s.putStatus v).front = s.front := rfl
@[simp] theorem putStatus_trace (v : Byte) : (s.putStatus v).trace = s.trace := rfl
@[simp] theorem putStatus_env (v : Byte) : (s.putStatus v).env = s.env := rfl

/-! `writeByte` -/

@[simp] theorem writeByte_link (b : Space) (i : Nat) (v : Byte) : (s.writeByte b i v).link = s.link := rfl
@[simp] theorem writeByte_tx (b : Space) (i : Nat) (v : Byte) : (s.writeByte b i v).tx = s.tx := rfl
@[simp] theorem writeByte_rx (b : Space) (i : Nat) (v : Byte) : (s.writeByte b i v).rx = s.rx := rfl
@[simp] theorem writeByte_ctl (b : Space) (i : Nat) (v : Byte) : (s.writeByte b i v).ctl = s.ctl := rfl
@[simp] theorem writeByte_seq (b : Space) (i : Nat) (v : Byte) : (s.writeByte b i v).seq = s.seq := rfl
@[simp] theorem writeByte_att (b : Space) (i : Nat) (v : Byte) : (s.writeByte b i v).att = s.att := rfl
@[simp] theorem writeByte_polls (b : Space) (i : Nat) (v : Byte) : (s.writeByte b i v).polls = s.polls := rfl
@[simp] theorem writeByte_mem (b : Space) (i : Nat) (v : Byte) :
    (s.writeByte b i v).mem = s.mem.write b i v := rfl
@[simp] theorem writeByte_front (b : Space) (i : Nat) (v : Byte) : (s.writeByte b i v).front = s.front := rfl
@[simp] theorem writeByte_trace (b : Space) (i : Nat) (v : Byte) : (s.writeByte b i v).trace = s.trace := rfl
@[simp] theorem writeByte_env (b : Space) (i : Nat) (v : Byte) : (s.writeByte b i v).env = s.env := rfl

/-! `setPhase` -/

@[simp] theorem setPhase_link (p : Phase) : (s.setPhase p).link = s.link := rfl
@[simp] theorem setPhase_tx (p : Phase) : (s.setPhase p).tx = s.tx := rfl
@[simp] theorem setPhase_rx (p : Phase) : (s.setPhase p).rx = s.rx := rfl
@[simp] theorem setPhase_ctl (p : Phase) : (s.setPhase p).ctl = s.ctl := rfl
@[simp] theorem setPhase_seq (p : Phase) : (s.setPhase p).seq = { s.seq with phase := p } := rfl
@[simp] theorem setPhase_att (p : Phase) : (s.setPhase p).att = s.att := rfl
@[simp] theorem setPhase_polls (p : Phase) : (s.setPhase p).polls = s.polls := rfl
@[simp] theorem setPhase_mem (p : Phase) : (s.setPhase p).mem = s.mem := rfl
@[simp] theorem setPhase_front (p : Phase) : (s.setPhase p).front = s.front := rfl
@[simp] theorem setPhase_trace (p : Phase) : (s.setPhase p).trace = s.trace := rfl
@[simp] theorem setPhase_env (p : Phase) : (s.setPhase p).env = s.env := rfl

/-! `setIdx` -/

@[simp] theorem setIdx_link (i : Byte) : (s.setIdx i).link = s.link := rfl
@[simp] theorem setIdx_tx (i : Byte) : (s.setIdx i).tx = s.tx := rfl
@[simp] theorem setIdx_rx (i : Byte) : (s.setIdx i).rx = s.rx := rfl
@[simp] theorem setIdx_ctl (i : Byte) : (s.setIdx i).ctl = s.ctl := rfl
@[simp] theorem setIdx_seq (i : Byte) : (s.setIdx i).seq = { s.seq with idx := i } := rfl
@[simp] theorem setIdx_att (i : Byte) : (s.setIdx i).att = s.att := rfl
@[simp] theorem setIdx_polls (i : Byte) : (s.setIdx i).polls = s.polls := rfl
@[simp] theorem setIdx_mem (i : Byte) : (s.setIdx i).mem = s.mem := rfl
@[simp] theorem setIdx_front (i : Byte) : (s.setIdx i).front = s.front := rfl
@[simp] theorem setIdx_trace (i : Byte) : (s.setIdx i).trace = s.trace := rfl
@[simp] theorem setIdx_env (i : Byte) : (s.setIdx i).env = s.env := rfl

/-! `stepIdx` -/

@[simp] theorem stepIdx_link : s.stepIdx.link = s.link := rfl
@[simp] theorem stepIdx_tx : s.stepIdx.tx = s.tx := rfl
@[simp] theorem stepIdx_rx : s.stepIdx.rx = s.rx := rfl
@[simp] theorem stepIdx_ctl : s.stepIdx.ctl = s.ctl := rfl
@[simp] theorem stepIdx_seq : s.stepIdx.seq = { s.seq with idx := s.seq.idx + 1#8 } := rfl
@[simp] theorem stepIdx_att : s.stepIdx.att = s.att := rfl
@[simp] theorem stepIdx_polls : s.stepIdx.polls = s.polls := rfl
@[simp] theorem stepIdx_mem : s.stepIdx.mem = s.mem := rfl
@[simp] theorem stepIdx_front : s.stepIdx.front = s.front := rfl
@[simp] theorem stepIdx_trace : s.stepIdx.trace = s.trace := rfl
@[simp] theorem stepIdx_env : s.stepIdx.env = s.env := rfl

/-! `setEngine` -/

@[simp] theorem setEngine_link (e : ByteEngine) : (s.setEngine e).link = s.link := rfl
@[simp] theorem setEngine_tx (e : ByteEngine) : (s.setEngine e).tx = s.tx := rfl
@[simp] theorem setEngine_rx (e : ByteEngine) : (s.setEngine e).rx = s.rx := rfl
@[simp] theorem setEngine_ctl (e : ByteEngine) : (s.setEngine e).ctl = s.ctl := rfl
@[simp] theorem setEngine_seq (e : ByteEngine) : (s.setEngine e).seq = { s.seq with be := e } := rfl
@[simp] theorem setEngine_att (e : ByteEngine) : (s.setEngine e).att = s.att := rfl
@[simp] theorem setEngine_polls (e : ByteEngine) : (s.setEngine e).polls = s.polls := rfl
@[simp] theorem setEngine_mem (e : ByteEngine) : (s.setEngine e).mem = s.mem := rfl
@[simp] theorem setEngine_front (e : ByteEngine) : (s.setEngine e).front = s.front := rfl
@[simp] theorem setEngine_trace (e : ByteEngine) : (s.setEngine e).trace = s.trace := rfl
@[simp] theorem setEngine_env (e : ByteEngine) : (s.setEngine e).env = s.env := rfl

/-! `setAtt` -/

@[simp] theorem setAtt_link (n : Nat) : (s.setAtt n).link = s.link := rfl
@[simp] theorem setAtt_tx (n : Nat) : (s.setAtt n).tx = s.tx := rfl
@[simp] theorem setAtt_rx (n : Nat) : (s.setAtt n).rx = s.rx := rfl
@[simp] theorem setAtt_ctl (n : Nat) : (s.setAtt n).ctl = s.ctl := rfl
@[simp] theorem setAtt_seq (n : Nat) : (s.setAtt n).seq = s.seq := rfl
@[simp] theorem setAtt_att (n : Nat) : (s.setAtt n).att = n := rfl
@[simp] theorem setAtt_polls (n : Nat) : (s.setAtt n).polls = s.polls := rfl
@[simp] theorem setAtt_mem (n : Nat) : (s.setAtt n).mem = s.mem := rfl
@[simp] theorem setAtt_front (n : Nat) : (s.setAtt n).front = s.front := rfl
@[simp] theorem setAtt_trace (n : Nat) : (s.setAtt n).trace = s.trace := rfl
@[simp] theorem setAtt_env (n : Nat) : (s.setAtt n).env = s.env := rfl

/-! `setPolls` -/

@[simp] theorem setPolls_link (n : Nat) : (s.setPolls n).link = s.link := rfl
@[simp] theorem setPolls_tx (n : Nat) : (s.setPolls n).tx = s.tx := rfl
@[simp] theorem setPolls_rx (n : Nat) : (s.setPolls n).rx = s.rx := rfl
@[simp] theorem setPolls_ctl (n : Nat) : (s.setPolls n).ctl = s.ctl := rfl
@[simp] theorem setPolls_seq (n : Nat) : (s.setPolls n).seq = s.seq := rfl
@[simp] theorem setPolls_att (n : Nat) : (s.setPolls n).att = s.att := rfl
@[simp] theorem setPolls_polls (n : Nat) : (s.setPolls n).polls = n := rfl
@[simp] theorem setPolls_mem (n : Nat) : (s.setPolls n).mem = s.mem := rfl
@[simp] theorem setPolls_front (n : Nat) : (s.setPolls n).front = s.front := rfl
@[simp] theorem setPolls_trace (n : Nat) : (s.setPolls n).trace = s.trace := rfl
@[simp] theorem setPolls_env (n : Nat) : (s.setPolls n).env = s.env := rfl

/-! `countStored` -/

@[simp] theorem countStored_link : s.countStored.link = s.link := rfl
@[simp] theorem countStored_tx : s.countStored.tx = s.tx := rfl
@[simp] theorem countStored_rx : s.countStored.rx = { s.rx with cnt := s.seq.idx } := rfl
@[simp] theorem countStored_ctl : s.countStored.ctl = s.ctl := rfl
@[simp] theorem countStored_seq : s.countStored.seq = s.seq := rfl
@[simp] theorem countStored_att : s.countStored.att = s.att := rfl
@[simp] theorem countStored_polls : s.countStored.polls = s.polls := rfl
@[simp] theorem countStored_mem : s.countStored.mem = s.mem := rfl
@[simp] theorem countStored_front : s.countStored.front = s.front := rfl
@[simp] theorem countStored_trace : s.countStored.trace = s.trace := rfl
@[simp] theorem countStored_env : s.countStored.env = s.env := rfl

/-! `emit` -/

@[simp] theorem emit_link (e : LinkEvent) : (s.emit e).link = s.link := rfl
@[simp] theorem emit_tx (e : LinkEvent) : (s.emit e).tx = s.tx := rfl
@[simp] theorem emit_rx (e : LinkEvent) : (s.emit e).rx = s.rx := rfl
@[simp] theorem emit_ctl (e : LinkEvent) : (s.emit e).ctl = s.ctl := rfl
@[simp] theorem emit_seq (e : LinkEvent) : (s.emit e).seq = s.seq := rfl
@[simp] theorem emit_att (e : LinkEvent) : (s.emit e).att = s.att := rfl
@[simp] theorem emit_polls (e : LinkEvent) : (s.emit e).polls = s.polls := rfl
@[simp] theorem emit_mem (e : LinkEvent) : (s.emit e).mem = s.mem := rfl
@[simp] theorem emit_front (e : LinkEvent) : (s.emit e).front = s.front := rfl
@[simp] theorem emit_trace (e : LinkEvent) : (s.emit e).trace = s.trace ++ [e] := rfl
@[simp] theorem emit_env (e : LinkEvent) : (s.emit e).env = s.env := rfl

/-! `frameAssert` -/

@[simp] theorem frameAssert_link : s.frameAssert.link = { s.link with frame := true } := rfl
@[simp] theorem frameAssert_tx : s.frameAssert.tx = s.tx := rfl
@[simp] theorem frameAssert_rx : s.frameAssert.rx = s.rx := rfl
@[simp] theorem frameAssert_ctl : s.frameAssert.ctl = s.ctl := rfl
@[simp] theorem frameAssert_seq : s.frameAssert.seq = s.seq := rfl
@[simp] theorem frameAssert_att : s.frameAssert.att = s.att := rfl
@[simp] theorem frameAssert_polls : s.frameAssert.polls = s.polls := rfl
@[simp] theorem frameAssert_mem : s.frameAssert.mem = s.mem := rfl
@[simp] theorem frameAssert_front : s.frameAssert.front = s.front := rfl
@[simp] theorem frameAssert_trace : s.frameAssert.trace = s.trace ++ [.assert] := rfl
@[simp] theorem frameAssert_env : s.frameAssert.env = s.env := rfl

/-! `frameDeassert` -/

@[simp] theorem frameDeassert_link : s.frameDeassert.link = { s.link with frame := false } := rfl
@[simp] theorem frameDeassert_tx : s.frameDeassert.tx = s.tx := rfl
@[simp] theorem frameDeassert_rx : s.frameDeassert.rx = s.rx := rfl
@[simp] theorem frameDeassert_ctl : s.frameDeassert.ctl = s.ctl := rfl
@[simp] theorem frameDeassert_seq : s.frameDeassert.seq = s.seq := rfl
@[simp] theorem frameDeassert_att : s.frameDeassert.att = s.att := rfl
@[simp] theorem frameDeassert_polls : s.frameDeassert.polls = s.polls := rfl
@[simp] theorem frameDeassert_mem : s.frameDeassert.mem = s.mem := rfl
@[simp] theorem frameDeassert_front : s.frameDeassert.front = s.front := rfl
@[simp] theorem frameDeassert_trace : s.frameDeassert.trace = s.trace ++ [.deassert] := rfl
@[simp] theorem frameDeassert_env : s.frameDeassert.env = s.env := rfl

/-! `exchanged` -/

@[simp] theorem exchanged_link (t r : Byte) (rest : List Byte) :
    (s.exchanged t r rest).link = { s.link with txb := t, rxb := r } := rfl
@[simp] theorem exchanged_tx (t r : Byte) (rest : List Byte) : (s.exchanged t r rest).tx = s.tx := rfl
@[simp] theorem exchanged_rx (t r : Byte) (rest : List Byte) : (s.exchanged t r rest).rx = s.rx := rfl
@[simp] theorem exchanged_ctl (t r : Byte) (rest : List Byte) : (s.exchanged t r rest).ctl = s.ctl := rfl
@[simp] theorem exchanged_seq (t r : Byte) (rest : List Byte) : (s.exchanged t r rest).seq = s.seq := rfl
@[simp] theorem exchanged_att (t r : Byte) (rest : List Byte) : (s.exchanged t r rest).att = s.att := rfl
@[simp] theorem exchanged_polls (t r : Byte) (rest : List Byte) :
    (s.exchanged t r rest).polls = s.polls := rfl
@[simp] theorem exchanged_mem (t r : Byte) (rest : List Byte) : (s.exchanged t r rest).mem = s.mem := rfl
@[simp] theorem exchanged_front (t r : Byte) (rest : List Byte) :
    (s.exchanged t r rest).front = s.front := rfl
@[simp] theorem exchanged_trace (t r : Byte) (rest : List Byte) :
    (s.exchanged t r rest).trace = s.trace ++ [.xchg t r] := rfl
@[simp] theorem exchanged_env (t r : Byte) (rest : List Byte) :
    (s.exchanged t r rest).env = { s.env with peer := rest } := rfl

/-! `delayPace` -/

@[simp] theorem delayPace_link : s.delayPace.link = s.link := rfl
@[simp] theorem delayPace_tx : s.delayPace.tx = s.tx := rfl
@[simp] theorem delayPace_rx : s.delayPace.rx = s.rx := rfl
@[simp] theorem delayPace_ctl : s.delayPace.ctl = s.ctl := rfl
@[simp] theorem delayPace_seq : s.delayPace.seq = s.seq := rfl
@[simp] theorem delayPace_att : s.delayPace.att = s.att := rfl
@[simp] theorem delayPace_polls : s.delayPace.polls = s.polls := rfl
@[simp] theorem delayPace_mem : s.delayPace.mem = s.mem := rfl
@[simp] theorem delayPace_front : s.delayPace.front = s.front := rfl
@[simp] theorem delayPace_trace : s.delayPace.trace = s.trace ++ [.delayPace] := rfl
@[simp] theorem delayPace_env : s.delayPace.env = s.env := rfl

/-! `delayPoll` -/

@[simp] theorem delayPoll_link : s.delayPoll.link = s.link := rfl
@[simp] theorem delayPoll_tx : s.delayPoll.tx = s.tx := rfl
@[simp] theorem delayPoll_rx : s.delayPoll.rx = s.rx := rfl
@[simp] theorem delayPoll_ctl : s.delayPoll.ctl = s.ctl := rfl
@[simp] theorem delayPoll_seq : s.delayPoll.seq = s.seq := rfl
@[simp] theorem delayPoll_att : s.delayPoll.att = s.att := rfl
@[simp] theorem delayPoll_polls : s.delayPoll.polls = s.polls := rfl
@[simp] theorem delayPoll_mem : s.delayPoll.mem = s.mem := rfl
@[simp] theorem delayPoll_front : s.delayPoll.front = s.front := rfl
@[simp] theorem delayPoll_trace : s.delayPoll.trace = s.trace ++ [.delayPoll] := rfl
@[simp] theorem delayPoll_env : s.delayPoll.env = s.env := rfl

/-! `accept` -/

@[simp] theorem accept_link (w : Half) (p : Phase) : (s.accept w p).link = s.link := rfl
@[simp] theorem accept_tx (w : Half) (p : Phase) : (s.accept w p).tx = s.tx := rfl
@[simp] theorem accept_rx (w : Half) (p : Phase) : (s.accept w p).rx = s.rx := rfl
@[simp] theorem accept_ctl (w : Half) (p : Phase) :
    (s.accept w p).ctl = { s.ctl with cmd := w, status := acceptedStatus } := rfl
@[simp] theorem accept_seq (w : Half) (p : Phase) :
    (s.accept w p).seq = { phase := p, idx := 0#8, be := .idle } := rfl
@[simp] theorem accept_att (w : Half) (p : Phase) : (s.accept w p).att = s.att := rfl
@[simp] theorem accept_polls (w : Half) (p : Phase) : (s.accept w p).polls = s.polls := rfl
@[simp] theorem accept_mem (w : Half) (p : Phase) : (s.accept w p).mem = s.mem := rfl
@[simp] theorem accept_front (w : Half) (p : Phase) : (s.accept w p).front = s.front := rfl
@[simp] theorem accept_trace (w : Half) (p : Phase) : (s.accept w p).trace = s.trace := rfl
@[simp] theorem accept_env (w : Half) (p : Phase) : (s.accept w p).env = s.env := rfl

/-! `toIdle` -/

@[simp] theorem toIdle_link : s.toIdle.link = s.link := rfl
@[simp] theorem toIdle_tx : s.toIdle.tx = s.tx := rfl
@[simp] theorem toIdle_rx : s.toIdle.rx = s.rx := rfl
@[simp] theorem toIdle_ctl : s.toIdle.ctl = s.ctl := rfl
@[simp] theorem toIdle_seq : s.toIdle.seq = { phase := .idle, idx := 0#8, be := .idle } := rfl
@[simp] theorem toIdle_att : s.toIdle.att = s.att := rfl
@[simp] theorem toIdle_polls : s.toIdle.polls = s.polls := rfl
@[simp] theorem toIdle_mem : s.toIdle.mem = s.mem := rfl
@[simp] theorem toIdle_front : s.toIdle.front = s.front := rfl
@[simp] theorem toIdle_trace : s.toIdle.trace = s.trace := rfl
@[simp] theorem toIdle_env : s.toIdle.env = s.env := rfl

/-! `completed` -/

@[simp] theorem completed_link : s.completed.link = s.link := rfl
@[simp] theorem completed_tx : s.completed.tx = s.tx := rfl
@[simp] theorem completed_rx : s.completed.rx = s.rx := rfl
@[simp] theorem completed_ctl : s.completed.ctl = { s.ctl with status := endedStatus s.ctl.status } := rfl
@[simp] theorem completed_seq : s.completed.seq = { phase := .idle, idx := 0#8, be := .idle } := rfl
@[simp] theorem completed_att : s.completed.att = s.att := rfl
@[simp] theorem completed_polls : s.completed.polls = s.polls := rfl
@[simp] theorem completed_mem : s.completed.mem = s.mem := rfl
@[simp] theorem completed_front : s.completed.front = s.front := rfl
@[simp] theorem completed_trace : s.completed.trace = s.trace := rfl
@[simp] theorem completed_env : s.completed.env = s.env := rfl

/-! `timedOut` -/

@[simp] theorem timedOut_link : s.timedOut.link = s.link := rfl
@[simp] theorem timedOut_tx : s.timedOut.tx = s.tx := rfl
@[simp] theorem timedOut_rx : s.timedOut.rx = s.rx := rfl
@[simp] theorem timedOut_ctl :
    s.timedOut.ctl = { s.ctl with status := endedStatus (s.ctl.status ||| bitTimeout) } := rfl
@[simp] theorem timedOut_seq : s.timedOut.seq = { phase := .idle, idx := 0#8, be := .idle } := rfl
@[simp] theorem timedOut_att : s.timedOut.att = s.att := rfl
@[simp] theorem timedOut_polls : s.timedOut.polls = s.polls := rfl
@[simp] theorem timedOut_mem : s.timedOut.mem = s.mem := rfl
@[simp] theorem timedOut_front : s.timedOut.front = s.front := rfl
@[simp] theorem timedOut_trace : s.timedOut.trace = s.trace := rfl
@[simp] theorem timedOut_env : s.timedOut.env = s.env := rfl

/-! `illegalOp` -/

@[simp] theorem illegalOp_link : s.illegalOp.link = s.link := rfl
@[simp] theorem illegalOp_tx : s.illegalOp.tx = s.tx := rfl
@[simp] theorem illegalOp_rx : s.illegalOp.rx = s.rx := rfl
@[simp] theorem illegalOp_ctl : s.illegalOp.ctl = { s.ctl with status := illegalStatus } := rfl
@[simp] theorem illegalOp_seq : s.illegalOp.seq = s.seq := rfl
@[simp] theorem illegalOp_att : s.illegalOp.att = s.att := rfl
@[simp] theorem illegalOp_polls : s.illegalOp.polls = s.polls := rfl
@[simp] theorem illegalOp_mem : s.illegalOp.mem = s.mem := rfl
@[simp] theorem illegalOp_front : s.illegalOp.front = s.front := rfl
@[simp] theorem illegalOp_trace : s.illegalOp.trace = s.trace := rfl
@[simp] theorem illegalOp_env : s.illegalOp.env = s.env := rfl

/-! `sysResetRequested` -/

@[simp] theorem sysResetRequested_link : s.sysResetRequested.link = s.link := rfl
@[simp] theorem sysResetRequested_tx : s.sysResetRequested.tx = s.tx := rfl
@[simp] theorem sysResetRequested_rx : s.sysResetRequested.rx = s.rx := rfl
@[simp] theorem sysResetRequested_ctl : s.sysResetRequested.ctl = { s.ctl with sysrstReq := true } := rfl
@[simp] theorem sysResetRequested_seq :
    s.sysResetRequested.seq = { phase := .resetReq, idx := 0#8, be := .idle } := rfl
@[simp] theorem sysResetRequested_att : s.sysResetRequested.att = s.att := rfl
@[simp] theorem sysResetRequested_polls : s.sysResetRequested.polls = s.polls := rfl
@[simp] theorem sysResetRequested_mem : s.sysResetRequested.mem = s.mem := rfl
@[simp] theorem sysResetRequested_front : s.sysResetRequested.front = s.front := rfl
@[simp] theorem sysResetRequested_trace : s.sysResetRequested.trace = s.trace ++ [.sysReset] := rfl
@[simp] theorem sysResetRequested_env : s.sysResetRequested.env = s.env := rfl

/-! `addRender` -/

@[simp] theorem addRender_link (r : Render) : (s.addRender r).link = s.link := rfl
@[simp] theorem addRender_tx (r : Render) : (s.addRender r).tx = s.tx := rfl
@[simp] theorem addRender_rx (r : Render) : (s.addRender r).rx = s.rx := rfl
@[simp] theorem addRender_ctl (r : Render) : (s.addRender r).ctl = s.ctl := rfl
@[simp] theorem addRender_seq (r : Render) : (s.addRender r).seq = s.seq := rfl
@[simp] theorem addRender_att (r : Render) : (s.addRender r).att = s.att := rfl
@[simp] theorem addRender_polls (r : Render) : (s.addRender r).polls = s.polls := rfl
@[simp] theorem addRender_mem (r : Render) : (s.addRender r).mem = s.mem := rfl
@[simp] theorem addRender_front (r : Render) :
    (s.addRender r).front = { s.front with rendered := s.front.rendered ++ [r] } := rfl
@[simp] theorem addRender_trace (r : Render) : (s.addRender r).trace = s.trace := rfl
@[simp] theorem addRender_env (r : Render) : (s.addRender r).env = s.env := rfl

end Sys2Proof.Machine
end

