-- ==== Sys2Proof/Laws/Link.lean ====
section
/-! SUPPORT. What `byte_xfer`, `send_bytes`, `recv_bytes` and the sync poll can do on the answers fixed ahead,
said once for each (41_transceiver.md R131, R133, R139; 44_orchestrator.md R204). -/

namespace Sys2Proof.Machine

/-! ### Reading depends on the memory alone -/

/-- Two states with one memory and one epoch read alike. -/
theorem readByte_congr {s t : State} (hm : s.mem = t.mem) (he : s.env.epoch = t.env.epoch) (b : Space)
    (i : Nat) : s.readByte b i = t.readByte b i := by
  simp only [State.readByte, State.unlisted, hm, he]

/-- Two states with one memory and one epoch read the same byte string. -/
theorem readRange_congr {s t : State} (hm : s.mem = t.mem) (he : s.env.epoch = t.env.epoch) (b : Space)
    (a n : Nat) : s.readRange b a n = t.readRange b a n := by
  induction n generalizing a with
  | zero => rfl
  | succ n ih => simp only [State.readRange, readByte_congr hm he, ih]

@[simp] theorem readRange_length (s : State) (b : Space) (a n : Nat) :
    (s.readRange b a n).length = n := by
  induction n generalizing a with
  | zero => rfl
  | succ n ih => simp [State.readRange, ih]

theorem readRange_getElem (s : State) (b : Space) (a n k : Nat) (h : k < (s.readRange b a n).length) :
    (s.readRange b a n)[k] = s.readByte b (a + k) := by
  induction n generalizing a k with
  | zero => simp at h
  | succ n ih =>
    cases k with
    | zero => rfl
    | succ k =>
      have h' : k < (s.readRange b (a + 1) n).length := by simpa using h
      have e : a + (k + 1) = a + 1 + k := by omega
      rw [e]
      exact ih (a + 1) k h'

/-! ### One byte -/

/-- The state after one byte: `a.1` answers `BUSY`, then `a.2`, with `rest` the answers left. -/
def State.byteDone (s : State) (t : Byte) (a : Nat × Byte) (rest : List Byte) : State :=
  { s with
    link := { frame := false, txb := t, rxb := a.2 }
    att := a.1 + 1
    trace := s.trace ++ byteTrace t a.1 a.2
    env := { s.env with peer := rest } }

/-- The state after a byte whose `n` attempts were all answered `BUSY`. -/
def State.byteTimedOut (s : State) (t : Byte) (n : Nat) (rest : List Byte) : State :=
  { s with
    link := { frame := false, txb := t, rxb := Config.busy }
    att := n
    trace := s.trace ++ timeoutTrace t n
    env := { s.env with peer := rest } }

/-- One attempt, in one record. -/
theorem attempt_eq (s : State) (t r : Byte) (rest : List Byte) :
    s.attempt t r rest =
      { s with
        link := { frame := false, txb := t, rxb := r }
        att := s.att + 1
        trace := s.trace ++ [.assert, .xchg t r, .deassert]
        env := { s.env with peer := rest } } := by
  simp [State.attempt, State.frameAssert, State.exchanged, State.frameDeassert, State.emit,
    State.setAtt]

/-- A loop that finds `k` answers `BUSY` and then another, within the limit, delivers its byte. -/
theorem xferLoop_done (t : Byte) (k : Nat) {r : Byte} (hr : r ≠ Config.busy) (rest : List Byte)
    (s : State) (hlim : ∀ n, s.env.params.retryLimit = some n → s.att + k < n ∨ k = 0) :
    xferLoop t (List.replicate k Config.busy ++ r :: rest) s =
      .done r
        { s with
          link := { frame := false, txb := t, rxb := r }
          att := s.att + (k + 1)
          trace := s.trace ++ byteTrace t k r
          env := { s.env with peer := rest } } := by
  induction k generalizing s with
  | zero => simp [xferLoop, attempt_eq, hr, byteTrace]
  | succ k ih =>
    have hl : limitReached (s.att + 1) s.env.params.retryLimit = false := by
      cases h : s.env.params.retryLimit with
      | none => rfl
      | some n =>
        have := hlim n h
        simp [limitReached]
        omega
    rw [List.replicate_succ, List.cons_append, xferLoop]
    simp only [attempt_eq, ne_eq, not_true_eq_false, if_false, hl]
    rw [if_neg (by simp)]
    rw [ih]
    · simp [State.delayPace, State.emit, byteTrace]
      omega
    · intro n hn
      have := hlim n hn
      simp
      omega

/-- A loop that finds only `BUSY` up to the limit times out. -/
theorem xferLoop_timeout (t : Byte) (k : Nat) (rest : List Byte) (s : State) {n : Nat}
    (hlim : s.env.params.retryLimit = some n) (hn : s.att + (k + 1) = n) :
    xferLoop t (List.replicate (k + 1) Config.busy ++ rest) s =
      .timeout
        { s with
          link := { frame := false, txb := t, rxb := Config.busy }
          att := n
          trace := s.trace ++ timeoutTrace t (k + 1)
          env := { s.env with peer := rest } } := by
  induction k generalizing s with
  | zero =>
    subst hn
    simp [xferLoop, attempt_eq, hlim, limitReached, timeoutTrace]
  | succ k ih =>
    rw [List.replicate_succ, List.cons_append, xferLoop]
    simp only [attempt_eq, ne_eq, not_true_eq_false, if_false, hlim]
    rw [if_neg (by simp [limitReached]; omega)]
    rw [ih]
    · simp [State.delayPace, State.emit, timeoutTrace]
    · exact hlim
    · simp
      omega

/-- What the loop of `byte_xfer` can do: deliver its byte, time out, or run out of answers, every one of
them `BUSY`. -/
theorem xferLoop_cases (t : Byte) (as : List Byte) (s : State) :
    (∃ k r rest, as = List.replicate k Config.busy ++ r :: rest ∧ r ≠ Config.busy ∧
      (∀ n, s.env.params.retryLimit = some n → s.att + k < n ∨ k = 0)) ∨
    (∃ k rest n, as = List.replicate (k + 1) Config.busy ++ rest ∧
      s.env.params.retryLimit = some n ∧ n ≤ s.att + (k + 1) ∧ (s.att + (k + 1) = n ∨ k = 0)) ∨
    ((∀ r ∈ as, r = Config.busy) ∧ xferLoop t as s = .waiting) := by
  induction as generalizing s with
  | nil => exact .inr (.inr ⟨by simp, rfl⟩)
  | cons a as ih =>
    by_cases ha : a = Config.busy
    · subst ha
      by_cases hl : limitReached (s.att + 1) s.env.params.retryLimit = true
      · refine .inr (.inl ?_)
        cases h : s.env.params.retryLimit with
        | none => simp [h, limitReached] at hl
        | some n =>
          refine ⟨0, as, n, rfl, rfl, ?_, .inr rfl⟩
          simpa [h, limitReached] using hl
      · have hstep : xferLoop t (Config.busy :: as) s =
            xferLoop t as (s.attempt t Config.busy as).delayPace := by
          rw [xferLoop]
          simp only [ne_eq, not_true_eq_false, if_false]
          rw [if_neg (by simpa [attempt_eq] using hl)]
        have hatt : ((s.attempt t Config.busy as).delayPace).att = s.att + 1 := by simp [attempt_eq]
        have henv : ((s.attempt t Config.busy as).delayPace).env.params = s.env.params := by
          simp [attempt_eq]
        have hlt : ∀ n, s.env.params.retryLimit = some n → s.att + 1 < n := by
          intro n hn
          simpa [hn, limitReached] using hl
        rcases ih (s.attempt t Config.busy as).delayPace with
          ⟨k, r, rest, h1, h2, h3⟩ | ⟨k, rest, n, h1, h2, h3, h4⟩ | ⟨h1, h2⟩
        · refine .inl ⟨k + 1, r, rest, by rw [h1]; rfl, h2, fun n hn => .inl ?_⟩
          have := h3 n (henv ▸ hn)
          have := hlt n hn
          rw [hatt] at *
          omega
        · rw [henv] at h2
          rw [hatt] at h3 h4
          have := hlt n h2
          exact .inr (.inl ⟨k + 1, rest, n, by rw [h1]; rfl, h2, by omega, .inl (by omega)⟩)
        · refine .inr (.inr ⟨?_, hstep.trans h2⟩)
          intro r hr
          rcases List.mem_cons.mp hr with rfl | hr
          · rfl
          · exact h1 r hr
    · exact .inl ⟨0, a, as, rfl, ha, fun n _ => .inr rfl⟩


/-- `byte_xfer` delivers its byte (R131): `a.1` answers `BUSY`, then `a.2`. -/
theorem byteXfer_done (t : Byte) {a : Nat × Byte} (ha : a.2 ≠ Config.busy) (rest : List Byte)
    {s : State} (hp : s.env.peer = byteAnswers a ++ rest)
    (hlim : ∀ n, s.env.params.retryLimit = some n → a.1 < n ∨ a.1 = 0) :
    byteXfer t s = .done a.2 (s.byteDone t a rest) := by
  have h := xferLoop_done t a.1 ha rest (s.setAtt 0) (by simpa using hlim)
  rw [byteXfer, hp, byteAnswers, List.append_assoc, List.singleton_append, h]
  simp [State.byteDone, State.setAtt]

/-- `byte_xfer` times out (R138). -/
theorem byteXfer_timeout (t : Byte) {n : Nat} (hn : 1 ≤ n) (rest : List Byte) {s : State}
    (hlim : s.env.params.retryLimit = some n)
    (hp : s.env.peer = List.replicate n Config.busy ++ rest) :
    byteXfer t s = .timeout (s.byteTimedOut t n rest) := by
  obtain ⟨k, rfl⟩ : ∃ k, n = k + 1 := ⟨n - 1, by omega⟩
  rw [byteXfer, hp, xferLoop_timeout t k rest (s.setAtt 0) (n := k + 1) (by simpa using hlim) (by simp)]
  simp [State.byteTimedOut, State.setAtt]

/-- What `byte_xfer` can do on the answers fixed ahead: deliver its byte, time out, or find no answer but
`BUSY`. -/
theorem byteXfer_cases (t : Byte) (s : State) :
    (∃ a rest, a.2 ≠ Config.busy ∧ s.env.peer = byteAnswers a ++ rest ∧
      (∀ n, s.env.params.retryLimit = some n → a.1 < n ∨ a.1 = 0) ∧
      byteXfer t s = .done a.2 (s.byteDone t a rest)) ∨
    (∃ n rest, 1 ≤ n ∧ s.env.peer = List.replicate n Config.busy ++ rest ∧
      (∃ m, s.env.params.retryLimit = some m ∧ m ≤ n) ∧
      byteXfer t s = .timeout (s.byteTimedOut t n rest)) ∨
    ((∀ r ∈ s.env.peer, r = Config.busy) ∧ byteXfer t s = .waiting) := by
  rcases xferLoop_cases t s.env.peer (s.setAtt 0) with
    ⟨k, r, rest, h1, h2, h3⟩ | ⟨k, rest, n, h1, h2, h3, h4⟩ | h
  · have hp : s.env.peer = byteAnswers (k, r) ++ rest := by simpa [byteAnswers] using h1
    have hl : ∀ n, s.env.params.retryLimit = some n → (k, r).1 < n ∨ (k, r).1 = 0 := by
      simpa using h3
    exact .inl ⟨(k, r), rest, h2, hp, hl, byteXfer_done t h2 rest hp hl⟩
  · refine .inr (.inl ⟨k + 1, rest, by omega, h1, ⟨n, by simpa using h2, by simpa using h3⟩, ?_⟩)
    have h2' : s.env.params.retryLimit = some n := by simpa using h2
    rcases h4 with h4 | h4
    · have hn : k + 1 = n := by simpa using h4
      subst hn
      exact byteXfer_timeout t (by omega) rest h2' h1
    · subst h4
      have hle : n ≤ 1 := by simpa using h3
      simp [byteXfer, h1, xferLoop, attempt_eq, h2', limitReached, hle, State.byteTimedOut,
        timeoutTrace, State.setAtt]
  · exact .inr (.inr h)

/-! ### Several bytes -/

/-- The answers keep a byte within the retry limit: fewer `BUSY` than the limit, or none. -/
def AnsweredWithin (limit : Option Nat) (as : List (Nat × Byte)) : Prop :=
  ∀ a ∈ as, a.2 ≠ Config.busy ∧ ∀ n, limit = some n → a.1 < n ∨ a.1 = 0

theorem Answered.within {limit : Option Nat} {as : List (Nat × Byte)} (h : Answered limit as) :
    AnsweredWithin limit as :=
  fun a ha => ⟨(h a ha).1, fun n hn => .inl ((h a ha).2 n hn)⟩

theorem answeredWithin_cons {limit : Option Nat} {a : Nat × Byte} {as : List (Nat × Byte)} :
    AnsweredWithin limit (a :: as) ↔
      (a.2 ≠ Config.busy ∧ ∀ n, limit = some n → a.1 < n ∨ a.1 = 0) ∧ AnsweredWithin limit as := by
  simp [AnsweredWithin]

theorem answeredWithin_nil (limit : Option Nat) : AnsweredWithin limit [] := by simp [AnsweredWithin]

@[simp] theorem allAnswers_nil : allAnswers [] = [] := rfl

@[simp] theorem allAnswers_cons (a : Nat × Byte) (as : List (Nat × Byte)) :
    allAnswers (a :: as) = byteAnswers a ++ allAnswers as := rfl

@[simp] theorem allAnswers_append (as bs : List (Nat × Byte)) :
    allAnswers (as ++ bs) = allAnswers as ++ allAnswers bs := by
  simp [allAnswers]

/-- The events of the bytes `p.1`, each with its answers `p.2`. -/
def pairsTrace (ps : List (Byte × Nat × Byte)) : List LinkEvent :=
  (ps.map fun p => byteTrace p.1 p.2.1 p.2.2).flatten

/-- The link registers after the bytes `p.1`, each with its answers `p.2`. -/
def linkAfter (l : Link) : List (Byte × Nat × Byte) → Link
  | [] => l
  | p :: ps => linkAfter { frame := false, txb := p.1, rxb := p.2.2 } ps

/-- `ATT` after the bytes `p.1`, each with its answers `p.2`. -/
def attAfter (n : Nat) : List (Byte × Nat × Byte) → Nat
  | [] => n
  | p :: ps => attAfter (p.2.1 + 1) ps

/-- The state after transferring the bytes `p.1`, each with its answers `p.2`, `rest` the answers left. -/
def State.transferred (s : State) (ps : List (Byte × Nat × Byte)) (rest : List Byte) : State :=
  { s with
    link := linkAfter s.link ps
    att := attAfter s.att ps
    trace := s.trace ++ pairsTrace ps
    env := { s.env with peer := rest } }

theorem transferred_nil {s : State} {rest : List Byte} (h : s.env.peer = rest) :
    s.transferred [] rest = s := by
  subst h
  simp [State.transferred, linkAfter, attAfter, pairsTrace]

theorem transferred_cons (s : State) (t : Byte) (a : Nat × Byte) (more : List Byte)
    (ps : List (Byte × Nat × Byte)) (rest : List Byte) :
    (s.byteDone t a more).transferred ps rest = s.transferred ((t, a) :: ps) rest := by
  simp [State.transferred, State.byteDone, linkAfter, attAfter, pairsTrace]

theorem linkAfter_getLast {l : Link} {ps : List (Byte × Nat × Byte)} {p : Byte × Nat × Byte}
    (h : ps.getLast? = some p) :
    linkAfter l ps = { frame := false, txb := p.1, rxb := p.2.2 } := by
  induction ps generalizing l with
  | nil => simp at h
  | cons q ps ih =>
    cases ps with
    | nil =>
      simp at h
      simp [linkAfter, h]
    | cons q' ps =>
      rw [linkAfter]
      exact ih (by simpa using h)

/-- The bytes of a space from an 8-bit index on. -/
def State.readFrom (s : State) (b : Space) (i : Byte) : Nat → List Byte
  | 0 => []
  | k + 1 => s.readByte b i.toNat :: s.readFrom b (i + 1#8) k

theorem readFrom_congr {s t : State} (hm : s.mem = t.mem) (he : s.env.epoch = t.env.epoch) (b : Space)
    (i : Byte) (k : Nat) : s.readFrom b i k = t.readFrom b i k := by
  induction k generalizing i with
  | zero => rfl
  | succ k ih => simp only [State.readFrom, readByte_congr hm he, ih]

@[simp] theorem readFrom_length (s : State) (b : Space) (i : Byte) (k : Nat) :
    (s.readFrom b i k).length = k := by
  induction k generalizing i with
  | zero => rfl
  | succ k ih => simp [State.readFrom, ih]

/-- As long as the index does not wrap, the bytes are a range. -/
theorem readFrom_eq_readRange (s : State) (b : Space) (i : Byte) (k : Nat) (h : i.toNat + k ≤ 256) :
    s.readFrom b i k = s.readRange b i.toNat k := by
  induction k generalizing i with
  | zero => rfl
  | succ k ih =>
    rw [State.readFrom, State.readRange]
    cases k with
    | zero => rfl
    | succ k =>
      have hi : (i + 1#8).toNat = i.toNat + 1 := by
        rw [BitVec.toNat_add]
        simp
        omega
      rw [ih (i + 1#8) (by omega), hi]

theorem ofNat_succ_add (i : Byte) (k : Nat) :
    i + 1#8 + BitVec.ofNat 8 k = i + BitVec.ofNat 8 (k + 1) := by
  apply BitVec.eq_of_toNat_eq
  simp [BitVec.toNat_add, BitVec.toNat_ofNat]
  omega

/-- `send_bytes` on bytes that are all answered (R133). -/
theorem sendLoop_done (b : Space) {as : List (Nat × Byte)} (rest : List Byte) {s : State}
    (hans : AnsweredWithin s.env.params.retryLimit as) (hp : s.env.peer = allAnswers as ++ rest) :
    sendLoop b as.length s =
      .done () ((s.transferred ((s.readFrom b s.seq.idx as.length).zip as) rest).setIdx
        (s.seq.idx + BitVec.ofNat 8 as.length)) := by
  induction as generalizing s with
  | nil =>
    have hp' : s.env.peer = rest := by simpa using hp
    simp [sendLoop, State.readFrom, transferred_nil hp', State.setIdx]
  | cons a as ih =>
    have ha := (answeredWithin_cons.mp hans).1
    have hstep := byteXfer_done (s.readByte b s.seq.idx.toNat) ha.1 (allAnswers as ++ rest)
      (s := s) (by simpa using hp) ha.2
    rw [List.length_cons, sendLoop, hstep, Run.andThen, ih]
    · have hc := readFrom_congr (s := (s.byteDone (s.readByte b s.seq.idx.toNat) a
        (allAnswers as ++ rest)).stepIdx) (t := s) rfl rfl b (s.seq.idx + 1#8) as.length
      have hi : ((s.byteDone (s.readByte b s.seq.idx.toNat) a (allAnswers as ++ rest)).stepIdx).seq.idx
          = s.seq.idx + 1#8 := rfl
      rw [hi, hc, ofNat_succ_add, State.readFrom, List.zip_cons_cons, ← transferred_cons (more := allAnswers as ++ rest)]
      rfl
    · exact (answeredWithin_cons.mp hans).2
    · rfl

end Sys2Proof.Machine
end

