-- ==== Sys2Proof/Laws/Loops.lean ====
section
/-! SUPPORT. What the multi-byte send, the multi-byte receive and the sync poll can do, said once for each
(41_transceiver.md R133, R139; 44_orchestrator.md R204). -/

namespace Sys2Proof.Machine

/-- The peer's answers that are not `BUSY`. -/
def heard (answers : List Byte) : List Byte := answers.filter fun r => r != Config.busy

theorem heard_busy {as : List Byte} (h : ∀ r ∈ as, r = Config.busy) : heard as = [] := by
  simp only [heard, List.filter_eq_nil_iff]
  intro r hr
  simp [h r hr]

theorem heard_append (as bs : List Byte) : heard (as ++ bs) = heard as ++ heard bs := by
  simp [heard]

theorem heard_replicate (n : Nat) : heard (List.replicate n Config.busy) = [] :=
  heard_busy fun _ hr => (List.mem_replicate.mp hr).2

theorem heard_byteAnswers {a : Nat × Byte} (h : a.2 ≠ Config.busy) : heard (byteAnswers a) = [a.2] := by
  rw [byteAnswers, heard_append, heard_replicate]
  simp [heard, h]

theorem heard_allAnswers {limit : Option Nat} {as : List (Nat × Byte)} (h : AnsweredWithin limit as) :
    heard (allAnswers as) = as.map Prod.snd := by
  induction as with
  | nil => rfl
  | cons a as ih =>
    have ha := answeredWithin_cons.mp h
    rw [allAnswers_cons, heard_append, heard_byteAnswers ha.1.1, ih ha.2]
    rfl

/-- What `send_bytes` can do on the answers fixed ahead. -/
theorem sendLoop_cases (b : Space) (k : Nat) (s : State) :
    (∃ as rest, as.length = k ∧ AnsweredWithin s.env.params.retryLimit as ∧
      s.env.peer = allAnswers as ++ rest ∧
      sendLoop b k s = .done () ((s.transferred ((s.readFrom b s.seq.idx k).zip as) rest).setIdx
        (s.seq.idx + BitVec.ofNat 8 k))) ∨
    (∃ as n rest t, as.length < k ∧ AnsweredWithin s.env.params.retryLimit as ∧ 1 ≤ n ∧
      s.env.peer = allAnswers as ++ (List.replicate n Config.busy ++ rest) ∧
      (∃ m, s.env.params.retryLimit = some m ∧ m ≤ n) ∧
      sendLoop b k s = .timeout
        (((s.transferred ((s.readFrom b s.seq.idx as.length).zip as)
          (List.replicate n Config.busy ++ rest)).setIdx
            (s.seq.idx + BitVec.ofNat 8 as.length)).byteTimedOut t n rest)) ∨
    ((heard s.env.peer).length < k ∧ sendLoop b k s = .waiting) := by
  induction k generalizing s with
  | zero =>
    refine .inl ⟨[], s.env.peer, rfl, answeredWithin_nil _, rfl, ?_⟩
    simp [sendLoop, State.readFrom, transferred_nil, State.setIdx]
  | succ k ih =>
    rcases byteXfer_cases (s.readByte b s.seq.idx.toNat) s with
      ⟨a, more, h1, h2, h3, h4⟩ | ⟨n, rest, h1, h2, h3, h4⟩ | ⟨h1, h2⟩
    · have hc := fun j => readFrom_congr (s := (s.byteDone (s.readByte b s.seq.idx.toNat) a
        more).stepIdx) (t := s) rfl rfl b (s.seq.idx + 1#8) j
      have hi : ((s.byteDone (s.readByte b s.seq.idx.toNat) a more).stepIdx).seq.idx
          = s.seq.idx + 1#8 := rfl
      have htr : ∀ ps rest', ((s.byteDone (s.readByte b s.seq.idx.toNat) a more).stepIdx).transferred
          ps rest' = (s.transferred ((s.readByte b s.seq.idx.toNat, a) :: ps) rest').stepIdx :=
        fun ps rest' => by rw [← transferred_cons (more := more)]; rfl
      rcases ih ((s.byteDone (s.readByte b s.seq.idx.toNat) a more).stepIdx) with
        ⟨as, rest, g1, g2, g3, g4⟩ | ⟨as, n, rest, t, g1, g2, g3, g4, g5, g6⟩ | ⟨g1, g2⟩
      · refine .inl ⟨a :: as, rest, by simp [g1], answeredWithin_cons.mpr ⟨⟨h1, h3⟩, g2⟩, ?_, ?_⟩
        · rw [h2, allAnswers_cons, List.append_assoc, ← g3]
          rfl
        · rw [sendLoop, h4, Run.andThen, g4, hi, hc, ofNat_succ_add, htr]
          rfl
      · refine .inr (.inl ⟨a :: as, n, rest, t, by simp [g1],
          answeredWithin_cons.mpr ⟨⟨h1, h3⟩, g2⟩, g3, ?_, g5, ?_⟩)
        · rw [h2, allAnswers_cons, List.append_assoc, ← g4]
          rfl
        · rw [sendLoop, h4, Run.andThen, g6, hi, hc, ofNat_succ_add, htr]
          rfl
      · refine .inr (.inr ⟨?_, ?_⟩)
        · have : ((s.byteDone (s.readByte b s.seq.idx.toNat) a more).stepIdx).env.peer = more := rfl
          rw [this] at g1
          rw [h2, heard_append, heard_byteAnswers h1]
          simpa using g1
        · rw [sendLoop, h4, Run.andThen, g2]
    · refine .inr (.inl ⟨[], n, rest, s.readByte b s.seq.idx.toNat, by simp, answeredWithin_nil _, h1, h2,
        h3, ?_⟩)
      rw [sendLoop, h4, Run.andThen]
      simp [State.readFrom, transferred_nil h2, State.setIdx]
    · refine .inr (.inr ⟨?_, by rw [sendLoop, h2, Run.andThen]⟩)
      rw [heard_busy h1]
      simp

/-! ### Receiving -/

/-- The byte-and-answer pairs of a receive: the filler goes out each time. -/
def fillerPairs (f : Byte) (as : List (Nat × Byte)) : List (Byte × Nat × Byte) :=
  as.map fun a => (f, a)

theorem pairsTrace_fillerPairs (f : Byte) (as : List (Nat × Byte)) :
    pairsTrace (fillerPairs f as) = recvTrace f as := by
  simp [pairsTrace, fillerPairs, recvTrace, Function.comp_def]

theorem pairsTrace_zip (bs : List Byte) (as : List (Nat × Byte)) :
    pairsTrace (bs.zip as) = sendTrace bs as := by
  induction bs generalizing as with
  | nil => rfl
  | cons b bs ih =>
    cases as with
    | nil => rfl
    | cons a as =>
      have h : pairsTrace ((b, a) :: bs.zip as) = byteTrace b a.1 a.2 ++ pairsTrace (bs.zip as) := rfl
      rw [List.zip_cons_cons, h, ih]
      rfl

/-- The state after storing the answers `as`, in order, from index `base + IDX` on, `rest` the answers left;
`IDX` counts them. -/
def State.received (s : State) (b : Space) (base : Nat) (as : List (Nat × Byte)) (rest : List Byte) :
    State :=
  match as with
  | [] => s
  | a :: as =>
    (((s.byteDone s.env.params.filler a (allAnswers as ++ rest)).writeByte b
      (base + s.seq.idx.toNat) a.2).stepIdx).received b base as rest

/-- In one record, as long as the index does not wrap. -/
theorem received_eq (b : Space) (base : Nat) (as : List (Nat × Byte)) (rest : List Byte) (s : State)
    (hp : s.env.peer = allAnswers as ++ rest) (hidx : s.seq.idx.toNat + as.length ≤ 256) :
    s.received b base as rest =
      { s.transferred (fillerPairs s.env.params.filler as) rest with
        mem := (s.writeRange b (base + s.seq.idx.toNat) (as.map Prod.snd)).mem
        seq := { s.seq with idx := s.seq.idx + BitVec.ofNat 8 as.length } } := by
  induction as generalizing s with
  | nil =>
    have hp' : s.env.peer = rest := by simpa using hp
    simp [State.received, fillerPairs, transferred_nil hp', State.writeRange]
  | cons a as ih =>
    rw [State.received, ih]
    · have hm : ∀ (i : Nat) (vs : List Byte),
          ((((s.byteDone s.env.params.filler a (allAnswers as ++ rest)).writeByte b
            (base + s.seq.idx.toNat) a.2).stepIdx).writeRange b i vs).mem =
          ((s.writeByte b (base + s.seq.idx.toNat) a.2).writeRange b i vs).mem := by
        intro i vs
        have key : ∀ (s t : State) (i : Nat) (vs : List Byte), s.mem = t.mem →
            (s.writeRange b i vs).mem = (t.writeRange b i vs).mem := by
          intro s t i vs
          induction vs generalizing s t i with
          | nil => exact id
          | cons v vs ih =>
            intro h
            exact ih _ _ _ (by simp [State.writeByte, h])
        exact key _ _ _ _ rfl
      cases as with
      | nil =>
        have hidx' : (((s.byteDone s.env.params.filler a (allAnswers [] ++ rest)).writeByte b
            (base + s.seq.idx.toNat) a.2).stepIdx).seq.idx = s.seq.idx + 1#8 := rfl
        rw [hm, hidx', ofNat_succ_add]
        simp only [List.map_cons, List.map_nil, State.writeRange]
        rw [show fillerPairs s.env.params.filler [a] = (s.env.params.filler, a) :: [] from rfl,
          ← transferred_cons (more := allAnswers [] ++ rest)]
        rfl
      | cons a' as' =>
        have hl : (a :: a' :: as').length = as'.length + 2 := rfl
        have hidx' : (((s.byteDone s.env.params.filler a (allAnswers (a' :: as') ++ rest)).writeByte b
            (base + s.seq.idx.toNat) a.2).stepIdx).seq.idx = s.seq.idx + 1#8 := rfl
        have hi : (s.seq.idx + 1#8).toNat = s.seq.idx.toNat + 1 := by
          rw [BitVec.toNat_add]
          simp
          omega
        rw [hm, hidx', ofNat_succ_add, hi]
        rw [show fillerPairs s.env.params.filler (a :: a' :: as') =
            (s.env.params.filler, a) :: fillerPairs s.env.params.filler (a' :: as') from rfl,
          ← transferred_cons (more := allAnswers (a' :: as') ++ rest)]
        simp only [List.map_cons, State.writeRange, Nat.add_assoc]
        rfl
    · rfl
    · have hl : (a :: as).length = as.length + 1 := rfl
      show (s.seq.idx + 1#8).toNat + as.length ≤ 256
      rw [BitVec.toNat_add]
      have := Nat.mod_le (s.seq.idx.toNat + (1#8).toNat) (2 ^ 8)
      simp at *
      omega

/-- A receive that finds no `END_OF_DATA` goes on after the answers `as`, `k` bytes short (R139). -/
theorem recvLoop_prefix (b : Space) (base : Nat) {as : List (Nat × Byte)} (k : Nat) (rest : List Byte)
    {s : State} (hans : AnsweredWithin s.env.params.retryLimit as)
    (heod : ∀ a ∈ as, a.2 ≠ Config.endOfData) (hp : s.env.peer = allAnswers as ++ rest) :
    recvLoop b base (as.length + k) s = recvLoop b base k (s.received b base as rest) := by
  induction as generalizing s with
  | nil => simp [State.received]
  | cons a as ih =>
    have ha := (answeredWithin_cons.mp hans).1
    have hstep := byteXfer_done s.env.params.filler ha.1 (allAnswers as ++ rest) (s := s)
      (by simpa using hp) ha.2
    have hne : a.2 ≠ Config.endOfData := heod a (List.mem_cons_self ..)
    rw [List.length_cons, Nat.add_right_comm, recvLoop, receiveByte, hstep, Run.andThen, if_neg hne,
      State.received]
    exact ih (answeredWithin_cons.mp hans).2 (fun x hx => heod x (List.mem_cons_of_mem _ hx)) rfl

theorem received_env (b : Space) (base : Nat) (as : List (Nat × Byte)) (rest : List Byte) (s : State)
    (hp : s.env.peer = allAnswers as ++ rest) :
    (s.received b base as rest).env = { s.env with peer := rest } := by
  induction as generalizing s with
  | nil =>
    have hp' : s.env.peer = rest := by simpa using hp
    subst hp'
    rfl
  | cons a as ih =>
    rw [State.received, ih]
    · rfl
    · rfl

/-- A receive of exactly the answers `as`. -/
theorem recvLoop_all (b : Space) (base : Nat) {as : List (Nat × Byte)} (rest : List Byte) {s : State}
    (hans : AnsweredWithin s.env.params.retryLimit as) (heod : ∀ a ∈ as, a.2 ≠ Config.endOfData)
    (hp : s.env.peer = allAnswers as ++ rest) :
    recvLoop b base as.length s = .done () (s.received b base as rest) :=
  recvLoop_prefix b base 0 rest hans heod hp

/-- A receive that `END_OF_DATA` ends after the answers `as`. -/
theorem recvLoop_sentinel (b : Space) (base : Nat) {as : List (Nat × Byte)} (k j : Nat)
    (rest : List Byte) {s : State} (hans : AnsweredWithin s.env.params.retryLimit as)
    (heod : ∀ a ∈ as, a.2 ≠ Config.endOfData)
    (hj : ∀ n, s.env.params.retryLimit = some n → j < n ∨ j = 0)
    (hp : s.env.peer = allAnswers as ++ (byteAnswers (j, Config.endOfData) ++ rest)) :
    recvLoop b base (as.length + (k + 1)) s =
      .done () (((s.received b base as (byteAnswers (j, Config.endOfData) ++ rest)).byteDone
        s.env.params.filler (j, Config.endOfData) rest).raiseFlag bitEod) := by
  have henv := received_env b base as _ s hp
  rw [recvLoop_prefix b base (k + 1) _ hans heod hp, recvLoop, receiveByte,
    byteXfer_done _ (a := (j, Config.endOfData)) (show Config.endOfData ≠ Config.busy by decide) rest (by rw [henv]) (by rw [henv]; exact hj),
    Run.andThen, if_pos rfl, henv]

/-- A receive that times out after the answers `as`. -/
theorem recvLoop_timeout (b : Space) (base : Nat) {as : List (Nat × Byte)} (k : Nat) {n : Nat}
    (hn : 1 ≤ n) (rest : List Byte) {s : State} (hans : AnsweredWithin s.env.params.retryLimit as)
    (heod : ∀ a ∈ as, a.2 ≠ Config.endOfData) (hlim : s.env.params.retryLimit = some n)
    (hp : s.env.peer = allAnswers as ++ (List.replicate n Config.busy ++ rest)) :
    recvLoop b base (as.length + (k + 1)) s =
      .timeout ((s.received b base as (List.replicate n Config.busy ++ rest)).byteTimedOut
        s.env.params.filler n rest) := by
  have henv := received_env b base as _ s hp
  rw [recvLoop_prefix b base (k + 1) _ hans heod hp, recvLoop, receiveByte,
    byteXfer_timeout _ hn rest (by rw [henv]; exact hlim) (by rw [henv]), Run.andThen, henv]

/-- What `recv_bytes` can do on the answers fixed ahead: store all, end on `END_OF_DATA`, time out, or run out
of answers. -/
theorem recvLoop_cases (b : Space) (base k : Nat) (s : State) :
    (∃ as rest, as.length = k ∧ AnsweredWithin s.env.params.retryLimit as ∧
      (∀ a ∈ as, a.2 ≠ Config.endOfData) ∧ s.env.peer = allAnswers as ++ rest ∧
      recvLoop b base k s = .done () (s.received b base as rest)) ∨
    (∃ as j rest, as.length < k ∧ AnsweredWithin s.env.params.retryLimit as ∧
      (∀ a ∈ as, a.2 ≠ Config.endOfData) ∧
      (∀ n, s.env.params.retryLimit = some n → j < n ∨ j = 0) ∧
      s.env.peer = allAnswers as ++ (byteAnswers (j, Config.endOfData) ++ rest) ∧
      recvLoop b base k s =
        .done () (((s.received b base as (byteAnswers (j, Config.endOfData) ++ rest)).byteDone
          s.env.params.filler (j, Config.endOfData) rest).raiseFlag bitEod)) ∨
    (∃ as n rest, as.length < k ∧ AnsweredWithin s.env.params.retryLimit as ∧
      (∀ a ∈ as, a.2 ≠ Config.endOfData) ∧ 1 ≤ n ∧
      s.env.peer = allAnswers as ++ (List.replicate n Config.busy ++ rest) ∧
      (∃ m, s.env.params.retryLimit = some m ∧ m ≤ n) ∧
      recvLoop b base k s =
        .timeout ((s.received b base as (List.replicate n Config.busy ++ rest)).byteTimedOut
          s.env.params.filler n rest)) ∨
    ((heard s.env.peer).length < k ∧ Config.endOfData ∉ heard s.env.peer ∧
      recvLoop b base k s = .waiting) := by
  induction k generalizing s with
  | zero => exact .inl ⟨[], s.env.peer, rfl, answeredWithin_nil _, by simp, rfl, rfl⟩
  | succ k ih =>
    rcases byteXfer_cases s.env.params.filler s with
      ⟨a, more, h1, h2, h3, h4⟩ | ⟨n, rest, h1, h2, h3, h4⟩ | ⟨h1, h2⟩
    · by_cases he : a.2 = Config.endOfData
      · obtain ⟨j, r⟩ := a
        have he' : r = Config.endOfData := he
        subst he'
        refine .inr (.inl ⟨[], j, more, by simp, answeredWithin_nil _, by simp, h3, h2, ?_⟩)
        rw [recvLoop, receiveByte, h4, Run.andThen, if_pos rfl]
        rfl
      · have hstep : recvLoop b base (k + 1) s = recvLoop b base k
            (((s.byteDone s.env.params.filler a more).writeByte b (base + s.seq.idx.toNat)
              a.2).stepIdx) := by
          rw [recvLoop, receiveByte, h4, Run.andThen, if_neg he]
          rfl
        have hcons : ∀ {as : List (Nat × Byte)},
            AnsweredWithin s.env.params.retryLimit as → AnsweredWithin s.env.params.retryLimit (a :: as) :=
          fun g => answeredWithin_cons.mpr ⟨⟨h1, h3⟩, g⟩
        have heod : ∀ {as : List (Nat × Byte)}, (∀ x ∈ as, x.2 ≠ Config.endOfData) →
            ∀ x ∈ a :: as, x.2 ≠ Config.endOfData := by
          intro as g x hx
          rcases List.mem_cons.mp hx with rfl | hx
          · exact he
          · exact g x hx
        rcases ih (((s.byteDone s.env.params.filler a more).writeByte b (base + s.seq.idx.toNat)
            a.2).stepIdx) with
          ⟨as, rest, g1, g2, g3, g4, g5⟩ | ⟨as, j, rest, g1, g2, g3, g4, g5, g6⟩ |
          ⟨as, n, rest, g1, g2, g3, g4, g5, g6, g7⟩ | ⟨g1, g2, g3⟩
        · have g4' : more = allAnswers as ++ rest := g4
          refine .inl ⟨a :: as, rest, by simp [g1], hcons g2, heod g3, ?_, ?_⟩
          · rw [h2, g4', allAnswers_cons, List.append_assoc]
          · rw [hstep, g5, State.received, g4']
        · have g5' : more = allAnswers as ++ (byteAnswers (j, Config.endOfData) ++ rest) := g5
          refine .inr (.inl ⟨a :: as, j, rest, by simp [g1], hcons g2, heod g3, g4, ?_, ?_⟩)
          · rw [h2, g5', allAnswers_cons, List.append_assoc]
          · rw [hstep, g6, State.received, g5']
            rfl
        · have g5' : more = allAnswers as ++ (List.replicate n Config.busy ++ rest) := g5
          refine .inr (.inr (.inl ⟨a :: as, n, rest, by simp [g1], hcons g2, heod g3, g4, ?_, g6, ?_⟩))
          · rw [h2, g5', allAnswers_cons, List.append_assoc]
          · rw [hstep, g7, State.received, g5']
            rfl
        · have hm : heard s.env.peer = a.2 :: heard more := by
            rw [h2, heard_append, heard_byteAnswers h1]
            rfl
          refine .inr (.inr (.inr ⟨?_, ?_, by rw [hstep, g3]⟩))
          · rw [hm]
            have : (heard more).length < k := g1
            simpa using this
          · rw [hm]
            have : Config.endOfData ∉ heard more := g2
            simpa [Ne.symm he] using this
    · refine .inr (.inr (.inl ⟨[], n, rest, by simp, answeredWithin_nil _, by simp, h1, h2, h3, ?_⟩))
      rw [recvLoop, receiveByte, h4, Run.andThen]
      rfl
    · refine .inr (.inr (.inr ⟨?_, ?_, by rw [recvLoop, receiveByte, h2, Run.andThen]⟩))
      · rw [heard_busy h1]
        simp
      · rw [heard_busy h1]
        simp

/-! ### The sync poll -/

/-- The state after the polls `as`, `rest` the answers left: each a poll delay and a received byte. -/
def State.polled (s : State) (as : List (Nat × Byte)) (rest : List Byte) : State :=
  match as with
  | [] => s
  | a :: as =>
    let s' := s.delayPoll.byteDone s.env.params.filler a (allAnswers as ++ rest)
    (s'.setPolls (s'.polls + 1)).polled as rest

/-- In one record. -/
theorem polled_eq (as : List (Nat × Byte)) (rest : List Byte) (s : State)
    (hp : s.env.peer = allAnswers as ++ rest) :
    s.polled as rest =
      { s with
        link := linkAfter s.link (fillerPairs s.env.params.filler as)
        att := attAfter s.att (fillerPairs s.env.params.filler as)
        polls := s.polls + as.length
        trace := s.trace ++ pollTrace s.env.params.filler as
        env := { s.env with peer := rest } } := by
  induction as generalizing s with
  | nil =>
    have hp' : s.env.peer = rest := by simpa using hp
    subst hp'
    simp [State.polled, fillerPairs, linkAfter, attAfter, pollTrace]
  | cons a as ih =>
    rw [State.polled, ih _ rfl]
    simp [State.byteDone, State.delayPoll, State.emit, State.setPolls, fillerPairs, linkAfter, attAfter,
      pollTrace]
    omega

/-- The poll limit is not reached by so many polls more. -/
def PollsWithin (limit : Option Nat) (polls more : Nat) : Prop :=
  ∀ n, limit = some n → polls + more < n ∨ more = 0

/-- Polls none of which is the sync byte are discarded, as long as the limit is not reached. -/
theorem pollLoop_prefix {as : List (Nat × Byte)} (fuel : Nat) (rest : List Byte) {s : State}
    (hans : AnsweredWithin s.env.params.retryLimit as) (hne : ∀ a ∈ as, a.2 ≠ Config.tagResponse)
    (hlim : PollsWithin s.env.params.syncLimit s.polls as.length)
    (hp : s.env.peer = allAnswers as ++ rest) :
    pollLoop (as.length + fuel) s = pollLoop fuel (s.polled as rest) := by
  induction as generalizing s with
  | nil => simp [State.polled]
  | cons a as ih =>
    have ha := (answeredWithin_cons.mp hans).1
    have hstep := byteXfer_done s.env.params.filler ha.1 (allAnswers as ++ rest) (s := s.delayPoll)
      (by simpa using hp) ha.2
    have hs : a.2 ≠ Config.tagResponse := hne a (List.mem_cons_self ..)
    have hl : limitReached (s.polls + 1) s.env.params.syncLimit = false := by
      cases h : s.env.params.syncLimit with
      | none => rfl
      | some n =>
        have := hlim n h
        simp [limitReached]
        simp at this
        omega
    have hr : receiveByte s.delayPoll = .done a.2 (s.delayPoll.byteDone s.env.params.filler a
        (allAnswers as ++ rest)) := hstep
    rw [List.length_cons, Nat.add_right_comm, pollLoop, hr, Run.andThen]
    simp only [if_neg hs, State.polled]
    rw [if_neg (by
      show ¬ limitReached (s.polls + 1) s.env.params.syncLimit = true
      simp [hl])]
    refine ih (answeredWithin_cons.mp hans).2 (fun x hx => hne x (List.mem_cons_of_mem _ hx)) ?_ rfl
    intro n hn
    have h1 := hlim n hn
    have h2 : ((s.delayPoll.byteDone s.env.params.filler a (allAnswers as ++ rest)).setPolls
      ((s.delayPoll.byteDone s.env.params.filler a (allAnswers as ++ rest)).polls + 1)).polls
        = s.polls + 1 := rfl
    rw [h2]
    simp at h1
    omega

theorem polled_env (as : List (Nat × Byte)) (rest : List Byte) (s : State)
    (hp : s.env.peer = allAnswers as ++ rest) :
    (s.polled as rest).env = { s.env with peer := rest } := by
  rw [polled_eq as rest s hp]

/-- The sync byte ends the poll (R204). -/
theorem pollLoop_sync {as : List (Nat × Byte)} (k fuel : Nat) (rest : List Byte) {s : State}
    (hans : AnsweredWithin s.env.params.retryLimit as) (hne : ∀ a ∈ as, a.2 ≠ Config.tagResponse)
    (hlim : PollsWithin s.env.params.syncLimit s.polls as.length)
    (hk : ∀ n, s.env.params.retryLimit = some n → k < n ∨ k = 0)
    (hp : s.env.peer = allAnswers (as ++ [(k, Config.tagResponse)]) ++ rest) :
    pollLoop (as.length + (fuel + 1)) s =
      .done () (s.polled (as ++ [(k, Config.tagResponse)]) rest) := by
  have hp' : s.env.peer = allAnswers as ++ (byteAnswers (k, Config.tagResponse) ++ rest) := by
    simpa using hp
  have henv := polled_env as _ s hp'
  have happ : ∀ (as : List (Nat × Byte)) (s : State),
      s.polled (as ++ [(k, Config.tagResponse)]) rest =
        (s.polled as (byteAnswers (k, Config.tagResponse) ++ rest)).polled
          [(k, Config.tagResponse)] rest := by
    intro as
    induction as with
    | nil => intro s; rfl
    | cons a as ih =>
      intro s
      simp only [List.cons_append, State.polled, allAnswers_append, allAnswers_cons, allAnswers_nil,
        List.append_nil, List.append_assoc]
      exact ih _
  rw [pollLoop_prefix (fuel + 1) _ hans hne hlim hp', pollLoop, receiveByte, happ]
  have hx := byteXfer_done ((s.polled as (byteAnswers (k, Config.tagResponse) ++ rest)).env.params.filler)
    (a := (k, Config.tagResponse)) (show Config.tagResponse ≠ Config.busy by decide) rest
    (s := (s.polled as (byteAnswers (k, Config.tagResponse) ++ rest)).delayPoll)
    (by rw [delayPoll_env, henv]) (by rw [delayPoll_env, henv]; exact hk)
  rw [delayPoll_env, hx, Run.andThen]
  simp [State.polled]

/-- The poll that reaches `SYNC_LIMIT` without the sync byte times out (R215). -/
theorem pollLoop_timeout {as : List (Nat × Byte)} {a : Nat × Byte} (fuel : Nat) (rest : List Byte)
    {s : State} {n : Nat} (hans : AnsweredWithin s.env.params.retryLimit (as ++ [a]))
    (hne : ∀ x ∈ as ++ [a], x.2 ≠ Config.tagResponse) (hlim : s.env.params.syncLimit = some n)
    (hn : s.polls + as.length + 1 = n) (hp : s.env.peer = allAnswers (as ++ [a]) ++ rest) :
    pollLoop (as.length + (fuel + 1)) s = .timeout (s.polled (as ++ [a]) rest) := by
  have hp' : s.env.peer = allAnswers as ++ (byteAnswers a ++ rest) := by simpa using hp
  have henv := polled_env as _ s hp'
  have hmem : ∀ x ∈ as, x ∈ as ++ [a] := fun x hx => List.mem_append_left _ hx
  have ha := hans a (by simp)
  have happ : ∀ (as : List (Nat × Byte)) (s : State),
      s.polled (as ++ [a]) rest = (s.polled as (byteAnswers a ++ rest)).polled [a] rest := by
    intro as
    induction as with
    | nil => intro s; rfl
    | cons a as ih =>
      intro s
      simp only [List.cons_append, State.polled, allAnswers_append, allAnswers_cons, allAnswers_nil,
        List.append_nil, List.append_assoc]
      exact ih _
  have hlim' : PollsWithin s.env.params.syncLimit s.polls as.length := by
    intro m hm
    rw [hlim] at hm
    cases hm
    omega
  rw [pollLoop_prefix (fuel + 1) _ (fun x hx => hans x (hmem x hx)) (fun x hx => hne x (hmem x hx))
    hlim' hp', pollLoop, receiveByte, happ]
  have hx := byteXfer_done ((s.polled as (byteAnswers a ++ rest)).env.params.filler) (a := a) ha.1 rest
    (s := (s.polled as (byteAnswers a ++ rest)).delayPoll)
    (by rw [delayPoll_env, henv]) (by rw [delayPoll_env, henv]; exact ha.2)
  rw [delayPoll_env, hx, Run.andThen]
  have hpolls : (s.polled as (byteAnswers a ++ rest)).polls = s.polls + as.length := by
    rw [polled_eq as _ s hp']
  have hl : limitReached ((s.polled as (byteAnswers a ++ rest)).polls + 1)
      (s.polled as (byteAnswers a ++ rest)).env.params.syncLimit = true := by
    rw [henv, hpolls]
    simp [hlim, limitReached]
    omega
  simp only [if_neg (hne a (by simp))]
  rw [if_pos (by exact hl)]
  simp [State.polled]

/-- What the sync poll can do: find the sync byte, reach the poll limit, time out within a byte, or run out of
answers. -/
theorem pollLoop_cases (fuel : Nat) (s : State) :
    (∃ as k rest, AnsweredWithin s.env.params.retryLimit (as ++ [(k, Config.tagResponse)]) ∧
      (∀ a ∈ as, a.2 ≠ Config.tagResponse) ∧
      s.env.peer = allAnswers (as ++ [(k, Config.tagResponse)]) ++ rest ∧
      pollLoop fuel s = .done () (s.polled (as ++ [(k, Config.tagResponse)]) rest)) ∨
    (∃ as rest, as ≠ [] ∧ AnsweredWithin s.env.params.retryLimit as ∧
      (∀ a ∈ as, a.2 ≠ Config.tagResponse) ∧ s.env.peer = allAnswers as ++ rest ∧
      (∃ m, s.env.params.syncLimit = some m ∧ m ≤ s.polls + as.length) ∧
      pollLoop fuel s = .timeout (s.polled as rest)) ∨
    (∃ as n rest, AnsweredWithin s.env.params.retryLimit as ∧
      (∀ a ∈ as, a.2 ≠ Config.tagResponse) ∧ 1 ≤ n ∧
      s.env.peer = allAnswers as ++ (List.replicate n Config.busy ++ rest) ∧
      (∃ m, s.env.params.retryLimit = some m ∧ m ≤ n) ∧
      pollLoop fuel s = .timeout ((s.polled as (List.replicate n Config.busy ++ rest)).delayPoll.byteTimedOut
        s.env.params.filler n rest)) ∨
    pollLoop fuel s = .waiting := by
  induction fuel generalizing s with
  | zero => exact .inr (.inr (.inr rfl))
  | succ fuel ih =>
    rcases byteXfer_cases s.env.params.filler s.delayPoll with
      ⟨a, more, h1, h2, h3, h4⟩ | ⟨n, rest, h1, h2, h3, h4⟩ | ⟨h1, h2⟩
    · have hr : receiveByte s.delayPoll = .done a.2 (s.delayPoll.byteDone s.env.params.filler a more) := h4
      have h2' : s.env.peer = byteAnswers a ++ more := h2
      by_cases hs : a.2 = Config.tagResponse
      · obtain ⟨k, r⟩ := a
        have hs' : r = Config.tagResponse := hs
        subst hs'
        refine .inl ⟨[], k, more, ?_, by simp, by simpa using h2', ?_⟩
        · exact answeredWithin_cons.mpr ⟨⟨h1, h3⟩, answeredWithin_nil _⟩
        · rw [pollLoop, hr, Run.andThen]
          simp [State.polled]
      · by_cases hl : limitReached (s.polls + 1) s.env.params.syncLimit = true
        · refine .inr (.inl ⟨[a], more, by simp,
            answeredWithin_cons.mpr ⟨⟨h1, h3⟩, answeredWithin_nil _⟩, by simpa using hs,
            by simpa using h2', ?_, ?_⟩)
          · cases h : s.env.params.syncLimit with
            | none => simp [h, limitReached] at hl
            | some m => exact ⟨m, rfl, by simpa [h, limitReached] using hl⟩
          · rw [pollLoop, hr, Run.andThen]
            simp only [if_neg hs]
            rw [if_pos (by exact hl)]
            simp [State.polled]
        · have hstep : pollLoop (fuel + 1) s = pollLoop fuel
              ((s.delayPoll.byteDone s.env.params.filler a more).setPolls (s.polls + 1)) := by
            rw [pollLoop, hr, Run.andThen]
            simp only [if_neg hs]
            rw [if_neg (by exact hl)]
            rfl
          have hpre : ∀ as rest, more = allAnswers as ++ rest →
              s.polled (a :: as) rest =
                ((s.delayPoll.byteDone s.env.params.filler a more).setPolls (s.polls + 1)).polled as
                  rest := by
            intro as rest hm
            rw [State.polled, hm]
            rfl
          have hcons : ∀ {as : List (Nat × Byte)}, AnsweredWithin s.env.params.retryLimit as →
              AnsweredWithin s.env.params.retryLimit (a :: as) :=
            fun g => answeredWithin_cons.mpr ⟨⟨h1, h3⟩, g⟩
          have hnes : ∀ {as : List (Nat × Byte)}, (∀ x ∈ as, x.2 ≠ Config.tagResponse) →
              ∀ x ∈ a :: as, x.2 ≠ Config.tagResponse := by
            intro as g x hx
            rcases List.mem_cons.mp hx with rfl | hx
            · exact hs
            · exact g x hx
          rcases ih ((s.delayPoll.byteDone s.env.params.filler a more).setPolls (s.polls + 1)) with
            ⟨as, k, rest, g1, g2, g3, g4⟩ | ⟨as, rest, g0, g1, g2, g3, g4, g5⟩ |
            ⟨as, n, rest, g1, g2, g3, g4, g5, g6⟩ | g
          · have g3' : more = allAnswers (as ++ [(k, Config.tagResponse)]) ++ rest := g3
            refine .inl ⟨a :: as, k, rest, hcons g1, hnes g2, ?_, ?_⟩
            · rw [h2', g3', List.cons_append, allAnswers_cons, List.append_assoc]
            · rw [hstep, g4, List.cons_append, hpre _ _ g3']
          · have g3' : more = allAnswers as ++ rest := g3
            refine .inr (.inl ⟨a :: as, rest, by simp, hcons g1, hnes g2, ?_, ?_, ?_⟩)
            · rw [h2', g3', allAnswers_cons, List.append_assoc]
            · obtain ⟨m, hm, hle⟩ := g4
              refine ⟨m, hm, ?_⟩
              have : ((s.delayPoll.byteDone s.env.params.filler a more).setPolls (s.polls + 1)).polls
                = s.polls + 1 := rfl
              rw [this] at hle
              simp
              omega
            · rw [hstep, g5, hpre _ _ g3']
          · have g4' : more = allAnswers as ++ (List.replicate n Config.busy ++ rest) := g4
            refine .inr (.inr (.inl ⟨a :: as, n, rest, hcons g1, hnes g2, g3, ?_, g5, ?_⟩))
            · rw [h2', g4', allAnswers_cons, List.append_assoc]
            · rw [hstep, g6, hpre _ _ g4']
              rfl
          · exact .inr (.inr (.inr (by rw [hstep, g])))
    · refine .inr (.inr (.inl ⟨[], n, rest, answeredWithin_nil _, by simp, h1, h2, h3, ?_⟩))
      have hr : receiveByte s.delayPoll = .timeout (s.delayPoll.byteTimedOut s.env.params.filler n rest) :=
        h4
      rw [pollLoop, hr, Run.andThen]
      rfl
    · have hr : receiveByte s.delayPoll = .waiting := h2
      exact .inr (.inr (.inr (by rw [pollLoop, hr, Run.andThen])))

end Sys2Proof.Machine
end

