-- ==== Sys2Proof/Laws/Operate.lean ====
section
/-! SUPPORT. What writing an operation word can do, said once: the refusal while active, the acceptance, the run to
the operation's end (60_exceptions.md R246 to R249, R252). -/

namespace Sys2Proof.Machine

/-- A word written while active is refused without effect (R249). -/
theorem operate_active {s : State} (h : s.active = true) (w : Half) (p : Phase)
    (body : State → Option State) : s.operate w p body = s := by
  simp only [State.operate, h, if_true]

/-- At the sequencer level an idle block only accepts the word (R212). -/
theorem operate_sequencer {s : State} (h : s.active = false) (hl : s.env.level = .sequencer) (w : Half)
    (p : Phase) (body : State → Option State) : s.operate w p body = s.accept w p := by
  simp [State.operate, h, hl]

/-- At the operation level an idle block runs the body to its end, or stands at the first phase. -/
theorem operate_operation {s : State} (h : s.active = false) (hl : s.env.level = .operation) (w : Half)
    (p : Phase) (body : State → Option State) :
    s.operate w p body = (body (s.accept w p)).getD (s.accept w p) := by
  simp [State.operate, h, hl]

/-- What writing an operation word can do. -/
theorem operate_cases (s : State) (w : Half) (p : Phase) (body : State → Option State) :
    (s.active = true ∧ s.operate w p body = s) ∨
    (s.active = false ∧ s.operate w p body = s.accept w p ∧
      (s.env.level = .sequencer ∨ body (s.accept w p) = none)) ∨
    (s.active = false ∧ s.env.level = .operation ∧
      ∃ t, body (s.accept w p) = some t ∧ s.operate w p body = t) := by
  cases ha : s.active with
  | true => exact .inl ⟨rfl, operate_active ha w p body⟩
  | false =>
    cases hl : s.env.level with
    | sequencer => exact .inr (.inl ⟨rfl, operate_sequencer ha hl w p body, .inl rfl⟩)
    | operation =>
      have ho := operate_operation ha hl w p body
      cases hb : body (s.accept w p) with
      | none => exact .inr (.inl ⟨rfl, by rw [ho, hb, Option.getD_none], .inr rfl⟩)
      | some t => exact .inr (.inr ⟨rfl, rfl, t, rfl, by rw [ho, hb, Option.getD_some]⟩)

/-- What a body that ends leaves, by its outcome (R246, R247). -/
theorem outcome_eq_some {r : Run Unit} {t : State} (h : r.outcome = some t) :
    (∃ s, r = .done () s ∧ t = s.completed) ∨ (∃ s, r = .timeout s ∧ t = s.timedOut) := by
  cases r with
  | done a s =>
    cases a
    exact .inl ⟨s, rfl, by simpa [Run.outcome] using h.symm⟩
  | timeout s => exact .inr ⟨s, rfl, by simpa [Run.outcome] using h.symm⟩
  | waiting => simp [Run.outcome] at h

/-- A sequence ends when each part ends. -/
theorem andThen_eq_done {α β : Type} {r : Run α} {f : α → State → Run β} {b : β} {t : State}
    (h : r.andThen f = .done b t) : ∃ a s, r = .done a s ∧ f a s = .done b t := by
  cases r with
  | done a s => exact ⟨a, s, rfl, h⟩
  | timeout s => simp [Run.andThen] at h
  | waiting => simp [Run.andThen] at h

/-- A sequence times out in its first part or after it. -/
theorem andThen_eq_timeout {α β : Type} {r : Run α} {f : α → State → Run β} {t : State}
    (h : r.andThen f = .timeout t) :
    r = .timeout t ∨ ∃ a s, r = .done a s ∧ f a s = .timeout t := by
  cases r with
  | done a s => exact .inr ⟨a, s, rfl, h⟩
  | timeout s => exact .inl (by simpa [Run.andThen] using h)
  | waiting => simp [Run.andThen] at h

/-- The end of an operation clears `ACTIVE` (R38). -/
theorem endedStatus_active (v : Byte) : flagSet (endedStatus v) bitActive = false := by
  have h : endedStatus v &&& bitActive = 0#8 := by
    apply BitVec.eq_of_getLsbD_eq
    intro i hi
    simp only [endedStatus, bitActive, bitDone]
    rcases i with _ | _ | _ | _ | _ | _ | _ | _ | i <;> first | omega | simp
  rw [flagSet, h]
  rfl

/-- An operation that completed is no longer active (R38). -/
theorem completed_active (s : State) : s.completed.active = false := endedStatus_active _

/-- An accepted word leaves the block active (R38). -/
theorem accept_active (s : State) (w : Half) (p : Phase) : (s.accept w p).active = true := by
  simp [State.active, accept_ctl, acceptedStatus, flagSet, bitActive]

/-- `timedOut` ends the operation as `completed` does. -/
theorem timedOut_active (s : State) : s.timedOut.active = false := completed_active _

end Sys2Proof.Machine
end

