-- ==== Sys2Proof/Laws/PerInstr.lean ====
section
/-! SUPPORT. One statement an instruction, one lemma a constructor: a well-formed item's encoding lies in the item's
row of the opcode table, by the row's match and mask, or, for a default row, in no other row of its format
(30_encoding.md R90, R92, R95, R102; 43_console_frontend.md R181). -/

namespace Sys2Proof

/-- The bits of the mask of an operation row. -/
theorem opMask_bit : ∀ i < 16, (0xFF00#16).getLsbD i = decide (8 ≤ i) := by decide

/-- The bits of the mask of a header row. -/
theorem hdrMask_bit : ∀ i < 32, (0xFF000000#32).getLsbD i = decide (24 ≤ i) := by decide

/-- The mask of an operation row keeps the code and drops the operand. -/
theorem opWord_and_mask (op : BitVec 4) (a : Byte) : opWord op a &&& 0xFF00#16 = opWord op 0#8 := by
  apply BitVec.eq_of_getLsbD_eq
  intro i hi
  rw [BitVec.getLsbD_and, opMask_bit i hi, opWord_bit, opWord_bit]
  split_ifs with h
  · simp [h]
  · simp [Nat.le_of_not_lt h]

/-- The mask of a header row keeps the type byte and drops the rest. -/
theorem hdrWord_and_mask (t lo hi len : Byte) :
    hdrWord t lo hi len &&& 0xFF000000#32 = hdrWord t 0#8 0#8 0#8 := by
  apply BitVec.eq_of_getLsbD_eq
  intro i hi
  rw [BitVec.getLsbD_and, hdrMask_bit i hi, hdrWord_bit, hdrWord_bit]
  split_ifs with h1 h2 h3
  · simp [show i < 24 by omega]
  · simp [show i < 24 by omega]
  · simp [show i < 24 by omega]
  · simp [Nat.le_of_not_lt h3]

/-- The mask of an operation row does not touch `RSV`. -/
theorem rsvField_and_mask (w : Half) : rsvField (w &&& 0xFF00#16) = rsvField w := by
  apply BitVec.eq_of_getLsbD_eq
  intro i hi
  simp only [rsvField, BitVec.getLsbD_extractLsb', BitVec.getLsbD_and]
  rw [opMask_bit (12 + i) (by omega)]
  simp [show 8 ≤ 12 + i by omega]

/-- The mask of an operation row does not touch `OP`. -/
theorem opField_and_mask (w : Half) : opField (w &&& 0xFF00#16) = opField w := by
  apply BitVec.eq_of_getLsbD_eq
  intro i hi
  simp only [opField, BitVec.getLsbD_extractLsb', BitVec.getLsbD_and]
  rw [opMask_bit (8 + i) (by omega)]
  simp

end Sys2Proof

namespace Sys2Proof.Laws.TableRow

/-- The matches of the operation rows (R92). -/
def operationMatches : List Half :=
  [0x0100#16, 0x0200#16, 0x0300#16, 0x0400#16, 0x0500#16, 0x0600#16, 0x0700#16]

/-- The matches of the header rows (R95). -/
def headerMatches : List Quad := [0x10000000#32, 0x20000000#32, 0x40000000#32, 0x80000000#32]

/-- Whether an encoded item lies in an instruction's row of the opcode table. -/
def inRow : Instr → Encoded → Prop
  | .sendByte _, .opw w => w &&& 0xFF00#16 = 0x0100#16
  | .sendBytes _, .opw w => w &&& 0xFF00#16 = 0x0200#16
  | .recvByte, .opw w => w &&& 0xFF00#16 = 0x0300#16
  | .recvBytes _, .opw w => w &&& 0xFF00#16 = 0x0400#16
  | .encHdr, .opw w => w &&& 0xFF00#16 = 0x0500#16
  | .decHdr, .opw w => w &&& 0xFF00#16 = 0x0600#16
  | .dispatch _, .opw w => w &&& 0xFF00#16 = 0x0700#16
  | .opwIllegal _, .opw w => w &&& 0xFF00#16 ∉ operationMatches
  | .hdrCommand _ _ _, .hdr h => h &&& 0xFF000000#32 = 0x10000000#32
  | .hdrResponse _ _ _, .hdr h => h &&& 0xFF000000#32 = 0x20000000#32
  | .hdrAlert _ _ _, .hdr h => h &&& 0xFF000000#32 = 0x40000000#32
  | .hdrError _ _ _, .hdr h => h &&& 0xFF000000#32 = 0x80000000#32
  | .hdrUnrecognized _ _ _ _, .hdr h => h &&& 0xFF000000#32 ∉ headerMatches
  | .wbBusy, .wb r => r &&& 0xFF#8 = 0xFE#8
  | .wbEndOfData, .wb r => r &&& 0xFF#8 = 0xFF#8
  | .wbData _, .wb r => r &&& 0xFF#8 ∉ [0xFE#8, 0xFF#8, 0x20#8]
  | .wbSync, .wb r => r &&& 0xFF#8 = 0x20#8
  | .conCr, .con c => c &&& 0xFF#8 = 0x0D#8
  | .conLf, .con c => c &&& 0xFF#8 = 0x0A#8
  | .conBs, .con c => c &&& 0xFF#8 = 0x08#8
  | .conOther _, .con c => c &&& 0xFF#8 ∉ [0x0D#8, 0x0A#8, 0x08#8]
  | _, _ => False

/-- A well-formed item's encoding lies in its row. -/
def Statement (i : Instr) : Prop := WellFormed i → inRow i (encode i)

/-- The mask of a byte row keeps the whole byte. -/
theorem and_allOnes (r : Byte) : r &&& 0xFF#8 = r := BitVec.and_allOnes (x := r)

theorem sendByte (b : Byte) : Statement (.sendByte b) := fun _ => opWord_and_mask 1#4 b

theorem sendBytes (n : Byte) : Statement (.sendBytes n) := fun _ => opWord_and_mask 2#4 n

theorem recvByte : Statement .recvByte := fun _ => opWord_and_mask 3#4 0#8

theorem recvBytes (m : Byte) : Statement (.recvBytes m) := fun _ => opWord_and_mask 4#4 m

theorem encHdr : Statement .encHdr := fun _ => opWord_and_mask 5#4 0#8

theorem decHdr : Statement .decHdr := fun _ => opWord_and_mask 6#4 0#8

theorem dispatch (l : Byte) : Statement (.dispatch l) := fun _ => opWord_and_mask 7#4 l

theorem opwIllegal (w : Half) : Statement (.opwIllegal w) := by
  intro h hm
  have hr : ReservedWord (w &&& 0xFF00#16) := by
    have h' : rsvField w ≠ 0#4 ∨ opField w = 0#4 ∨ 8#4 ≤ opField w := h
    rwa [← rsvField_and_mask, ← opField_and_mask] at h'
  have key : ∀ m ∈ operationMatches, ¬ ReservedWord m := by
    simp only [operationMatches, List.forall_mem_cons, List.not_mem_nil, false_implies, implies_true,
      and_true]
    decide
  exact key _ hm hr

theorem hdrCommand (lo hi len : Byte) : Statement (.hdrCommand lo hi len) :=
  fun _ => (hdrWord_and_mask Config.tagCommand lo hi len).trans (by decide)

theorem hdrResponse (lo hi len : Byte) : Statement (.hdrResponse lo hi len) :=
  fun _ => (hdrWord_and_mask Config.tagResponse lo hi len).trans (by decide)

theorem hdrAlert (lo hi len : Byte) : Statement (.hdrAlert lo hi len) :=
  fun _ => (hdrWord_and_mask Config.tagAlert lo hi len).trans (by decide)

theorem hdrError (lo hi len : Byte) : Statement (.hdrError lo hi len) :=
  fun _ => (hdrWord_and_mask Config.tagError lo hi len).trans (by decide)

theorem hdrUnrecognized (t lo hi len : Byte) : Statement (.hdrUnrecognized t lo hi len) := by
  intro h hm
  have hm' : hdrWord t lo hi len &&& 0xFF000000#32 ∈ headerMatches := hm
  rw [hdrWord_and_mask] at hm'
  have key : ∀ m ∈ headerMatches, RecognizedType (hdrType m) := by
    simp only [headerMatches, List.forall_mem_cons, List.not_mem_nil, false_implies, implies_true,
      and_true]
    decide
  have ht := key _ hm'
  rw [hdrType_hdrWord] at ht
  exact h ht

theorem wbBusy : Statement .wbBusy := fun _ => and_allOnes Config.busy

theorem wbEndOfData : Statement .wbEndOfData := fun _ => and_allOnes Config.endOfData

theorem wbData (r : Byte) : Statement (.wbData r) := by
  intro h hm
  have hm' : r &&& 0xFF#8 ∈ [0xFE#8, 0xFF#8, 0x20#8] := hm
  obtain ⟨h1, h2, h3⟩ := h
  rw [and_allOnes] at hm'
  simp only [List.mem_cons, List.not_mem_nil, or_false] at hm'
  rcases hm' with rfl | rfl | rfl
  · exact h1 rfl
  · exact h2 rfl
  · exact h3 rfl

theorem wbSync : Statement .wbSync := fun _ => and_allOnes Config.tagResponse

theorem conCr : Statement .conCr := fun _ => and_allOnes Config.cr

theorem conLf : Statement .conLf := fun _ => and_allOnes Config.lf

theorem conBs : Statement .conBs := fun _ => and_allOnes Config.bs

theorem conOther (c : Byte) : Statement (.conOther c) := by
  intro h hm
  have hm' : c &&& 0xFF#8 ∈ [0x0D#8, 0x0A#8, 0x08#8] := hm
  rw [and_allOnes] at hm'
  simp only [List.mem_cons, List.not_mem_nil, or_false] at hm'
  exact h hm'

end Sys2Proof.Laws.TableRow
end

