-- ==== Sys2Proof/Laws/Step.lean ====
section
/-! SUPPORT. What one step can do: whose turn it is, and what a byte returned by the peer does in each phase
(41_transceiver.md R141, 44_orchestrator.md R212). -/

namespace Sys2Proof.Machine

/-- A step runs an instruction or moves to a state. -/
theorem step_cases (s : State) :
    (∃ i s', s.turn = .run i s' ∧ step s = exec i s') ∨
    (∃ t, s.turn = .move t ∧ step s = .next t) := by
  cases h : s.turn with
  | run i s' => exact .inl ⟨i, s', rfl, by simp only [step, h]⟩
  | move t => exact .inr ⟨t, rfl, by simp only [step, h]⟩

/-- Whose turn it is: the reset input's, the return's of an ended `dispatch`, the outside world's, or the
block's. -/
theorem turn_cases (s : State) :
    (∃ later, s.env.inbox = .reset :: later ∧
      s.turn = .move { s with env := { s.env with inbox := later } }.applyReset) ∨
    (s.returnDue = true ∧ s.turn = .move s.dispatchReturned) ∨
    (s.returnDue = false ∧ ∃ i later, s.env.inbox = i :: later ∧ i ≠ .reset ∧
      s.turn = s.inputTurn i later) ∨
    (s.returnDue = false ∧ s.env.inbox = [] ∧ s.turn = s.blockTurn) := by
  cases hi : s.env.inbox with
  | nil =>
    cases hr : s.returnDue with
    | true => exact .inr (.inl ⟨rfl, by simp only [State.turn, hi, hr, if_true]⟩)
    | false => exact .inr (.inr (.inr ⟨rfl, rfl, by simp [State.turn, hi, hr]⟩))
  | cons i later =>
    by_cases h : i = .reset
    · subst h
      exact .inl ⟨later, rfl, by simp only [State.turn, hi, State.inputTurn]⟩
    · have ht : s.turn = if s.returnDue then .move s.dispatchReturned else s.inputTurn i later := by
        unfold State.turn
        rw [hi]
        cases i <;> first | rfl | exact absurd rfl h
      cases hr : s.returnDue with
      | true => exact .inr (.inl ⟨rfl, by rw [ht, hr]; rfl⟩)
      | false => exact .inr (.inr (.inl ⟨rfl, i, later, rfl, h, by rw [ht, hr]; rfl⟩))

/-- A phase that runs the byte engine takes the engine's turn (R141). -/
theorem blockTurn_engine {s : State} (h : s.seq.phase.usesEngine = true) : s.blockTurn = s.engineTurn := by
  unfold State.blockTurn
  split <;> simp_all [Phase.usesEngine]

/-- A phase that runs the byte engine is no idle phase, so no return is due (R185). -/
theorem returnDue_of_engine {s : State} (h : s.seq.phase.usesEngine = true) : s.returnDue = false := by
  simp only [State.returnDue, Bool.and_eq_false_iff, decide_eq_false_iff_not]
  right
  intro hp
  simp [hp, Phase.usesEngine] at h

/-- While nobody outside acts, a phase that runs the byte engine steps with it. -/
theorem step_engine {s : State} (hi : s.env.inbox = []) (h : s.seq.phase.usesEngine = true) :
    step s = match s.engineTurn with
      | .run i s' => exec i s'
      | .move t => .next t := by
  have ht : s.turn = s.engineTurn := by
    simp only [State.turn, hi, returnDue_of_engine h, Bool.false_eq_true, if_false,
      blockTurn_engine h]
  cases he : s.engineTurn <;> simp only [step, ht, he]

/-! ### The byte taken, by phase (R212) -/

theorem takeByte_send {s : State} (h : s.seq.phase = .send) (r : Byte) :
    s.takeByte r = (s.setEngine .idle).sentOne := by
  simp only [State.takeByte, h]

theorem takeByte_recv {s : State} (h : s.seq.phase = .recv) (r : Byte) :
    s.takeByte r = (s.setEngine .idle).receivedOne r := by
  simp only [State.takeByte, h]

theorem takeByte_txHdr {s : State} (h : s.seq.phase = .txHdr) (r : Byte) :
    s.takeByte r = (s.setEngine .idle).headerSentOne := by
  simp only [State.takeByte, h]

theorem takeByte_txPay {s : State} (h : s.seq.phase = .txPay) (r : Byte) :
    s.takeByte r = (s.setEngine .idle).stepIdx := by
  simp only [State.takeByte, h]

theorem takeByte_pollRx {s : State} (h : s.seq.phase = .pollRx) (r : Byte) :
    s.takeByte r = (s.setEngine .idle).polledOne r := by
  simp only [State.takeByte, h]

theorem takeByte_rxHdr {s : State} (h : s.seq.phase = .rxHdr) (r : Byte) :
    s.takeByte r = (s.setEngine .idle).tailOne r := by
  simp only [State.takeByte, h]

theorem takeByte_rxPay {s : State} (h : s.seq.phase = .rxPay) (r : Byte) :
    s.takeByte r = (s.setEngine .idle).payloadOne r := by
  simp only [State.takeByte, h]

/-- A phase that runs no byte takes none (log 10). -/
theorem takeByte_none {s : State} (h : s.seq.phase.usesEngine = false) (r : Byte) : s.takeByte r = s := by
  unfold State.takeByte
  split <;> simp_all [Phase.usesEngine]

/-- The same for `BUSY` (log 10). -/
theorem takeBusy_none {s : State} (h : s.seq.phase.usesEngine = false) : s.takeBusy = s := by
  simp [State.takeBusy, h]

/-- What `BUSY` can do in a phase that runs a byte: the pacing delay next, or `Timeout(BYTE)` (R131). -/
theorem takeBusy_cases {s : State} (h : s.seq.phase.usesEngine = true) :
    (limitReached s.att s.env.params.retryLimit = false ∧ s.takeBusy = s.setEngine .pace) ∨
    (limitReached s.att s.env.params.retryLimit = true ∧
      s.takeBusy = (if s.storesPayload then s.countStored else s).timedOut) := by
  cases hl : limitReached s.att s.env.params.retryLimit with
  | true => exact .inr ⟨rfl, by simp [State.takeBusy, h, hl]⟩
  | false => exact .inl ⟨rfl, by simp [State.takeBusy, h, hl]⟩

/-- What a decoded header can do: load the receive registers, and in the two phases that decode one go on
(R206, R212). -/
theorem takeHeader_cases (s : State) (t lo hi len : Byte) :
    let s' := s.putReceived { type := t, cid := hi ++ lo, len := len }
    (s.seq.phase = .decode ∧ s.takeHeader t lo hi len = (s'.setIdx 0#8).setPhase .rxPay) ∨
    (s.seq.phase = .codec ∧ s.takeHeader t lo hi len = s'.completed) ∨
    (s.seq.phase ≠ .decode ∧ s.seq.phase ≠ .codec ∧ s.takeHeader t lo hi len = s') := by
  by_cases h1 : s.seq.phase = .decode
  · exact .inl ⟨h1, by simp only [State.takeHeader, h1]; rfl⟩
  · by_cases h2 : s.seq.phase = .codec
    · exact .inr (.inl ⟨h2, by simp only [State.takeHeader, h2]; rfl⟩)
    · refine .inr (.inr ⟨h1, h2, ?_⟩)
      unfold State.takeHeader
      split
      · exact absurd (by assumption) h1
      · exact absurd (by assumption) h2
      · rfl

/-! ### Host access leaves the block alone -/

/-- A host's register write changes the transmit registers at most (R40). -/
theorem hostWrite_frame (s : State) (n : Byte) (v : Half) :
    s.hostWrite n v = { s with tx := (s.hostWrite n v).tx } := by
  simp only [State.hostWrite, State.writeReg]
  split_ifs <;> rfl

/-- A host's buffer write changes the memory at most (R67, R249). -/
theorem hostBufWrite_frame (s : State) (b : Space) (i : Nat) (v : Byte) :
    s.hostBufWrite b i v = { s with mem := (s.hostBufWrite b i v).mem } := by
  simp only [State.hostBufWrite]
  split_ifs <;> rfl

/-- A host's register read changes only what the host has read and the draws (R77). -/
theorem hostRead_frame (s : State) (n : Byte) :
    s.hostRead n = { s with env := { s.env with
      hostData := (s.hostRead n).env.hostData, draws := (s.hostRead n).env.draws } } := by
  simp only [State.hostRead, State.hostGets, State.hostGetsAny]
  split_ifs <;> rfl

/-- A host's buffer read changes only what the host has read and the draws (R77). -/
theorem hostBufRead_frame (s : State) (b : Space) (i : Nat) :
    s.hostBufRead b i = { s with env := { s.env with
      hostData := (s.hostBufRead b i).env.hostData, draws := (s.hostBufRead b i).env.draws } } := by
  simp only [State.hostBufRead, State.hostGets, State.hostGetsAny]
  split_ifs <;> rfl

/-- The return of `dispatch` empties the line and frees the control loop, no more (R185). -/
theorem dispatchReturned_eq (s : State) :
    s.dispatchReturned = { s with front := { s.front with cur := 0#8, stalled := false } } := rfl

end Sys2Proof.Machine
end

