-- ==== Sys2Proof/Laws/Transaction.lean ====
section
/-! SUPPORT. The steps of DISPATCH that are not loops, and what its loops leave in a whole transaction
(44_orchestrator.md R202 to R208). -/

namespace Sys2Proof.Machine

/-! ### The header buffers -/

/-- A header written to a header buffer changes the memory alone. -/
theorem writeHeader_frame (s : State) (b : Space) (h0 h1 h2 h3 : Byte) :
    s.writeHeader b h0 h1 h2 h3 = { s with mem := (s.writeHeader b h0 h1 h2 h3).mem } :=
  writeRange_frame s b 0 _

/-- The four bytes written, and nothing else. -/
theorem readByte_writeHeader (s : State) {b : Space} (hb : 4 ≤ b.size) (h0 h1 h2 h3 : Byte) (b' : Space)
    (j : Nat) :
    (s.writeHeader b h0 h1 h2 h3).readByte b' j =
      if b' = b ∧ j = 0 then h0
      else if b' = b ∧ j = 1 then h1
      else if b' = b ∧ j = 2 then h2
      else if b' = b ∧ j = 3 then h3
      else s.readByte b' j := by
  have hself := fun k (hk : k < 4) => readByte_writeRange_self (b := b) (a := 0) (k := k)
    (vs := [h0, h1, h2, h3]) hk (by simpa using hb) s
  by_cases hb' : b' = b
  · subst hb'
    by_cases hj : j < 4
    · have h := hself j hj
      rw [Nat.zero_add] at h
      rw [State.writeHeader, h]
      interval_cases j <;> simp
    · have h := readByte_writeRange_other (b := b') (b' := b') (a := 0) (j := j) (vs := [h0, h1, h2, h3])
        (.inr (.inr (by simpa using Nat.le_of_not_lt hj))) s
      rw [State.writeHeader, h]
      simp [show j ≠ 0 by omega, show j ≠ 1 by omega, show j ≠ 2 by omega, show j ≠ 3 by omega]
  · have h := readByte_writeRange_other (b := b) (b' := b') (a := 0) (j := j) (vs := [h0, h1, h2, h3])
      (.inl hb') s
    rw [State.writeHeader, h]
    simp [hb']

/-- ENC_HDR's effect on the bytes (R160). -/
theorem readByte_encodeToTxh (s : State) (b : Space) (j : Nat) :
    s.encodeToTxh.readByte b j =
      if b = .txh ∧ j = 0 then s.tx.type
      else if b = .txh ∧ j = 1 then s.tx.cid.extractLsb' 0 8
      else if b = .txh ∧ j = 2 then s.tx.cid.extractLsb' 8 8
      else if b = .txh ∧ j = 3 then s.tx.len
      else s.readByte b j :=
  readByte_writeHeader s (by decide) _ _ _ _ b j

/-- ENC_HDR changes the memory alone (R160, R167). -/
theorem encodeToTxh_frame (s : State) : s.encodeToTxh = { s with mem := s.encodeToTxh.mem } :=
  writeHeader_frame s .txh _ _ _ _

/-- The state with the request's fields in the transmit registers (R202). -/
def State.requestFields (s : State) (l : Byte) : State :=
  { s with tx := { type := Config.tagCommand, cid := 0#16, len := l } }

/-- Building the request writes the transmit registers and the two header buffers (R202). -/
theorem buildRequest_frame (s : State) (l : Byte) :
    s.buildRequest l =
      { s with
        tx := { type := Config.tagCommand, cid := 0#16, len := l }
        mem := (s.buildRequest l).mem } := by
  have h1 : s.buildRequest l = (s.requestFields l).encodeToTxh.writeHeader .rxh 0#8 0#8 0#8 0#8 := rfl
  rw [h1, writeHeader_frame]
  conv_lhs => rw [encodeToTxh_frame]
  rfl

/-- The bytes of the request header, the cleared `RXH`, and nothing else (R202). -/
theorem readByte_buildRequest (s : State) (l : Byte) (b : Space) (j : Nat) :
    (s.buildRequest l).readByte b j =
      if b = .rxh ∧ j < 4 then 0#8
      else if b = .txh ∧ j = 0 then Config.tagCommand
      else if b = .txh ∧ j = 1 then 0#8
      else if b = .txh ∧ j = 2 then 0#8
      else if b = .txh ∧ j = 3 then l
      else s.readByte b j := by
  have h1 : s.buildRequest l = (s.requestFields l).encodeToTxh.writeHeader .rxh 0#8 0#8 0#8 0#8 := rfl
  rw [h1, readByte_writeHeader _ (by decide), readByte_encodeToTxh]
  by_cases hb : b = .rxh
  · subst hb
    by_cases hj : j < 4
    · interval_cases j <;> simp
    · simp [hj, show j ≠ 0 by omega, show j ≠ 1 by omega, show j ≠ 2 by omega, show j ≠ 3 by omega]
      exact readByte_congr rfl rfl _ _
  · have hr : (s.requestFields l).readByte b j = s.readByte b j := readByte_congr rfl rfl b j
    have h0 : (0#16).extractLsb' 0 8 = 0#8 := by decide
    have h8 : (0#16).extractLsb' 8 8 = 0#8 := by decide
    simp only [hb, false_and, if_false, hr]
    simp only [State.requestFields, h0, h8]

/-! ### The parts of a transaction -/

/-- The sync poll that finds `0x20` keeps it in `RXH[0]` (R204). -/
theorem syncPoll_done {s : State} {as : List (Nat × Byte)} {k fuel : Nat} {rest : List Byte}
    (hfuel : s.env.peer.length = as.length + (fuel + 1))
    (hans : AnsweredWithin s.env.params.retryLimit as) (hne : ∀ a ∈ as, a.2 ≠ Config.tagResponse)
    (hlim : PollsWithin s.env.params.syncLimit 0 as.length)
    (hk : ∀ n, s.env.params.retryLimit = some n → k < n ∨ k = 0)
    (hp : s.env.peer = allAnswers (as ++ [(k, Config.tagResponse)]) ++ rest) :
    syncPoll s = .done ()
      (((s.setPolls 0).polled (as ++ [(k, Config.tagResponse)]) rest).writeByte .rxh 0
        Config.tagResponse) := by
  have h := pollLoop_sync (as := as) k fuel rest (s := s.setPolls 0) hans hne hlim hk hp
  rw [syncPoll, hfuel, h]
  rfl

/-- The payload receive counts the bytes it stored, however it ends (R207, R247). -/
theorem recvPayload_eq (max : Nat) (s : State) :
    recvPayload max s =
      match recvBytes .rxp 0 max s with
      | .done _ t => .done () t.countStored
      | .timeout t => .timeout t.countStored
      | .waiting => .waiting := rfl

/-- The terminator and the report `SHORT`: what step 7 does to the bytes (R208). -/
theorem readByte_terminate {s : State} (b : Space) (j : Nat) :
    s.terminate.readByte b j =
      if b = .rxp ∧ j = s.rx.cnt.toNat then 0#8 else s.readByte b j := by
  have hsize : s.rx.cnt.toNat < Space.rxp.size := s.rx.cnt.isLt
  have h : s.terminate.readByte b j = (s.writeByte .rxp s.rx.cnt.toNat 0#8).readByte b j := by
    simp only [State.terminate]
    split_ifs <;> rfl
  rw [h]
  split_ifs with hb
  · obtain ⟨rfl, rfl⟩ := hb
    exact readByte_writeByte_self hsize _ _
  · exact readByte_writeByte_other (by tauto) _ _

/-- Step 7 changes the memory and `STATUS` alone (R208). -/
theorem terminate_frame (s : State) :
    s.terminate =
      { s with
        ctl := { s.ctl with
          status := if s.rx.cnt < s.rx.len then s.ctl.status ||| bitShort else s.ctl.status }
        mem := s.mem.write .rxp s.rx.cnt.toNat 0#8 } := by
  simp only [State.terminate]
  split_ifs <;> rfl

/-- Rendering the reply appends one record, no more (R189). -/
theorem reportReply_eq (s : State) :
    s.reportReply =
      { s with front := { s.front with rendered := s.front.rendered ++ [s.renderReply] } } := rfl

/-- The terminator lies after the text, so the record is that of the reply before step 7 (R189, R208). -/
theorem renderReply_terminate (s : State) : s.terminate.renderReply = s.renderReply := by
  have htext : s.terminate.readRange .rxp 0 s.rx.cnt.toNat = s.readRange .rxp 0 s.rx.cnt.toNat := by
    refine List.ext_getElem (by simp) fun k h _ => ?_
    have hk : k < s.rx.cnt.toNat := by simpa using h
    rw [readRange_getElem, readRange_getElem, readByte_terminate, if_neg (by omega)]
  rw [terminate_frame] at htext ⊢
  simp only [State.renderReply, htext]

/-- The whole of step 7: the terminator, `SHORT`, and the record of the reply (R189, R208). -/
theorem reportReply_terminate (s : State) :
    s.terminate.reportReply =
      { s with
        ctl := { s.ctl with
          status := if s.rx.cnt < s.rx.len then s.ctl.status ||| bitShort else s.ctl.status }
        mem := s.mem.write .rxp s.rx.cnt.toNat 0#8
        front := { s.front with rendered := s.front.rendered ++ [s.renderReply] } } := by
  rw [reportReply_eq, renderReply_terminate, terminate_frame]

/-- Step 5's report changes `STATUS` alone (R205). -/
theorem markShortHeader_frame (s : State) :
    s.markShortHeader =
      { s with ctl := { s.ctl with
          status := if s.seq.idx.toNat < 3 then s.ctl.status ||| bitHdrShort else s.ctl.status } } := by
  simp only [State.markShortHeader]
  split_ifs <;> rfl

/-- DISPATCH is the reset request or a transaction (R213). -/
theorem dispatchBody_cases (l : Byte) (s : State) :
    (s.commandString l = s.env.params.resetKeyword ∧ dispatchBody l s = some s.sysResetRequested) ∨
    (s.commandString l ≠ s.env.params.resetKeyword ∧
      dispatchBody l s = (transaction l (s.buildRequest l)).outcome) := by
  by_cases h : s.commandString l = s.env.params.resetKeyword
  · exact .inl ⟨h, by simp [dispatchBody, State.isResetKeyword, h]⟩
  · exact .inr ⟨h, by simp [dispatchBody, State.isResetKeyword, h]⟩

end Sys2Proof.Machine
end

