-- ==== Sys2Proof/Tests/Slice0.lean ====
section
/-! SUPPORT. The model's own tests: ill-formed items refused, words of the spec decoded, one step or one operation
for each row against the vectors of spec/95_test_vectors.md, and for every obligation with hypotheses a state that
meets them. Every expected value is the spec's. -/

namespace Sys2Proof.Tests

open Sys2Proof.Machine

/-! ### A small state -/

/-- The parameters the vectors of the spec choose (95_test_vectors.md). -/
def vectorParams : Params where
  filler := 0xFF#8
  retryLimit := none
  syncLimit := none
  resetKeyword := [0x72#8, 0x65#8, 0x73#8, 0x65#8, 0x74#8]
  newlineEcho := [0x0D#8, 0x0A#8]
  tPace := 1
  tPoll := 2

/-- The state after reset with those parameters. -/
def start : State := { State.reset with env := { State.reset.env with params := vectorParams } }

/-- The peer's answers fixed ahead. -/
def hearing (peer : List Byte) : State := { start with env := { start.env with peer := peer } }

/-- The same with a finite `RETRY_LIMIT`. -/
def hearingWithin (n : Nat) (peer : List Byte) : State :=
  { start with env := { start.env with
      peer := peer, params := { vectorParams with retryLimit := some n } } }

/-- What the outside world does next. -/
def asked (s : State) (inbox : List Input) : State := { s with env := { s.env with inbox := inbox } }

/-- Bytes standing in `TXP` from index 0 on. -/
def commanded (s : State) (bytes : List Byte) : State := s.writeRange .txp 0 bytes

/-- A phase of an operation that runs, with the word that started it. -/
def inPhase (s : State) (word : Half) (p : Phase) (i : Byte) (e : ByteEngine) : State :=
  { s with
    ctl := { s.ctl with cmd := word, status := 0x01#8 }
    seq := { phase := p, idx := i, be := e } }

/-- The console line so far. -/
def typed (bytes : List Byte) : State :=
  { start.writeRange .cmdbuf 0 bytes with
    front := { start.front with cur := BitVec.ofNat 8 bytes.length } }

/-- The state an outcome leaves; a stop leaves the reset state, which no test below expects. -/
def after (o : Host.Outcome State Fault Refusal) : State :=
  match o with
  | .next t => t
  | _ => State.reset

/-- One attempt in a trace. -/
def tried (t r : Byte) : List LinkEvent := [.assert, .xchg t r, .deassert]

/-! ### Well-formedness: one ill-formed item for each check -/

theorem test_wf_refuses_legal_word : ¬ WellFormed (.opwIllegal 0x0141#16) :=
  show ¬ ReservedWord 0x0141#16 by decide

theorem test_wf_takes_reserved_words :
    WellFormed (.opwIllegal 0x0000#16) ∧ WellFormed (.opwIllegal 0x0800#16) ∧
      WellFormed (.opwIllegal 0x1704#16) :=
  show ReservedWord 0x0000#16 ∧ ReservedWord 0x0800#16 ∧ ReservedWord 0x1704#16 by decide

theorem test_wf_refuses_known_type : ¬ WellFormed (.hdrUnrecognized 0x20#8 0#8 0#8 0#8) :=
  show ¬ ¬ RecognizedType 0x20#8 by decide

theorem test_wf_refuses_sentinel_data :
    ¬ WellFormed (.wbData 0xFE#8) ∧ ¬ WellFormed (.wbData 0xFF#8) ∧ ¬ WellFormed (.wbData 0x20#8) := by
  simp [WellFormed, Config.busy, Config.endOfData, Config.tagResponse]

theorem test_wf_refuses_control_byte :
    ¬ WellFormed (.conOther 0x0D#8) ∧ ¬ WellFormed (.conOther 0x0A#8) ∧
      ¬ WellFormed (.conOther 0x08#8) :=
  show ¬ ¬ ControlByte 0x0D#8 ∧ ¬ ¬ ControlByte 0x0A#8 ∧ ¬ ¬ ControlByte 0x08#8 by decide

/-! ### Decoding: words written out from the encoding tables (R91 to R95, R102, R181, R108) -/

theorem test_decode_operations :
    decode (.opw 0b0000000101000001#16) = .sendByte 0x41#8 ∧
    decode (.opw 0b0000001000000110#16) = .sendBytes 6#8 ∧
    decode (.opw 0b0000001110100101#16) = .recvByte ∧
    decode (.opw 0b0000010000000011#16) = .recvBytes 3#8 ∧
    decode (.opw 0b0000010100000000#16) = .encHdr ∧
    decode (.opw 0b0000011000000000#16) = .decHdr ∧
    decode (.opw 0b0000011100000100#16) = .dispatch 4#8 := by
  decide

theorem test_decode_illegal :
    decode (.opw 0b0000100000000000#16) = .opwIllegal 0x0800#16 ∧
    decode (.opw 0b0000111100010010#16) = .opwIllegal 0x0F12#16 ∧
    decode (.opw 0b0001011100000100#16) = .opwIllegal 0x1704#16 ∧
    decode (.opw 0b1000000101000001#16) = .opwIllegal 0x8141#16 := by
  decide

theorem test_decode_headers :
    decode (.hdr 0b00010000000000000000000000000100#32) = .hdrCommand 0#8 0#8 4#8 ∧
    decode (.hdr 0b00100000000000010000000000000010#32) = .hdrResponse 1#8 0#8 2#8 ∧
    decode (.hdr 0b01000000111011111011111011111111#32) = .hdrAlert 0xEF#8 0xBE#8 0xFF#8 ∧
    decode (.hdr 0b10000000001101000001001000000111#32) = .hdrError 0x34#8 0x12#8 0x07#8 ∧
    decode (.hdr 0b00110000000000000000000000000000#32) = .hdrUnrecognized 0x30#8 0#8 0#8 0#8 := by
  decide

theorem test_decode_returned_bytes :
    decode (.wb 0b11111110#8) = .wbBusy ∧ decode (.wb 0b11111111#8) = .wbEndOfData ∧
    decode (.wb 0b00100000#8) = .wbSync ∧ decode (.wb 0b11111101#8) = .wbData 0xFD#8 := by
  decide

theorem test_decode_console_bytes :
    decode (.con 0b00001101#8) = .conCr ∧ decode (.con 0b00001010#8) = .conLf ∧
    decode (.con 0b00001000#8) = .conBs ∧ decode (.con 0b01111111#8) = .conOther 0x7F#8 ∧
    decode (.con 0b00000000#8) = .conOther 0x00#8 := by
  decide

theorem test_table_words :
    decodeTableWord 16 0x0704 = some (.dispatch 4#8) ∧
    decodeTableWord 32 0x20010002 = some (.hdrResponse 1#8 0#8 2#8) ∧
    decodeTableWord 8 0xFE = some .wbBusy ∧ decodeTableWord 8 0x0D = some .conCr ∧
    decodeTableWord 12 0 = none := by
  decide

/-- Each format's word, placed by `withFetchWord`, is the item the next step runs (log 15). -/
theorem test_fetch_word :
    (start.withFetchWord 16 0x0141).turn =
      .run (.sendByte 0x41#8) { start.toIdle with ctl := { start.ctl with status := 0#8 } } ∧
    (∃ s, (start.withFetchWord 32 0x20010002).turn = .run (.hdrResponse 1#8 0#8 2#8) s) ∧
    (∃ s, (start.withFetchWord 8 0x20).turn = .run .wbSync s) ∧
    (∃ s, (start.withFetchWord 8 0x08).turn = .run .conBs s) :=
  ⟨by decide, ⟨_, rfl⟩, ⟨_, rfl⟩, ⟨_, rfl⟩⟩

/-! ### The operations -/

/-- Vector T2. -/
theorem test_send_byte_retries :
    (after (exec (.sendByte 0x41#8) (hearing [0xFE#8, 0xFE#8, 0x00#8]))).trace =
      tried 0x41#8 0xFE#8 ++ [.delayPace] ++ tried 0x41#8 0xFE#8 ++ [.delayPace] ++
        tried 0x41#8 0x00#8 := by
  decide

/-- Vector T4. -/
theorem test_send_byte_times_out :
    (after (exec (.sendByte 0x41#8) (hearingWithin 3 [0xFE#8, 0xFE#8, 0xFE#8]))).ctl.status = 0x22#8 := by
  decide

/-- Vector T7. -/
theorem test_send_bytes :
    (after (exec (.sendBytes 2#8) (commanded (hearing [0x00#8, 0xFE#8, 0x00#8]) [0x10#8, 0x00#8]))).trace =
      tried 0x10#8 0x00#8 ++ tried 0x00#8 0xFE#8 ++ [.delayPace] ++ tried 0x00#8 0x00#8 := by
  decide

/-- Vector T9. -/
theorem test_recv_byte_takes_sentinel :
    let t := after (exec .recvByte (hearing [0xFF#8]))
    t.link.rxb = 0xFF#8 ∧ t.ctl.status = 0x02#8 := by
  decide

/-- Vector T10. -/
theorem test_recv_bytes_sentinel :
    let t := after (exec (.recvBytes 4#8) (hearing [0x6F#8, 0xFE#8, 0x6B#8, 0xFF#8]))
    t.mem.rxp = [(0, 0x6F#8), (1, 0x6B#8)] ∧ t.rx.cnt = 2#8 ∧ t.ctl.status = 0x06#8 := by
  decide

/-- Vector T17. -/
theorem test_recv_bytes_timeout :
    let t := after (exec (.recvBytes 2#8) (hearingWithin 2 [0x11#8, 0xFE#8, 0xFE#8]))
    t.mem.rxp = [(0, 0x11#8)] ∧ t.rx.cnt = 1#8 ∧ t.ctl.status = 0x22#8 := by
  decide

/-- Vector CV3. -/
theorem test_enc_hdr :
    (after (exec .encHdr
      { start with tx := { type := 0x40#8, cid := 0xBEEF#16, len := 0xFF#8 } })).readRange .txh 0 4 =
      [0x40#8, 0xEF#8, 0xBE#8, 0xFF#8] := by
  decide

/-- Vector CV8. -/
theorem test_dec_hdr :
    (after (exec .decHdr (start.writeHeader .rxh 0x40#8 0xEF#8 0xBE#8 0xFF#8))).rx =
      { type := 0x40#8, cid := 0xBEEF#16, len := 0xFF#8, cnt := 0#8 } := by
  decide

/-- Vector O10: a length byte `0xFE` is taken as `BUSY`. -/
theorem test_dispatch_busy_length :
    let t := after (exec (.dispatch 1#8) (commanded (hearing
      [0#8, 0#8, 0#8, 0#8, 0#8, 0x20#8, 0x01#8, 0x00#8, 0xFE#8, 0x61#8, 0x62#8, 0xFF#8]) [0x78#8]))
    t.rx = { type := 0x20#8, cid := 1#16, len := 0x61#8, cnt := 1#8 } ∧ t.ctl.status = 0x16#8 ∧
      t.mem.rxp = [(0, 0x62#8), (1, 0x00#8)] := by
  decide

/-- Program P3: the host writes the word to `CMD`, and the reply is rendered "as-is with the shorter content". -/
theorem test_host_dispatch_is_rendered :
    let t := after (step (asked (commanded (hearing
      [0xFE#8, 0x00#8, 0x00#8, 0x00#8, 0x00#8, 0x00#8, 0xFE#8, 0x00#8, 0xFE#8, 0xFF#8, 0x40#8, 0x20#8,
        0x07#8, 0xFE#8, 0x00#8, 0x05#8, 0x4F#8, 0x4B#8, 0xFF#8]) [0x41#8, 0x54#8])
      [.hostWrite 0x00#8 0x0702#16]))
    t.front.rendered = [{ type := 0x20#8, cid := 7#16, len := 5#8, text := [0x4F#8, 0x4B#8] }] ∧
      t.ctl.status = 0x16#8 := by
  decide

/-- Program P4, step 2. -/
theorem test_dispatch_reset_keyword :
    let t := after (exec (.dispatch 5#8) (commanded start [0x72#8, 0x65#8, 0x73#8, 0x65#8, 0x74#8]))
    t.trace = [.sysReset] ∧ t.ctl = { cmd := 0x0705#16, status := 0x01#8, sysrstReq := true } := by
  decide

/-- The vector of word `0x0000`. -/
theorem test_illegal_word :
    (after (exec (.opwIllegal 0x0000#16) start)).ctl = { start.ctl with status := 0x42#8 } := by
  decide

/-! ### Headers, returned bytes, console bytes -/

theorem test_header_rows :
    let s := inPhase start 0x0701#16 .decode 3#8 .idle
    (after (exec (.hdrCommand 0x00#8 0x01#8 0x00#8) s)).rx.cid = 0x0100#16 ∧
    (after (exec (.hdrResponse 0x01#8 0x00#8 0x02#8) s)).rx =
      { type := 0x20#8, cid := 1#16, len := 2#8, cnt := 0#8 } ∧
    (after (exec (.hdrAlert 0xEF#8 0xBE#8 0xFF#8) s)).rx.type = 0x40#8 ∧
    (after (exec (.hdrError 0x34#8 0x12#8 0x07#8) s)).rx.len = 7#8 ∧
    (after (exec (.hdrUnrecognized 0xFE#8 0xFF#8 0xFF#8 0xFE#8) s)).rx =
      { type := 0xFE#8, cid := 0xFFFF#16, len := 0xFE#8, cnt := 0#8 } := by
  decide

/-- The sync poll takes `0x20` and discards `0xFF` (vector O12); a payload stores `0x20` (R204, R207). -/
theorem test_returned_byte_rows :
    let poll := inPhase start 0x0701#16 .pollRx 0#8 .check
    let pay := { inPhase start 0x0701#16 .rxPay 1#8 .check with rx := { start.rx with len := 4#8 } }
    (after (exec .wbSync poll)).seq = { phase := .rxHdr, idx := 0#8, be := .idle } ∧
    (after (exec .wbSync pay)).mem.rxp = [(1, 0x20#8)] ∧
    (after (exec .wbEndOfData poll)).seq.phase = .pollWait ∧
    (after (exec .wbEndOfData pay)).seq.phase = .term ∧
    (after (exec (.wbData 0x40#8) poll)).seq.phase = .pollWait ∧
    (after (exec (.wbData 0x61#8) pay)).seq.idx = 2#8 ∧
    (after (exec .wbBusy pay)).seq.be = .pace := by
  decide

/-- Vectors F2, F4 and one line of F5. -/
theorem test_console_rows :
    after (exec .conCr start) = start ∧ after (exec .conLf start) = start ∧
    after (exec .conBs start) = start ∧
    (after (exec .conBs (typed [0x61#8]))).front.console = [0x08#8, 0x20#8, 0x08#8] ∧
    (after (exec (.conOther 0x61#8) start)).front =
      { start.front with cur := 1#8, console := [0x61#8] } := by
  decide

/-- Vector F3: the line end dispatches `"ab"` with `L = 2`, seen at the sequencer level. -/
theorem test_line_end_dispatches :
    let t := after (exec .conCr ((typed [0x61#8, 0x62#8]).atLevel .sequencer))
    t.ctl.cmd = 0x0702#16 ∧ t.mem.txp = [(0, 0x61#8), (1, 0x62#8)] ∧
      after (exec .conLf ((typed [0x61#8, 0x62#8]).atLevel .sequencer)) = t := by
  decide

/-- A write keeps the canonical form and a zero in `RXH` is not listed (log 7). -/
theorem test_memory_form :
    ((start.writeByte .rxh 2 0x09#8).writeByte .rxh 2 0x00#8).mem = start.mem ∧
    (start.writeByte .txp 255 0x01#8).mem = start.mem ∧
    ((start.writeByte .txp 254 0x00#8).writeByte .txp 0 0x00#8).mem.txp = [(0, 0#8), (254, 0#8)] := by
  decide

/-! ### A state that meets the hypotheses of each obligation that has some -/

/-- StepRunsTheDecodedItem: one state for each clause. -/
theorem test_meets_stepRunsTheDecodedItem :
    (∃ later, (asked start [.hostWrite 0x00#8 0x0500#16]).env.inbox = .hostWrite regCmd 0x0500#16 :: later ∧
      (asked start [.hostWrite 0x00#8 0x0500#16]).returnDue = false) ∧
    (∃ later, (asked start [.console 0x08#8]).env.inbox = .console 0x08#8 :: later ∧
      (asked start [.console 0x08#8]).hostBusy = false) ∧
    (let s := inPhase start 0x0300#16 .recv 0#8 .check
     s.env.inbox = [] ∧ s.seq.phase.usesEngine = true ∧ s.seq.be = .check) ∧
    (let s := inPhase start 0x0704#16 .decode 3#8 .idle
     s.env.inbox = [] ∧ s.seq.phase = .decode) ∧
    (let s := inPhase start 0x0600#16 .codec 0#8 .idle
     s.env.inbox = [] ∧ s.seq.phase = .codec ∧ s.op = 6#4) :=
  ⟨⟨[], by decide⟩, ⟨[], by decide⟩, by decide, by decide, by decide⟩

/-- DecodeOfEncodeIsIdentity: a boundary operand of each checked row. -/
theorem test_meets_decodeOfEncodeIsIdentity :
    WellFormed (.opwIllegal 0x00FF#16) ∧ WellFormed (.opwIllegal 0x08FF#16) ∧
    WellFormed (.hdrUnrecognized 0x30#8 0xFF#8 0xFF#8 0xFF#8) ∧ WellFormed (.wbData 0xFD#8) ∧
    WellFormed (.conOther 0x00#8) :=
  ⟨show ReservedWord 0x00FF#16 by decide, show ReservedWord 0x08FF#16 by decide,
    show ¬ RecognizedType 0x30#8 by decide,
    show 0xFD#8 ≠ Config.busy ∧ 0xFD#8 ≠ Config.endOfData ∧ 0xFD#8 ≠ Config.tagResponse by decide,
    show ¬ ControlByte 0x00#8 by decide⟩

/-- OperationRowsByMask: a word of each row, the operand at its largest. -/
theorem test_meets_operationRowsByMask :
    0x01FF#16 &&& 0xFF00#16 = 0x0100#16 ∧ 0x02FF#16 &&& 0xFF00#16 = 0x0200#16 ∧
    0x03FF#16 &&& 0xFF00#16 = 0x0300#16 ∧ 0x04FF#16 &&& 0xFF00#16 = 0x0400#16 ∧
    0x05FF#16 &&& 0xFF00#16 = 0x0500#16 ∧ 0x06FF#16 &&& 0xFF00#16 = 0x0600#16 ∧
    0x07FF#16 &&& 0xFF00#16 = 0x0700#16 := by
  decide

/-- ReservedWordsAreIllegal: the words next to the legal ones, a legal word, an idle block. -/
theorem test_meets_reservedWordsAreIllegal :
    ReservedWord 0x00FF#16 ∧ ReservedWord 0x0800#16 ∧ ReservedWord 0x1700#16 ∧
    ¬ ReservedWord 0x0100#16 ∧ ¬ ReservedWord 0x07FF#16 ∧ start.active = false := by
  decide

/-- HeaderRowsByWholeType and TypeClassification: a type byte that is no tag. -/
theorem test_meets_headerRowsByWholeType :
    0x30#8 ≠ 0x10#8 ∧ 0x30#8 ≠ 0x20#8 ∧ 0x30#8 ≠ 0x40#8 ∧ 0x30#8 ≠ 0x80#8 := by
  decide

/-- TypeClassification: a state for each value of `RX_TYPE` named. -/
theorem test_meets_typeClassification :
    ({ start with rx := { start.rx with type := 0x10#8 } }).rx.type = 0x10#8 ∧
    ({ start with rx := { start.rx with type := 0x20#8 } }).rx.type = 0x20#8 ∧
    ({ start with rx := { start.rx with type := 0x40#8 } }).rx.type = 0x40#8 ∧
    ({ start with rx := { start.rx with type := 0x80#8 } }).rx.type = 0x80#8 ∧
    start.rx.type ≠ 0x10#8 ∧ start.rx.type ≠ 0x20#8 ∧ start.rx.type ≠ 0x40#8 ∧
    start.rx.type ≠ 0x80#8 := by
  decide

/-- EncHdrEncodes, DecHdrDecodes and FlagsAreNeverRead. -/
theorem test_meets_idle_operation_level :
    start.active = false ∧ start.env.level = .operation ∧ isOperation .encHdr = true ∧
    flagSet 0x7E#8 bitActive = false := by
  decide

/-- HeaderItemsLoadReceiveRegisters. -/
theorem test_meets_headerItems :
    ¬ RecognizedType 0x30#8 ∧ (inPhase start 0x0701#16 .decode 3#8 .idle).seq.phase = .decode ∧
    (inPhase start 0x0600#16 .codec 0#8 .idle).seq.phase = .codec ∧
    (inPhase start 0x0600#16 .codec 0#8 .idle).ctl.status = 0x01#8 := by
  decide

/-- SequencerLevelAccepts. -/
theorem test_meets_sequencerLevelAccepts :
    (start.atLevel .sequencer).active = false ∧ (start.atLevel .sequencer).env.level = .sequencer := by
  decide

/-- HostWritesRefusedWhileActive: writes to `CMD`, to a register and to a buffer, in `P_RESETREQ`. -/
theorem test_meets_hostWritesRefused :
    let s := inPhase start 0x0705#16 .resetReq 0#8 .idle
    s.active = true ∧ s.seq.phase ≠ .idle ∧
    (asked s [.hostWrite 0x00#8 0x0000#16]).env.inbox = .hostWrite 0x00#8 0x0000#16 :: [] ∧
    (asked s [.bufWrite .rxh 3 0x01#8]).env.inbox = .bufWrite .rxh 3 0x01#8 :: [] := by
  decide

/-- SendByteCompletes: no retry, and two retries just below a limit of three. -/
theorem test_meets_sendByteCompletes :
    ((hearing [0x00#8]).active = false ∧ (hearing [0x00#8]).env.level = .operation ∧
      Answered (hearing [0x00#8]).env.params.retryLimit [(0, 0x00#8)] ∧
      (hearing [0x00#8]).env.peer = byteAnswers (0, 0x00#8) ++ []) ∧
    (let s := hearingWithin 3 [0xFE#8, 0xFE#8, 0xFF#8, 0x01#8]
     s.active = false ∧ s.env.level = .operation ∧
      Answered s.env.params.retryLimit [(2, 0xFF#8)] ∧
      s.env.peer = byteAnswers (2, 0xFF#8) ++ [0x01#8]) :=
  ⟨⟨by decide, by decide, by simp [Answered, Config.busy, hearing, start, vectorParams], by decide⟩,
    by decide, by decide, by simp [Answered, Config.busy, hearingWithin], by decide⟩

/-- SendByteTimesOut: the least limit and one above it. -/
theorem test_meets_sendByteTimesOut :
    let s := hearingWithin 1 [0xFE#8, 0x00#8]
    let t := hearingWithin 2 [0xFE#8, 0xFE#8]
    s.active = false ∧ s.env.level = .operation ∧ s.env.params.retryLimit = some 1 ∧
    s.env.peer = List.replicate 1 Config.busy ++ [0x00#8] ∧
    t.active = false ∧ t.env.level = .operation ∧ t.env.params.retryLimit = some 2 ∧
    t.env.peer = List.replicate 2 Config.busy ++ [] := by
  decide

/-- BusyPeerBlocksForEver. -/
theorem test_meets_busyPeerBlocksForEver :
    let s := inPhase (hearing [0xFE#8, 0x00#8]) 0x0141#16 .send 0#8 .assert
    s.env.params.retryLimit = none ∧ s.env.inbox = [] ∧ s.seq.phase.usesEngine = true ∧
    s.seq.be = .assert ∧ s.env.peer = List.replicate (0 + 1) Config.busy ++ [0x00#8] := by
  decide

/-- SendBytesCompletes: no byte and two bytes. -/
theorem test_meets_sendBytesCompletes :
    ((hearing []).active = false ∧ (hearing []).env.level = .operation ∧
      ([] : List (Nat × Byte)).length = (0#8).toNat ∧
      Answered (hearing []).env.params.retryLimit [] ∧ (hearing []).env.peer = allAnswers [] ++ []) ∧
    (let s := hearing [0x00#8, 0xFE#8, 0xFF#8]
     s.active = false ∧ s.env.level = .operation ∧
      [(0, 0x00#8), (1, 0xFF#8)].length = (2#8).toNat ∧
      Answered s.env.params.retryLimit [(0, 0x00#8), (1, 0xFF#8)] ∧
      s.env.peer = allAnswers [(0, 0x00#8), (1, 0xFF#8)] ++ []) :=
  ⟨⟨by decide, by decide, by decide, by simp [Answered], by decide⟩, by decide, by decide, by decide,
    by simp [Answered, Config.busy, hearing, start, vectorParams], by decide⟩

/-- RecvByteCompletes: the sentinel is a result. -/
theorem test_meets_recvByteCompletes :
    let s := hearing [0xFE#8, 0xFF#8]
    s.active = false ∧ s.env.level = .operation ∧ Answered s.env.params.retryLimit [(1, 0xFF#8)] ∧
    s.env.peer = byteAnswers (1, 0xFF#8) ++ [] :=
  ⟨by decide, by decide, by simp [Answered, Config.busy, hearing, start, vectorParams], by decide⟩

/-- RecvBytesStoresAll: no byte and two bytes. -/
theorem test_meets_recvBytesStoresAll :
    ((hearing [0x11#8]).active = false ∧ (hearing [0x11#8]).env.level = .operation ∧
      ([] : List (Nat × Byte)).length = (0#8).toNat ∧
      Answered (hearing [0x11#8]).env.params.retryLimit [] ∧
      (hearing [0x11#8]).env.peer = allAnswers [] ++ [0x11#8]) ∧
    (let s := hearing [0xFE#8, 0xAA#8, 0xBB#8, 0xFF#8]
     s.active = false ∧ s.env.level = .operation ∧
      [(1, 0xAA#8), (0, 0xBB#8)].length = (2#8).toNat ∧
      Answered s.env.params.retryLimit [(1, 0xAA#8), (0, 0xBB#8)] ∧
      (∀ a ∈ [(1, 0xAA#8), (0, 0xBB#8)], a.2 ≠ 0xFF#8) ∧
      s.env.peer = allAnswers [(1, 0xAA#8), (0, 0xBB#8)] ++ [0xFF#8]) :=
  ⟨⟨by decide, by decide, by decide, by simp [Answered], by decide⟩, by decide, by decide, by decide,
    by simp [Answered, Config.busy, hearing, start, vectorParams], by simp, by decide⟩

/-- RecvBytesEndsOnSentinel: at once, and after one byte, one short of `m`. -/
theorem test_meets_recvBytesEndsOnSentinel :
    (let s := hearing [0xFF#8]
     s.active = false ∧ s.env.level = .operation ∧ ([] : List (Nat × Byte)).length < (1#8).toNat ∧
      Answered s.env.params.retryLimit ([] ++ [(0, 0xFF#8)]) ∧
      s.env.peer = allAnswers ([] ++ [(0, 0xFF#8)]) ++ []) ∧
    (let s := hearing [0x20#8, 0xFE#8, 0xFF#8, 0x01#8]
     s.active = false ∧ s.env.level = .operation ∧ [(0, 0x20#8)].length < (2#8).toNat ∧
      Answered s.env.params.retryLimit ([(0, 0x20#8)] ++ [(1, 0xFF#8)]) ∧
      (∀ a ∈ [(0, 0x20#8)], a.2 ≠ 0xFF#8) ∧
      s.env.peer = allAnswers ([(0, 0x20#8)] ++ [(1, 0xFF#8)]) ++ [0x01#8]) :=
  ⟨⟨by decide, by decide, by decide, by simp [Answered, Config.busy, hearing, start, vectorParams],
      by decide⟩, by decide, by decide, by decide,
    by simp [Answered, Config.busy, hearing, start, vectorParams], by simp, by decide⟩

/-- RecvBytesTimeoutKeepsStored. -/
theorem test_meets_recvBytesTimeoutKeepsStored :
    let s := hearingWithin 2 [0x11#8, 0xFE#8, 0xFE#8, 0x07#8]
    s.active = false ∧ s.env.level = .operation ∧ [(0, 0x11#8)].length < (2#8).toNat ∧
    s.env.params.retryLimit = some 2 ∧ Answered (some 2) [(0, 0x11#8)] ∧
    (∀ a ∈ [(0, 0x11#8)], a.2 ≠ 0xFF#8) ∧
    s.env.peer = allAnswers [(0, 0x11#8)] ++ List.replicate 2 Config.busy ++ [0x07#8] :=
  ⟨by decide, by decide, by decide, by decide, by simp [Answered, Config.busy], by simp, by decide⟩

/-- ReceivedBytesPrecedeTheSentinel and ReceiveBytesFrame. -/
theorem test_meets_receivedBytesPrecedeTheSentinel :
    let s := hearing [0x6F#8, 0xFE#8, 0x6B#8, 0xFF#8]
    let t := after (exec (.recvBytes 4#8) s)
    s.active = false ∧ s.env.level = .operation ∧ exec (.recvBytes 4#8) s = .next t ∧
    t.active = false ∧ flagSet t.ctl.status bitTimeout = false :=
  ⟨by decide, by decide, rfl, by decide, by decide⟩

/-- TransceiverEndsIffAnswered, with too few answers for SEND_BYTES, and SendAndReceiveByteFrame. -/
theorem test_meets_transceiverEndsIffAnswered :
    let s := hearing [0xFE#8, 0x01#8]
    s.active = false ∧ s.env.level = .operation ∧ s.env.params.retryLimit = none ∧
    exec (.sendByte 2#8) s = .next (after (exec (.sendByte 2#8) s)) ∧
    exec (.sendBytes 2#8) s = .next (after (exec (.sendBytes 2#8) s)) ∧
    exec .recvByte s = .next (after (exec .recvByte s)) ∧
    exec (.recvBytes 2#8) s = .next (after (exec (.recvBytes 2#8) s)) :=
  ⟨by decide, by decide, by decide, rfl, rfl, rfl, rfl⟩

/-- DispatchOfKeywordRequestsReset. -/
theorem test_meets_dispatchOfKeyword :
    let s := commanded start [0x72#8, 0x65#8, 0x73#8, 0x65#8, 0x74#8]
    s.active = false ∧ s.env.level = .operation ∧ s.commandString 5#8 = s.env.params.resetKeyword := by
  decide

/-- The state a dispatch of the keyword leaves. -/
def requesting : State :=
  { inPhase start 0x0705#16 .resetReq 0#8 .idle with
    ctl := { cmd := 0x0705#16, status := 0x01#8, sysrstReq := true }, trace := [.sysReset] }

/-- ResetRequestLastsUntilReset: it meets the invariant, a host's write comes, and the step goes on. -/
theorem test_meets_resetRequestLasts :
    let s := asked requesting [.hostWrite 0x00#8 0x0300#16]
    s.Inv ∧ s.seq.phase = .resetReq ∧ (∀ later, s.env.inbox ≠ .reset :: later) ∧
    step s = .next (after (step s)) :=
  ⟨⟨by decide, by decide, by decide, by decide, by decide, by decide,
      show (asked requesting _).op = 7#4 by decide, trivial⟩, by decide,
    by simp [asked], rfl⟩

/-- What the dispatch statements ask of a peer for the command `"x"`: five answers to the request. -/
def requestHeard : List (Nat × Byte) := [(0, 0#8), (1, 0#8), (0, 0xFF#8), (0, 0#8), (0, 0#8)]

/-- DispatchDeliversReply: an empty payload, one byte of noise, and a sync limit just above it. -/
theorem test_meets_dispatchDeliversReply :
    let noise := [(1, 0xFF#8)]
    let replies := [(0, 0x20#8), (0, 0x05#8), (1, 0x00#8), (0, 0x00#8)]
    let s := { commanded (hearing (allAnswers (requestHeard ++ noise ++ replies) ++ [0x09#8])) [0x78#8] with
      env := { (hearing (allAnswers (requestHeard ++ noise ++ replies) ++ [0x09#8])).env with
        params := { vectorParams with syncLimit := some 2 } } }
    s.active = false ∧ s.env.level = .operation ∧ s.commandString 1#8 ≠ s.env.params.resetKeyword ∧
    requestHeard.length = 4 + (1#8).toNat ∧ ([] : List (Nat × Byte)).length = (0x00#8).toNat ∧
    (∀ a ∈ noise, a.2 ≠ 0x20#8) ∧
    (∀ a ∈ [(0, 0x05#8), (1, 0x00#8), (0, 0x00#8)], a.2 ≠ 0xFF#8) ∧
    Answered s.env.params.retryLimit (requestHeard ++ noise ++ replies) ∧
    (∀ n, s.env.params.syncLimit = some n → noise.length < n) ∧
    s.env.peer = allAnswers (requestHeard ++ noise ++ replies) ++ [0x09#8] :=
  ⟨by decide, by decide, by decide, by decide, by decide, by simp, by simp,
    by simp [Answered, requestHeard, Config.busy, vectorParams], by simp, by decide⟩

/-- DispatchDeliversTruncatedPayload: one byte short of the two declared. -/
theorem test_meets_dispatchDeliversTruncatedPayload :
    let replies := [(0, 0x20#8), (0, 0x01#8), (0, 0x00#8), (0, 0x02#8), (0, 0x61#8), (1, 0xFF#8)]
    let s := commanded (hearing (allAnswers (requestHeard ++ [] ++ replies) ++ [])) [0x78#8]
    s.active = false ∧ s.env.level = .operation ∧ s.commandString 1#8 ≠ s.env.params.resetKeyword ∧
    requestHeard.length = 4 + (1#8).toNat ∧ [(0, 0x61#8)].length < (0x02#8).toNat ∧
    (∀ a ∈ [(0, 0x01#8), (0, 0x00#8), (0, 0x02#8), (0, 0x61#8)], a.2 ≠ 0xFF#8) ∧
    Answered s.env.params.retryLimit (requestHeard ++ [] ++ replies) ∧
    (∀ n, s.env.params.syncLimit = some n → ([] : List (Nat × Byte)).length < n) ∧
    s.env.peer = allAnswers (requestHeard ++ [] ++ replies) ++ [] :=
  ⟨by decide, by decide, by decide, by decide, by decide, by simp,
    by simp [Answered, requestHeard, Config.busy, commanded, State.writeRange, State.writeByte, hearing,
      start, vectorParams],
    by simp [commanded, State.writeRange, State.writeByte, hearing, start, vectorParams], by decide⟩

/-- DispatchReportsShortHeader: two tail bytes, one short of three. -/
theorem test_meets_dispatchReportsShortHeader :
    let replies := [(0, 0x20#8), (0, 0x09#8), (0, 0x08#8), (0, 0xFF#8)]
    let s := commanded (hearing (allAnswers (requestHeard ++ [] ++ replies) ++ [])) [0x78#8]
    s.active = false ∧ s.env.level = .operation ∧ s.commandString 1#8 ≠ s.env.params.resetKeyword ∧
    requestHeard.length = 4 + (1#8).toNat ∧ [(0, 0x09#8), (0, 0x08#8)].length < 3 ∧
    (∀ a ∈ [(0, 0x09#8), (0, 0x08#8)], a.2 ≠ 0xFF#8) ∧
    Answered s.env.params.retryLimit (requestHeard ++ [] ++ replies) ∧
    (∀ n, s.env.params.syncLimit = some n → ([] : List (Nat × Byte)).length < n) ∧
    s.env.peer = allAnswers (requestHeard ++ [] ++ replies) ++ [] :=
  ⟨by decide, by decide, by decide, by decide, by decide, by simp,
    by simp [Answered, requestHeard, Config.busy, commanded, State.writeRange, State.writeByte, hearing,
      start, vectorParams],
    by simp [commanded, State.writeRange, State.writeByte, hearing, start, vectorParams], by decide⟩

/-- DispatchSyncTimeout: one poll allowed and one byte polled. -/
theorem test_meets_dispatchSyncTimeout :
    let noise := [(0, 0xFF#8)]
    let s := { commanded (hearing (allAnswers (requestHeard ++ noise) ++ [])) [0x78#8] with
      env := { (hearing (allAnswers (requestHeard ++ noise) ++ [])).env with
        params := { vectorParams with syncLimit := some 1 } } }
    s.active = false ∧ s.env.level = .operation ∧ s.commandString 1#8 ≠ s.env.params.resetKeyword ∧
    requestHeard.length = 4 + (1#8).toNat ∧ (∀ a ∈ noise, a.2 ≠ 0x20#8) ∧
    s.env.params.syncLimit = some 1 ∧ noise.length = 1 ∧
    Answered s.env.params.retryLimit (requestHeard ++ noise) ∧
    s.env.peer = allAnswers (requestHeard ++ noise) ++ [] :=
  ⟨by decide, by decide, by decide, by decide, by simp, by decide, by decide,
    by simp [Answered, requestHeard, Config.busy, vectorParams], by decide⟩

/-- DispatchSendsTheRequest, and DispatchFrame where the reply is rendered. -/
theorem test_meets_dispatchSendsTheRequest :
    let s := commanded (hearing [0#8, 0#8, 0#8, 0#8, 0#8, 0x20#8, 0x09#8, 0xFF#8]) [0x78#8]
    let t := after (exec (.dispatch 1#8) s)
    s.active = false ∧ s.env.level = .operation ∧ s.commandString 1#8 ≠ s.env.params.resetKeyword ∧
    exec (.dispatch 1#8) s = .next t ∧ t.active = false ∧ flagSet t.ctl.status bitTimeout = false :=
  ⟨by decide, by decide, by decide, rfl, by decide, by decide⟩

/-- BusyAnswerRetriesOrTimesOut: below the limit, and at the limit in a phase that stores and in one that does
not. -/
theorem test_meets_busyAnswer :
    let pay := inPhase (hearingWithin 1 []) 0x0701#16 .rxPay 0#8 .check
    let send := inPhase (hearingWithin 1 []) 0x0141#16 .send 0#8 .check
    pay.seq.phase.usesEngine = true ∧ limitReached pay.att pay.env.params.retryLimit = false ∧
    limitReached (pay.setAtt 1).att pay.env.params.retryLimit = true ∧
    (pay.setAtt 1).storesPayload = true ∧ send.seq.phase.usesEngine = true ∧
    limitReached (send.setAtt 1).att send.env.params.retryLimit = true ∧
    (send.setAtt 1).storesPayload = false := by
  decide

/-- SyncPollTakesOneByte: below the poll limit and at it. -/
theorem test_meets_syncPoll :
    (inPhase start 0x0701#16 .pollRx 0#8 .check).seq.phase = .pollRx ∧ WellFormed (.wbData 0x21#8) ∧
    limitReached (0 + 1) (some 2) = false ∧ limitReached (0 + 1) (some 1) = true :=
  ⟨by decide, show 0x21#8 ≠ Config.busy ∧ 0x21#8 ≠ Config.endOfData ∧ 0x21#8 ≠ Config.tagResponse by decide,
    by decide, by decide⟩

/-- HeaderTailTakesOneByte, PayloadTakesOneByte and SendAndSingleReceiveTakeAnyByte. -/
theorem test_meets_one_byte_phases :
    WellFormed (.wbData 0xFD#8) ∧
    (inPhase start 0x0701#16 .rxHdr 2#8 .check).seq.phase = .rxHdr ∧
    (inPhase start 0x0701#16 .rxPay 0#8 .check).seq.phase = .rxPay ∧
    (inPhase start 0x0701#16 .txPay 0#8 .check).seq.phase = .txPay ∧
    (let s := inPhase start 0x0300#16 .recv 0#8 .check
     s.seq.phase = .recv ∧ s.op = 3#4 ∧ s.ctl.status = 0x01#8) :=
  ⟨show 0xFD#8 ≠ Config.busy ∧ 0xFD#8 ≠ Config.endOfData ∧ 0xFD#8 ≠ Config.tagResponse by decide,
    by decide, by decide, by decide, by decide⟩

/-- FeedStoresOtherBytes: the last free place and a full buffer. -/
theorem test_meets_feedStoresOtherBytes :
    let last := { start with front := { start.front with cur := 254#8 } }
    let full := { start with front := { start.front with cur := 255#8 } }
    last.hostBusy = false ∧ full.hostBusy = false ∧ WellFormed (.conOther 0x00#8) ∧
    last.front.cur < 255#8 ∧ full.front.cur = 255#8 :=
  ⟨by decide, by decide, show ¬ ControlByte 0x00#8 by decide, by decide, by decide⟩

/-- FeedBackspaceErasesOne and LineEndOnEmptyLineIsIgnored: one byte typed, and none. -/
theorem test_meets_backspace :
    (typed [0x61#8]).hostBusy = false ∧ (typed [0x61#8]).front.cur ≠ 0#8 ∧ start.hostBusy = false ∧
    start.front.cur = 0#8 := by
  decide

/-- LineEndOnEmptyLineIsIgnored, second clause, and FeedLineEndDispatchesTheLine: a line of one byte whose
dispatch ends. -/
theorem test_meets_feedLineEndDispatchesTheLine :
    let s := { typed [0x78#8] with
      env := (hearing [0#8, 0#8, 0#8, 0#8, 0#8, 0x20#8, 0x09#8, 0xFF#8]).env }
    let s₁ := (s.consoleWrite s.env.params.newlineEcho).writeByte .cmdbuf s.front.cur.toNat 0#8
    let u := after (exec (.dispatch s.front.cur) (s₁.writeRange .txp 0 s.consoleLine))
    s.hostBusy = false ∧ s.front.cur ≠ 0#8 ∧ s.env.level = .operation ∧
    exec (.dispatch s.front.cur) (s₁.writeRange .txp 0 s.consoleLine) = .next u ∧ u.active = false ∧
    exec .conCr s = .next (after (exec .conCr s)) ∧ (after (exec .conCr s)).active = false :=
  ⟨by decide, by decide, by decide, rfl, by decide, rfl, by decide⟩

/-- FeedLineEndStartsDispatch: the shortest line. -/
theorem test_meets_feedLineEndStartsDispatch :
    let s := (typed [0x61#8]).atLevel .sequencer
    s.hostBusy = false ∧ s.front.cur ≠ 0#8 ∧ s.env.level = .sequencer := by
  decide

/-- FeedGathersTheLine: no byte, and a line that fills the buffer. -/
theorem test_meets_feedGathersTheLine :
    start.hostBusy = false ∧ start.front.cur = 0#8 ∧ ([] : List Byte).length ≤ 255 ∧
    (List.replicate 255 0x61#8).length ≤ 255 ∧
    (∀ c ∈ List.replicate 255 0x61#8, WellFormed (.conOther c)) := by
  refine ⟨by decide, by decide, by decide, Nat.le_of_eq List.length_replicate, fun c hc => ?_⟩
  rw [List.eq_of_mem_replicate hc]
  exact show ¬ ControlByte 0x61#8 by decide

/-- EndedDispatchReturnsAndRenders: a payload of the declared length about to be terminated, and an ended
dispatch of the front end. -/
theorem test_meets_endedDispatchReturns :
    (let s := { inPhase start 0x0701#16 .term 255#8 .idle with rx := { start.rx with len := 255#8 } }
     s.env.inbox = [] ∧ s.seq.phase = .term) ∧
    (let s := asked { start with front := { start.front with cur := 1#8, stalled := true } } [.wait]
     s.returnDue = true ∧ (∀ later, s.env.inbox ≠ .reset :: later)) :=
  ⟨by decide, by decide, by simp [asked]⟩

/-- ResetInputResets, in the middle of a frame. -/
theorem test_meets_resetInput :
    (asked (inPhase start 0x0141#16 .send 0#8 .xchg) [.reset]).env.inbox = .reset :: [] := by
  decide

/-- HostRegisterWrites: the three writable registers and a number that names none. -/
theorem test_meets_hostRegisterWrites :
    start.active = false ∧ start.returnDue = false ∧ 0x02#8 ≠ regCmd ∧ 0x03#8 ≠ regCmd ∧
    0x04#8 ≠ regCmd ∧ 0x0E#8 ≠ regCmd ∧
    (asked start [.hostWrite 0x03#8 0xBEEF#16]).env.inbox = .hostWrite 0x03#8 0xBEEF#16 :: [] := by
  decide

/-- HostRegisterReads: idle and active, the numbers where the clauses meet. -/
theorem test_meets_hostRegisterReads :
    let run := inPhase start 0x0300#16 .recv 0#8 .check
    (asked start [.hostRead 0x01#8]).env.inbox = .hostRead 0x01#8 :: [] ∧
    (asked start [.hostRead 0x0E#8]).env.inbox = .hostRead 0x0E#8 :: [] ∧ 0x0E#8 ≤ 0x0E#8 ∧
    start.returnDue = false ∧ start.active = false ∧ run.returnDue = false ∧ run.active = true ∧
    0x0D#8 ≠ 0x01#8 ∧ 0x0D#8 < 0x0E#8 ∧ 0x00#8 = regCmd := by
  decide

/-- HostBufferAccess: the last index of each writable buffer, the first outside, a read-only buffer, a read on
each side of a buffer's end. -/
theorem test_meets_hostBufferAccess :
    start.active = false ∧ start.returnDue = false ∧ 254 < Space.txp.size ∧ Space.txp.size ≤ 255 ∧
    3 < Space.rxh.size ∧ Space.rxh.size ≤ 4 ∧ 255 < Space.rxp.size ∧ Space.rxp.size ≤ 256 ∧
    (asked start [.bufWrite .txp 254 0x01#8]).env.inbox = .bufWrite .txp 254 0x01#8 :: [] ∧
    (asked start [.bufRead .rxp 255]).env.inbox = .bufRead .rxp 255 :: [] := by
  decide

/-- InvariantKeptByEveryStep and TraceShapeKeptByEveryStep: a byte about to be exchanged. -/
theorem test_meets_invariants :
    let s := { inPhase (hearing [0x00#8]) 0x0141#16 .send 0#8 .xchg with
      link := { frame := true, txb := 0#8, rxb := 0#8 }, trace := [.assert] }
    s.Inv ∧ s.traceShaped ∧ (∀ later, s.env.inbox ≠ .reset :: later) ∧
    step s = .next (after (step s)) :=
  ⟨⟨by decide, by decide, by decide, by decide, by decide, by decide, .inl (by decide),
      by decide, fun _ => by decide⟩,
    ⟨.opened none, by decide, .inl rfl⟩, by simp [inPhase, hearing, start, State.reset], rfl⟩

/-- BlockNeverWritesTransmitBuffer: nothing listed, a `wait`, and a console byte that stays pending. -/
theorem test_meets_blockNeverWrites :
    let s := inPhase start 0x0704#16 .build 0#8 .idle
    (s.env.inbox = [] ∧ step s = .next (after (step s))) ∧
    ((∃ later, (asked s [.wait]).env.inbox = .wait :: later) ∧
      step (asked s [.wait]) = .next (after (step (asked s [.wait])))) ∧
    ((∃ c later, (asked s [.console 0x0D#8]).env.inbox = .console c :: later) ∧
      (asked s [.console 0x0D#8]).hostBusy = true ∧
      step (asked s [.console 0x0D#8]) = .next (after (step (asked s [.console 0x0D#8])))) :=
  ⟨⟨by decide, rfl⟩, ⟨⟨_, rfl⟩, rfl⟩, ⟨_, _, rfl⟩, by decide, rfl⟩

/-- SequencerReachesOperationResult. -/
theorem test_meets_sequencerReachesOperationResult :
    let s := hearing [0xFE#8, 0x00#8]
    isOperation (.sendByte 0x41#8) = true ∧ s.env.inbox = [] ∧
    exec (.sendByte 0x41#8) (s.atLevel .operation) =
      .next (after (exec (.sendByte 0x41#8) (s.atLevel .operation))) ∧
    exec (.sendByte 0x41#8) (s.atLevel .sequencer) =
      .next (after (exec (.sendByte 0x41#8) (s.atLevel .sequencer))) :=
  ⟨by decide, by decide, rfl, rfl⟩

/-- ByteWrittenReadsBack: the last index of a buffer. -/
theorem test_meets_byteWrittenReadsBack : 254 < Space.txp.size ∧ 255 < Space.rxp.size := by decide

end Sys2Proof.Tests
end

section
/-! The class of a message's type byte (42_codec.md R163) and the register that reads it (10_state.md R33). -/

namespace Sys2Proof.Machine

/-! ### The class of a type byte -/

@[simp] theorem classify_command : classify 0x10#8 = .command := rfl

@[simp] theorem classify_response : classify 0x20#8 = .response := rfl

@[simp] theorem classify_alert : classify 0x40#8 = .alert := rfl

@[simp] theorem classify_error : classify 0x80#8 = .error := rfl

theorem classify_of_ne_tags {t : Byte} (hcommand : t ≠ 0x10#8) (hresponse : t ≠ 0x20#8)
    (halert : t ≠ 0x40#8) (herror : t ≠ 0x80#8) : classify t = .unrecognized t :=
  calc classify t
    _ = _ := if_neg hcommand
    _ = _ := if_neg hresponse
    _ = _ := if_neg halert
    _ = .unrecognized t := if_neg herror

/-! ### The code of a class, as `RX_CLASS` reads it -/

/-- The model's two functions on a type byte agree: `classCode` is the code of the class. -/
theorem classCode_eq_code_classify (t : Byte) : classCode t = (classify t).code := by
  unfold classCode classify
  split_ifs <;> rfl

theorem MessageClass.code_lt_five (c : MessageClass) : c.code.setWidth 16 < 5#16 := by
  cases c <;> simp [MessageClass.code]

/-- `RX_CLASS` has no storage: a read of register 8 computes the class of `RX_TYPE`. -/
theorem State.readReg_rxClass (s : State) :
    s.readReg 0x08#8 = (classify s.rx.type).code.setWidth 16 :=
  congrArg (BitVec.setWidth 16) (classCode_eq_code_classify s.rx.type)

/-- Settles O10: `RX_CLASS` reads the code of the class of `RX_TYPE`, so each of its values follows from
the class of the type byte, and no class has a code above 4. -/
theorem typeClassification : Obligations.TypeClassification := by
  refine ⟨fun t => ?classOfByte, fun s => ?rxClass⟩
  case classOfByte =>
    refine ⟨?_, ?_, ?_, ?_, classify_of_ne_tags⟩ <;> (rintro rfl; simp)
  case rxClass =>
    rw [s.readReg_rxClass]
    refine ⟨?_, ?_, ?_, ?_, ?noTag, MessageClass.code_lt_five _⟩
    case noTag =>
      intro hcommand hresponse halert herror
      simp [classify_of_ne_tags hcommand hresponse halert herror, MessageClass.code]
    all_goals intro htype; simp [htype, MessageClass.code]

end Sys2Proof.Machine
end

section
/-! What the decoder answers in each format (30_encoding.md R92 to R97, R102; 43_console_frontend.md R181): one
equation a row of the opcode table, then the statements about the rows. -/

namespace Sys2Proof

/-! ### Operation words -/

/-- The decoder on a word with `RSV = 0`, by its code and its operand. -/
theorem decode_opWord (op : BitVec 4) (a : Byte) :
    decode (.opw (opWord op a)) =
      if op = 1#4 then .sendByte a
      else if op = 2#4 then .sendBytes a
      else if op = 3#4 then .recvByte
      else if op = 4#4 then .recvBytes a
      else if op = 5#4 then .encHdr
      else if op = 6#4 then .decHdr
      else if op = 7#4 then .dispatch a
      else .opwIllegal (opWord op a) := by
  simp only [decode, decodeOpw, rsvField_opWord, opField_opWord, argField_opWord, if_true]

@[simp] theorem decode_opWord_sendByte (a : Byte) : decode (.opw (opWord 1#4 a)) = .sendByte a :=
  decode_opWord 1#4 a

@[simp] theorem decode_opWord_sendBytes (a : Byte) : decode (.opw (opWord 2#4 a)) = .sendBytes a :=
  decode_opWord 2#4 a

@[simp] theorem decode_opWord_recvByte (a : Byte) : decode (.opw (opWord 3#4 a)) = .recvByte :=
  decode_opWord 3#4 a

@[simp] theorem decode_opWord_recvBytes (a : Byte) : decode (.opw (opWord 4#4 a)) = .recvBytes a :=
  decode_opWord 4#4 a

@[simp] theorem decode_opWord_encHdr (a : Byte) : decode (.opw (opWord 5#4 a)) = .encHdr :=
  decode_opWord 5#4 a

@[simp] theorem decode_opWord_decHdr (a : Byte) : decode (.opw (opWord 6#4 a)) = .decHdr :=
  decode_opWord 6#4 a

@[simp] theorem decode_opWord_dispatch (a : Byte) : decode (.opw (opWord 7#4 a)) = .dispatch a :=
  decode_opWord 7#4 a

/-- The codes R93 reserves are those that no row of R92 has. -/
theorem reservedOp_iff : ∀ op : BitVec 4, op = 0#4 ∨ 8#4 ≤ op ↔
    op ≠ 1#4 ∧ op ≠ 2#4 ∧ op ≠ 3#4 ∧ op ≠ 4#4 ∧ op ≠ 5#4 ∧ op ≠ 6#4 ∧ op ≠ 7#4 := by
  decide

theorem reservedWord_iff (w : Half) :
    ReservedWord w ↔ rsvField w ≠ 0#4 ∨ opField w = 0#4 ∨ 8#4 ≤ opField w := Iff.rfl

theorem decode_of_reservedWord {w : Half} (h : ReservedWord w) : decode (.opw w) = .opwIllegal w := by
  by_cases hrsv : rsvField w = 0#4
  case neg => exact if_neg hrsv
  case pos =>
    have hop : opField w = 0#4 ∨ 8#4 ≤ opField w := ((reservedWord_iff w).mp h).resolve_left (· hrsv)
    obtain ⟨h1, h2, h3, h4, h5, h6, h7⟩ := (reservedOp_iff _).mp hop
    rw [← opWord_fields hrsv, decode_opWord, if_neg h1, if_neg h2, if_neg h3, if_neg h4, if_neg h5,
      if_neg h6, if_neg h7]

/-- A word that is not reserved is the code of a row of R92 over an operand. -/
theorem eq_opWord_of_not_reservedWord {w : Half} (h : ¬ ReservedWord w) :
    ∃ op a, w = opWord op a ∧ (op = 1#4 ∨ op = 2#4 ∨ op = 3#4 ∨ op = 4#4 ∨ op = 5#4 ∨ op = 6#4 ∨
      op = 7#4) := by
  rw [reservedWord_iff, not_or, not_not, reservedOp_iff] at h
  obtain ⟨hrsv, hop⟩ := h
  exact ⟨opField w, argField w, (opWord_fields hrsv).symm, by tauto⟩

theorem decode_ne_opwIllegal {w : Half} (h : ¬ ReservedWord w) (v : Half) :
    decode (.opw w) ≠ .opwIllegal v := by
  obtain ⟨op, a, rfl, rfl | rfl | rfl | rfl | rfl | rfl | rfl⟩ := eq_opWord_of_not_reservedWord h
  all_goals simp

/-- A word that selects a row by its mask is the row's code over the word's low byte. -/
theorem eq_opWord_of_and_mask {w : Half} {op : BitVec 4} (h : w &&& 0xFF00#16 = opWord op 0#8) :
    w = opWord op (w.setWidth 8) := by
  have hrsv : rsvField w = 0#4 := by rw [← rsvField_and_mask, h, rsvField_opWord]
  have hop : opField w = op := by rw [← opField_and_mask, h, opField_opWord]
  have harg : argField w = w.setWidth 8 := BitVec.setWidth_eq_extractLsb' (by decide) |>.symm
  rw [← hop, ← harg, opWord_fields hrsv]

/-- From the equation of a row to its selection by match and mask (R92). -/
theorem decode_of_and_mask {w : Half} {op : BitVec 4} {row : Byte → Instr}
    (hrow : ∀ a, decode (.opw (opWord op a)) = row a) (h : w &&& 0xFF00#16 = opWord op 0#8) :
    decode (.opw w) = row (w.setWidth 8) :=
  (congrArg (decode ∘ .opw) (eq_opWord_of_and_mask h)).trans (hrow _)

/-- Settles O5: a word whose masked part is a row's match is that row's code over its low byte, and the decoder's
equation for the row says the rest. -/
theorem operationRowsByMask : Obligations.OperationRowsByMask := fun _ =>
  ⟨decode_of_and_mask decode_opWord_sendByte, decode_of_and_mask decode_opWord_sendBytes,
    decode_of_and_mask decode_opWord_recvByte, decode_of_and_mask decode_opWord_recvBytes,
    decode_of_and_mask decode_opWord_encHdr, decode_of_and_mask decode_opWord_decHdr,
    decode_of_and_mask decode_opWord_dispatch⟩

/-! ### Headers -/

/-- The decoder on a header, by its four bytes. -/
theorem decode_hdrWord (t lo hi len : Byte) :
    decode (.hdr (hdrWord t lo hi len)) =
      if t = 0x10#8 then .hdrCommand lo hi len
      else if t = 0x20#8 then .hdrResponse lo hi len
      else if t = 0x40#8 then .hdrAlert lo hi len
      else if t = 0x80#8 then .hdrError lo hi len
      else .hdrUnrecognized t lo hi len := by
  simp only [decode, decodeHdr, hdrType_hdrWord, hdrLow_hdrWord, hdrHigh_hdrWord, hdrLength_hdrWord,
    Config.tagCommand, Config.tagResponse, Config.tagAlert, Config.tagError]

/-- Settles O7: the decoder takes a header apart into its four bytes and compares the first as a whole. -/
theorem headerRowsByWholeType : Obligations.HeaderRowsByWholeType := by
  intro t lo hi len
  rw [decode_hdrWord]
  refine ⟨?command, ?response, ?alert, ?error, ?unrecognized⟩
  case unrecognized =>
    intro hcommand hresponse halert herror
    rw [if_neg hcommand, if_neg hresponse, if_neg halert, if_neg herror]
  all_goals rintro rfl; rfl

/-! ### Returned bytes and console bytes -/

/-- The class of a returned byte (R102), with `0x20` apart from the other data bytes. -/
theorem decode_wb_cases (r : Byte) :
    (r = 0xFE#8 ∧ decode (.wb r) = .wbBusy) ∨ (r = 0xFF#8 ∧ decode (.wb r) = .wbEndOfData) ∨
    (r = 0x20#8 ∧ decode (.wb r) = .wbSync) ∨
    (r ≠ 0xFE#8 ∧ r ≠ 0xFF#8 ∧ r ≠ 0x20#8 ∧ decode (.wb r) = .wbData r) := by
  by_cases hbusy : r = 0xFE#8
  · exact .inl ⟨hbusy, if_pos hbusy⟩
  by_cases heod : r = 0xFF#8
  · exact .inr (.inl ⟨heod, (if_neg hbusy).trans (if_pos heod)⟩)
  by_cases hsync : r = 0x20#8
  · exact .inr (.inr (.inl ⟨hsync, (if_neg hbusy).trans ((if_neg heod).trans (if_pos hsync))⟩))
  · exact .inr (.inr (.inr ⟨hbusy, heod, hsync,
      (if_neg hbusy).trans ((if_neg heod).trans (if_neg hsync))⟩))

/-- The class of a console byte (R181). -/
theorem decode_con_cases (c : Byte) :
    (c = 0x0D#8 ∧ decode (.con c) = .conCr) ∨ (c = 0x0A#8 ∧ decode (.con c) = .conLf) ∨
    (c = 0x08#8 ∧ decode (.con c) = .conBs) ∨
    (c ≠ 0x0D#8 ∧ c ≠ 0x0A#8 ∧ c ≠ 0x08#8 ∧ decode (.con c) = .conOther c) := by
  by_cases hcr : c = 0x0D#8
  · exact .inl ⟨hcr, if_pos hcr⟩
  by_cases hlf : c = 0x0A#8
  · exact .inr (.inl ⟨hlf, (if_neg hcr).trans (if_pos hlf)⟩)
  by_cases hbs : c = 0x08#8
  · exact .inr (.inr (.inl ⟨hbs, (if_neg hcr).trans ((if_neg hlf).trans (if_pos hbs))⟩))
  · exact .inr (.inr (.inr ⟨hcr, hlf, hbs,
      (if_neg hcr).trans ((if_neg hlf).trans (if_neg hbs))⟩))

/-- The two sentinels are the two largest bytes. -/
theorem le_0xFD_of_not_sentinel {r : Byte} (hbusy : r ≠ 0xFE#8) (heod : r ≠ 0xFF#8) : r ≤ 0xFD#8 := by
  bv_omega

/-- Settles O8: each byte is in one of four cases, and the cases decode to different constructors. -/
theorem byteClasses : Obligations.ByteClasses := by
  refine ⟨fun r => ?returned, fun c => ?console⟩
  case returned =>
    obtain ⟨rfl, h⟩ | ⟨rfl, h⟩ | ⟨rfl, h⟩ | ⟨hbusy, heod, hsync, h⟩ := decode_wb_cases r
    case inr.inr.inr => simp [h, hbusy, heod, hsync, le_0xFD_of_not_sentinel hbusy heod]
    all_goals simp [h]
  case console =>
    obtain ⟨rfl, h⟩ | ⟨rfl, h⟩ | ⟨rfl, h⟩ | ⟨hcr, hlf, hbs, h⟩ := decode_con_cases c
    case inr.inr.inr => simp [h, hcr, hlf, hbs]
    all_goals simp [h]

/-! ### The worked words -/

/-- Settles O2: each legal word and each header is one case of the equation of its row, and the three other
words are reserved. -/
theorem specWordsDecode : Obligations.SpecWordsDecode :=
  ⟨rfl, rfl, rfl,
    decode_hdrWord 0x10#8 0x00#8 0x00#8 0x04#8, decode_hdrWord 0x20#8 0x01#8 0x00#8 0x02#8,
    rfl, decode_opWord_sendByte 0x41#8,
    rfl, decode_opWord_recvBytes 16#8,
    rfl, decode_opWord_dispatch 4#8,
    decode_opWord_sendBytes 6#8, decode_opWord_recvByte 0xA5#8,
    decode_of_reservedWord (by decide), decode_of_reservedWord (by decide),
    decode_of_reservedWord (by decide)⟩

end Sys2Proof

namespace Sys2Proof.Machine

/-! ### A reserved word written -/

/-- While idle a reserved word has the outcome `IllegalOp` (R248), whatever the word. -/
theorem exec_opwIllegal_idle {s : State} (h : s.active = false) (w : Half) :
    exec (.opwIllegal w) s = .next s.illegalOp := by
  simp [exec, execOpwIllegal, h]

/-- Settles O6: reserved and legal words by the decoder's two lemmas on them, the outcome `IllegalOp` by its
definition, and an ignored operand by the three row equations that do not mention it. -/
theorem reservedWordsAreIllegal : Obligations.ReservedWordsAreIllegal :=
  ⟨fun _ => decode_of_reservedWord, fun _ v h => decode_ne_opwIllegal h v,
    fun w _ h => exec_opwIllegal_idle h w,
    fun a => ⟨decode_opWord_recvByte a, decode_opWord_encHdr a, decode_opWord_decHdr a⟩⟩

end Sys2Proof.Machine
end

section
/-! What a multi-byte receive that ends without a `Timeout` has stored (41_transceiver.md R139, R140): the bytes
`collected` from the peer's answers, at the receive loop, at `RXCNT <- recv_bytes(RXP, 0, max)`, and at RECV_BYTES. -/

namespace Sys2Proof.Machine

/-! ### What is collected from the answers -/

theorem collected_eq_heard (max : Nat) (answers : List Byte) :
    collected max answers = ((heard answers).takeWhile fun r => r != Config.endOfData).take max := rfl

/-- Answers without `END_OF_DATA` pass the cut at the first one. -/
theorem takeWhile_heard_allAnswers_append {limit : Option Nat} {as : List (Nat × Byte)}
    (hans : AnsweredWithin limit as) (heod : ∀ a ∈ as, a.2 ≠ Config.endOfData) (more : List Byte) :
    (heard (allAnswers as ++ more)).takeWhile (fun r => r != Config.endOfData) =
      as.map Prod.snd ++ (heard more).takeWhile fun r => r != Config.endOfData := by
  rw [heard_append, heard_allAnswers hans]
  refine List.takeWhile_append_of_pos fun r hr => ?_
  obtain ⟨a, ha, rfl⟩ := List.mem_map.mp hr
  exact bne_iff_ne.mpr (heod a ha)

/-- Cut after `max` bytes: the first `max` answers, whatever follows. -/
theorem collected_full {limit : Option Nat} {as : List (Nat × Byte)} (hans : AnsweredWithin limit as)
    (heod : ∀ a ∈ as, a.2 ≠ Config.endOfData) (rest : List Byte) :
    collected as.length (allAnswers as ++ rest) = as.map Prod.snd := by
  rw [collected_eq_heard, takeWhile_heard_allAnswers_append hans heod]
  exact List.take_left' (List.length_map ..)

/-- Cut at the first `END_OF_DATA`: the answers before it, whatever follows. -/
theorem collected_sentinel {limit : Option Nat} {as : List (Nat × Byte)} (hans : AnsweredWithin limit as)
    (heod : ∀ a ∈ as, a.2 ≠ Config.endOfData) {max : Nat} (hlen : as.length ≤ max) (j : Nat)
    (rest : List Byte) :
    collected max (allAnswers as ++ (byteAnswers (j, Config.endOfData) ++ rest)) = as.map Prod.snd := by
  have hcut : (heard (byteAnswers (j, Config.endOfData) ++ rest)).takeWhile
      (fun r => r != Config.endOfData) = [] := by
    rw [heard_append, heard_byteAnswers (show Config.endOfData ≠ Config.busy by decide)]
    rfl
  rw [collected_eq_heard, takeWhile_heard_allAnswers_append hans heod, hcut, List.append_nil]
  exact List.take_of_length_le (by simpa using hlen)

/-! ### What the receive stores -/

/-- A byte string written reads back. -/
theorem readRange_writeRange_self {b : Space} {a : Nat} {vs : List Byte} (hsize : a + vs.length ≤ b.size)
    (s : State) : (s.writeRange b a vs).readRange b a vs.length = vs := by
  refine List.ext_getElem (readRange_length ..) fun k hk hvs => ?_
  rw [readRange_getElem, readByte_writeRange_self hvs hsize]

/-! The link, `STATUS` and `RXCNT` are no part of what is read. -/

@[simp] theorem readRange_byteDone (s : State) (t : Byte) (a : Nat × Byte) (rest : List Byte) (b : Space)
    (i n : Nat) : (s.byteDone t a rest).readRange b i n = s.readRange b i n :=
  readRange_congr (by rfl) (by rfl) b i n

@[simp] theorem readRange_raiseFlag (s : State) (f : Byte) (b : Space) (i n : Nat) :
    (s.raiseFlag f).readRange b i n = s.readRange b i n :=
  readRange_congr (by rfl) (by rfl) b i n

@[simp] theorem readRange_countStored (s : State) (b : Space) (i n : Nat) :
    s.countStored.readRange b i n = s.readRange b i n :=
  readRange_congr (by rfl) (by rfl) b i n

@[simp] theorem byteDone_seq (s : State) (t : Byte) (a : Nat × Byte) (rest : List Byte) :
    (s.byteDone t a rest).seq = s.seq := rfl

@[simp] theorem byteDone_ctl (s : State) (t : Byte) (a : Nat × Byte) (rest : List Byte) :
    (s.byteDone t a rest).ctl = s.ctl := rfl

/-- The answers received are stored in order, `IDX` is their number, and `STATUS` stays. -/
theorem received_stores {b : Space} {base : Nat} {as : List (Nat × Byte)} {rest : List Byte} {s : State}
    (hp : s.env.peer = allAnswers as ++ rest) (hidx : s.seq.idx = 0#8) (hlen : as.length ≤ 255)
    (hsize : base + as.length ≤ b.size) :
    (s.received b base as rest).readRange b base as.length = as.map Prod.snd ∧
      (s.received b base as rest).seq.idx.toNat = as.length ∧
      (s.received b base as rest).ctl.status = s.ctl.status := by
  have heq := received_eq b base as rest s hp (by rw [hidx]; exact Nat.le_succ_of_le (by simpa using hlen))
  refine ⟨?stored, ?count, by rw [heq]; rfl⟩
  case stored =>
    have hmem : (s.received b base as rest).mem = (s.writeRange b base (as.map Prod.snd)).mem := by
      rw [heq, hidx]
      rfl
    have hepoch : (s.received b base as rest).env.epoch =
        (s.writeRange b base (as.map Prod.snd)).env.epoch := by
      rw [received_env b base as rest s hp, writeRange_frame]
    rw [readRange_congr hmem hepoch]
    simpa using readRange_writeRange_self (vs := as.map Prod.snd) (by simpa using hsize) s
  case count =>
    rw [heq, hidx]
    simpa using Nat.mod_eq_of_lt (Nat.lt_succ_of_le hlen)

/-- The receive loop that ends without a `Timeout` has stored what is collected, counted it in `IDX`, and set
`EOD` when that is fewer bytes than asked. -/
theorem recvLoop_done_stores {b : Space} {base max : Nat} {s t : State} (hidx : s.seq.idx = 0#8)
    (hmax : max ≤ 255) (hsize : base + max ≤ b.size) (h : recvLoop b base max s = .done () t) :
    t.readRange b base t.seq.idx.toNat = collected max s.env.peer ∧
      t.ctl.status =
        if t.seq.idx.toNat < max then s.ctl.status ||| bitEod else s.ctl.status := by
  rcases recvLoop_cases b base max s with
    ⟨as, rest, rfl, hans, heod, hp, hdone⟩ | ⟨as, j, rest, hlt, hans, heod, -, hp, hdone⟩ |
    ⟨as, n, rest, -, -, -, -, -, -, htimeout⟩ | ⟨-, -, hwaiting⟩
  · obtain ⟨hstored, hcount, hstatus⟩ := received_stores hp hidx hmax hsize
    obtain rfl : s.received b base as rest = t := by simpa [hdone] using h
    rw [hcount, hstored, hp, collected_full hans heod, if_neg (Nat.lt_irrefl _)]
    exact ⟨rfl, hstatus⟩
  · obtain ⟨hstored, hcount, hstatus⟩ :=
      received_stores hp hidx (b := b) (base := base) (by omega) (by omega)
    obtain rfl : ((s.received b base as (byteAnswers (j, Config.endOfData) ++ rest)).byteDone
        s.env.params.filler (j, Config.endOfData) rest).raiseFlag bitEod = t := by simpa [hdone] using h
    rw [hp, collected_sentinel hans heod hlt.le]
    simp [hstored, hcount, hstatus, hlt]
  · exact absurd (htimeout.symm.trans h) (by simp)
  · exact absurd (hwaiting.symm.trans h) (by simp)

/-- `RXCNT <- recv_bytes(RXP, 0, max)` without a `Timeout` leaves `RXP[0..RXCNT-1]` as what is collected (R140),
and `EOD` set when that is fewer than `max` bytes. -/
theorem recvPayload_done_stores {max : Nat} {s t : State} (hmax : max ≤ 255)
    (h : recvPayload max s = .done () t) :
    t.readRange .rxp 0 t.rx.cnt.toNat = collected max s.env.peer ∧
      t.ctl.status =
        if t.rx.cnt.toNat < max then s.ctl.status ||| bitEod else s.ctl.status := by
  have hsize : 0 + max ≤ Space.rxp.size := show 0 + max ≤ 256 by omega
  rw [recvPayload_eq] at h
  cases hr : recvBytes .rxp 0 max s with
  | done a u =>
    obtain rfl : u.countStored = t := by simpa [hr] using h
    obtain ⟨hstored, hstatus⟩ := recvLoop_done_stores rfl hmax hsize hr
    exact ⟨by simpa using hstored, hstatus⟩
  | timeout u => simp [hr] at h
  | waiting => simp [hr] at h

/-! ### An operation word that completes -/

/-- `TIMEOUT` is set in the `STATUS` of an operation that timed out (R247). -/
theorem timedOut_status_timeout (s : State) : flagSet s.timedOut.ctl.status bitTimeout = true := by
  refine bne_iff_ne.mpr fun hzero => ?_
  have hbit : (s.timedOut.ctl.status &&& bitTimeout).getLsbD 5 = false := by rw [hzero]; rfl
  simp [endedStatus, bitActive, bitDone, bitTimeout] at hbit

/-- An operation word written while idle, after which the block is not active and `TIMEOUT` is 0, ran its body to
the end (R246): a word only accepted leaves the block active. -/
theorem operate_completed {s : State} {w : Half} {p : Phase} {body : State → Run Unit}
    (hidle : s.active = false)
    (hended : (s.operate w p fun u => (body u).outcome).active = false)
    (hintime : flagSet (s.operate w p fun u => (body u).outcome).ctl.status bitTimeout = false) :
    ∃ u, body (s.accept w p) = .done () u ∧
      (s.operate w p fun u => (body u).outcome) = u.completed := by
  rcases operate_cases s w p fun u => (body u).outcome with
    ⟨hactive, -⟩ | ⟨-, haccept, -⟩ | ⟨-, -, t, hbody, ht⟩
  · simp [hidle] at hactive
  · simp [haccept, accept_active] at hended
  · rw [ht] at hintime ⊢
    obtain ⟨u, hdone, rfl⟩ | ⟨u, -, rfl⟩ := outcome_eq_some hbody
    · exact ⟨u, hdone, rfl⟩
    · exact absurd hintime (by rw [timedOut_status_timeout]; decide)

/-- A RECV_BYTES that completes ran `RXCNT <- recv_bytes(RXP, 0, m)` to its end (R135). -/
theorem recvBytes_completed {m : Byte} {s t : State} (hidle : s.active = false)
    (hexec : exec (.recvBytes m) s = .next t) (hended : t.active = false)
    (hintime : flagSet t.ctl.status bitTimeout = false) :
    ∃ u, recvPayload m.toNat (s.accept (opWord 4#4 m) .recv) = .done () u ∧ t = u.completed := by
  obtain rfl : s.operate (opWord 4#4 m) .recv (recvBytesBody m) = t := by
    simpa [exec, execRecvBytes] using hexec
  exact operate_completed (body := recvPayload m.toNat) hidle hended hintime

/-- `EOD` is set in the last `STATUS` of an operation accepted, when nothing but `EOD` was raised (R37, R38). -/
theorem endedStatus_eod (short : Prop) [Decidable short] :
    flagSet (endedStatus (if short then acceptedStatus ||| bitEod else acceptedStatus)) bitEod = true ↔
      short := by
  split_ifs with hshort
  · simp only [hshort, iff_true]
    decide
  · simp only [hshort, iff_false]
    decide

/-- Settles O25: the word ran `recv_bytes` to its end, which left the collected bytes in `RXP[0..RXCNT-1]`; that
equation of byte strings gives the count and each byte, and the `STATUS` it left decides `EOD`. -/
theorem receivedBytesPrecedeTheSentinel : Obligations.ReceivedBytesPrecedeTheSentinel := by
  intro m s t hidle _ hexec hended hintime
  obtain ⟨u, hdone, rfl⟩ := recvBytes_completed hidle hexec hended hintime
  obtain ⟨hstored, hstatus⟩ := recvPayload_done_stores (Nat.le_of_lt_succ m.isLt) hdone
  rw [accept_env] at hstored
  simp only [← hstored, readRange_length]
  refine ⟨rfl, fun i hi => ?byte, ?eod⟩
  case byte =>
    rw [readRange_getElem, Nat.zero_add]
    exact readByte_congr rfl rfl ..
  case eod =>
    rw [completed_rx, completed_ctl, hstatus, accept_ctl, endedStatus_eod, BitVec.lt_def]

end Sys2Proof.Machine
end

section
/-! The header codec (42_codec.md R160 to R162): its two functions are inverse to each other, and ENC_HDR and DEC_HDR
at the operation level are these functions on the message registers and the header buffers, with nothing else
changed. -/

namespace Sys2Proof.Machine

/-! ### The two functions -/

/-- The two bytes of a correlation id, joined again, are the id. -/
@[simp] theorem decodeHeader_encodeHeader (h : Header) : decodeHeader (encodeHeader h) = h := by
  obtain ⟨type, cid, len⟩ := h
  have hjoin : cid.extractLsb' 8 8 ++ cid.extractLsb' 0 8 = cid := BitVec.extractLsb'_append_extractLsb'
  exact congrArg (Header.mk type · len) hjoin

/-- A correlation id joined from two bytes splits into these two bytes. -/
@[simp] theorem encodeHeader_decodeHeader (b : HeaderBytes) : encodeHeader (decodeHeader b) = b := by
  obtain ⟨h0, h1, h2, h3⟩ := b
  have hlow : (h2 ++ h1).extractLsb' 0 8 = h1 := BitVec.extractLsb'_append_eq_right
  have hhigh : (h2 ++ h1).extractLsb' 8 8 = h2 := BitVec.extractLsb'_append_eq_left
  exact congrArg₂ (HeaderBytes.mk h0 · · h3) hlow hhigh

/-- Settles O9: splitting the correlation id into its two bytes and joining them undo each other, and the
other two fields are copied. -/
theorem headerRoundTrip : Obligations.HeaderRoundTrip :=
  ⟨decodeHeader_encodeHeader, encodeHeader_decodeHeader⟩

/-- The join of the correlation id as the arithmetic of R161 and R166: `h1 + 256 * h2`, without overflow. -/
theorem append_eq_ofNat (hi lo : Byte) : hi ++ lo = BitVec.ofNat 16 (lo.toNat + 256 * hi.toNat) := by
  apply BitVec.eq_of_toNat_eq
  have hlo : lo.toNat < 2 ^ 8 := lo.isLt
  have hhi : hi.toNat < 2 ^ 8 := hi.isLt
  rw [BitVec.toNat_append, ← Nat.shiftLeft_add_eq_or_of_lt hlo, Nat.shiftLeft_eq, BitVec.toNat_ofNat]
  omega

/-! ### Accepted and completed -/

/-- An accepted operation that raises no flag ends with `STATUS = DONE` (R38). -/
theorem endedStatus_acceptedStatus : endedStatus acceptedStatus = 0x02#8 := rfl

/-! Acceptance and completion touch no byte of memory. -/

@[simp] theorem readByte_accept (s : State) (w : Half) (p : Phase) (b : Space) (i : Nat) :
    (s.accept w p).readByte b i = s.readByte b i :=
  readByte_congr rfl rfl b i

@[simp] theorem readByte_completed (s : State) (b : Space) (i : Nat) :
    s.completed.readByte b i = s.readByte b i :=
  readByte_congr rfl rfl b i

/-- ENC_HDR touches no byte but the four of `TXH` (R167). -/
theorem readByte_encodeToTxh_other {b : Space} {i : Nat} (h : b ≠ .txh ∨ 4 ≤ i) (s : State) :
    s.encodeToTxh.readByte b i = s.readByte b i :=
  readByte_writeRange_other (h.imp_right .inr) s

/-! ### The two operations -/

/-- The state ENC_HDR leaves: its word accepted, the header encoded, the operation completed (R160). -/
def State.encHdrResult (s : State) : State := (s.accept (opWord 5#4 0#8) .codec).encodeToTxh.completed

theorem exec_encHdr_idle {s : State} (hidle : s.active = false) (hlevel : s.env.level = .operation) :
    exec .encHdr s = .next s.encHdrResult :=
  congrArg Host.Outcome.next (operate_operation hidle hlevel (opWord 5#4 0#8) .codec encHdrBody)

theorem readByte_encHdrResult (s : State) (b : Space) (i : Nat) :
    s.encHdrResult.readByte b i = s.encodeToTxh.readByte b i := by
  simp only [State.encHdrResult, readByte_completed, readByte_encodeToTxh, readByte_accept, accept_tx]

theorem encHdrResult_frame (s : State) :
    s.encHdrResult = { s with
      ctl := { s.ctl with cmd := s.encHdrResult.ctl.cmd, status := 0x02#8 }
      seq := s.encHdrResult.seq
      mem := s.encHdrResult.mem } := by
  rw [← endedStatus_acceptedStatus]
  conv_lhs => rw [State.encHdrResult, encodeToTxh_frame]
  rfl

/-- Settles O11: the bytes by the read after `TXH` is encoded, the frame because encoding changes the memory alone
and acceptance and completion change the control registers and the sequencer alone. -/
theorem encHdrEncodes : Obligations.EncHdrEncodes := by
  refine ⟨decode_opWord_encHdr, fun s hidle hlevel => ⟨s.encHdrResult, exec_encHdr_idle hidle hlevel, ?_⟩⟩
  simp only [readByte_encHdrResult]
  refine ⟨?type, ?low, ?high, ?length, fun _ _ hother => readByte_encodeToTxh_other hother s, rfl,
    encHdrResult_frame s⟩
  all_goals simp [readByte_encodeToTxh]

/-- The state DEC_HDR leaves: its word accepted, the header decoded, the operation completed (R161). -/
def State.decHdrResult (s : State) : State :=
  ((s.accept (opWord 6#4 0#8) .codec).putReceived (decodeHeader s.rxhBytes)).completed

theorem exec_decHdr_idle {s : State} (hidle : s.active = false) (hlevel : s.env.level = .operation) :
    exec .decHdr s = .next s.decHdrResult :=
  congrArg Host.Outcome.next (operate_operation hidle hlevel (opWord 6#4 0#8) .codec decHdrBody)

/-- Settles O12: DEC_HDR leaves the decoded `RXH` in the receive registers, and what it decodes as the join of two
bytes is the sum of R161. -/
theorem decHdrDecodes : Obligations.DecHdrDecodes := by
  refine ⟨decode_opWord_decHdr, fun s hidle hlevel =>
    ⟨s.decHdrResult, exec_decHdr_idle hidle hlevel, rfl, ?_⟩⟩
  rw [← append_eq_ofNat, ← endedStatus_acceptedStatus]
  rfl

end Sys2Proof.Machine
end

section
/-! The console front end on an ordinary byte (43_console_frontend.md R184): `FEED` branches on whether the host
is free and whether the line buffer has room, one equation a branch. -/

namespace Sys2Proof.Machine

/-! ### `FEED` of an ordinary byte -/

theorem exec_conOther (s : State) (c : Byte) : exec (.conOther c) s = .next (s.feedOther c) := rfl

/-- With room in the buffer the byte is echoed, stored at the cursor, and the cursor advanced (R184). -/
theorem feedOther_of_room {s : State} (hfree : s.hostBusy = false) (hroom : s.front.cur < 255#8) (c : Byte) :
    s.feedOther c =
      ((s.consoleWrite [c]).writeByte .cmdbuf s.front.cur.toNat c).setCursor (s.front.cur + 1#8) := by
  rw [State.feedOther, if_neg (Bool.eq_false_iff.mp hfree), if_pos hroom]

/-- A byte that finds no room is dropped without echo (R184). -/
theorem feedOther_of_no_room {s : State} (hfree : s.hostBusy = false) (hfull : ¬ s.front.cur < 255#8)
    (c : Byte) : s.feedOther c = s := by
  rw [State.feedOther, if_neg (Bool.eq_false_iff.mp hfree), if_neg hfull]

/-- Settles O42: below 255 the branch of `FEED` that has room, at 255 the branch that has none. What the byte
is plays no part: the row is run by its constructor, and the decoder has told control bytes apart before. -/
theorem feedStoresOtherBytes : Obligations.FeedStoresOtherBytes := by
  intro s c hfree _
  rw [exec_conOther]
  refine ⟨fun hroom => ?stored, fun hfull => ?dropped⟩
  case stored =>
    rw [feedOther_of_room hfree hroom]
    rfl
  case dropped =>
    have hno : ¬ s.front.cur < 255#8 := by simp [hfull]
    rw [feedOther_of_no_room hfree hno]

end Sys2Proof.Machine
end

section
/-! Host writes while an operation runs (60_exceptions.md R249): the pending write is the next action because no
return of `dispatch` is due outside the idle phase, and each of its three kinds, an operation word for `CMD`, a value
for another register and a byte for a buffer, leaves the state as it is. -/

namespace Sys2Proof.Machine

/-! ### What an active block refuses -/

/-- The row an operation word decodes to: one of the seven operations, or the row of the reserved words (R92,
R93). -/
theorem decode_opw_cases (w : Half) :
    isOperation (decode (.opw w)) = true ∨ decode (.opw w) = .opwIllegal w := by
  by_cases h : ReservedWord w
  case pos => exact .inr (decode_of_reservedWord h)
  case neg =>
    obtain ⟨op, a, rfl, rfl | rfl | rfl | rfl | rfl | rfl | rfl⟩ := eq_opWord_of_not_reservedWord h
    all_goals exact .inl (by simp [isOperation])

/-- Every operation is refused while active (R249, R252). -/
theorem exec_isOperation_active {i : Instr} (hi : isOperation i = true) {s : State} (h : s.active = true) :
    exec i s = .next s := by
  cases i with
  | sendByte | sendBytes | recvByte | recvBytes | encHdr | decHdr | dispatch =>
    exact congrArg Host.Outcome.next (operate_active h _ _ _)
  | _ => cases hi

theorem exec_opwIllegal_active {s : State} (h : s.active = true) (w : Half) :
    exec (.opwIllegal w) s = .next s :=
  congrArg Host.Outcome.next (if_pos h)

/-- Whatever word is written to `CMD` while active, nothing comes of it (R249). -/
theorem exec_decode_opw_active {s : State} (h : s.active = true) (w : Half) :
    exec (decode (.opw w)) s = .next s := by
  obtain hop | hill := decode_opw_cases w
  · exact exec_isOperation_active hop h
  · rw [hill, exec_opwIllegal_active h]

theorem hostWrite_active {s : State} (h : s.active = true) (n : Byte) (v : Half) : s.hostWrite n v = s :=
  if_pos h

theorem hostBufWrite_active {s : State} (h : s.active = true) (b : Space) (i : Nat) (v : Byte) :
    s.hostBufWrite b i v = s :=
  if_pos h

/-! ### The step that takes a pending input -/

theorem returnDue_of_phase_ne_idle {s : State} (h : s.seq.phase ≠ .idle) : s.returnDue = false := by
  simp [State.returnDue, h]

/-- With no return due, the pending input is taken, the reset input as any other. -/
theorem turn_of_inbox {s : State} (hdue : s.returnDue = false) {i : Input} {later : List Input}
    (hinbox : s.env.inbox = i :: later) : s.turn = s.inputTurn i later := by
  cases i <;> simp [State.turn, hinbox, hdue]

/-- The step that takes a host's register write: an operation word is decoded and run, any other register is
written. -/
theorem step_hostWrite {s : State} (hdue : s.returnDue = false) {n : Byte} {v : Half} {later : List Input}
    (hinbox : s.env.inbox = .hostWrite n v :: later) :
    let s' := { s with env := { s.env with inbox := later } }
    step s = if n = regCmd then exec (decode (.opw v)) s' else .next (s'.hostWrite n v) := by
  rw [step, turn_of_inbox hdue hinbox, State.inputTurn]
  by_cases hn : n = regCmd <;> simp only [hn, if_true, if_false]

theorem step_bufWrite {s : State} (hdue : s.returnDue = false) {b : Space} {i : Nat} {v : Byte}
    {later : List Input} (hinbox : s.env.inbox = .bufWrite b i v :: later) :
    step s = .next ({ s with env := { s.env with inbox := later } }.hostBufWrite b i v) := by
  rw [step, turn_of_inbox hdue hinbox, State.inputTurn]

/-- Settles O15: outside the idle phase the write is taken in this step, and the state that takes it is still
active, so `CMD`, any other register and a buffer each refuse it. -/
theorem hostWritesRefusedWhileActive : Obligations.HostWritesRefusedWhileActive := by
  intro s later hactive hphase
  have hdue : s.returnDue = false := returnDue_of_phase_ne_idle hphase
  have htaken : { s with env := { s.env with inbox := later } }.active = true := hactive
  refine ⟨fun n v hinbox => ?register, fun b i v hinbox => ?buffer⟩
  case register =>
    rw [step_hostWrite hdue hinbox]
    split_ifs with hcmd
    case pos => exact exec_decode_opw_active htaken v
    case neg => rw [hostWrite_active htaken]
  case buffer => rw [step_bufWrite hdue hinbox, hostBufWrite_active htaken]

end Sys2Proof.Machine
end

section
/-! The encoder and the decoder are inverse to each other on well-formed items (30_encoding.md R90 to R104;
43_console_frontend.md R181), row by row from the decoder's equations. -/

namespace Sys2Proof

/-- A reserved operation word is an item of its own and no other word is, so every operation word decodes to a
well-formed item (R93). -/
theorem wellFormed_decode_opw (w : Half) : WellFormed (decode (.opw w)) := by
  by_cases h : ReservedWord w
  case pos => rwa [decode_of_reservedWord h]
  case neg =>
    obtain ⟨op, a, rfl, rfl | rfl | rfl | rfl | rfl | rfl | rfl⟩ := eq_opWord_of_not_reservedWord h
    all_goals simp [WellFormed]

theorem not_recognizedType_iff {t : Byte} :
    ¬ RecognizedType t ↔ t ≠ 0x10#8 ∧ t ≠ 0x20#8 ∧ t ≠ 0x40#8 ∧ t ≠ 0x80#8 := by
  simp [RecognizedType, Config.tagCommand, Config.tagResponse, Config.tagAlert, Config.tagError]

/-- The row of a header, by its type byte (R95, R97). -/
theorem decode_hdrWord_cases (t lo hi len : Byte) :
    (t = Config.tagCommand ∧ decode (.hdr (hdrWord t lo hi len)) = .hdrCommand lo hi len) ∨
    (t = Config.tagResponse ∧ decode (.hdr (hdrWord t lo hi len)) = .hdrResponse lo hi len) ∨
    (t = Config.tagAlert ∧ decode (.hdr (hdrWord t lo hi len)) = .hdrAlert lo hi len) ∨
    (t = Config.tagError ∧ decode (.hdr (hdrWord t lo hi len)) = .hdrError lo hi len) ∨
    (¬ RecognizedType t ∧ decode (.hdr (hdrWord t lo hi len)) = .hdrUnrecognized t lo hi len) := by
  rw [decode_hdrWord]
  by_cases h : RecognizedType t
  case pos => obtain rfl | rfl | rfl | rfl := h <;> simp [Config.tagCommand, Config.tagResponse,
    Config.tagAlert, Config.tagError]
  case neg =>
    obtain ⟨hcommand, hresponse, halert, herror⟩ := not_recognizedType_iff.mp h
    rw [if_neg hcommand, if_neg hresponse, if_neg halert, if_neg herror]
    exact .inr (.inr (.inr (.inr ⟨h, rfl⟩)))

/-- The row of a header whose bytes are its own fields (R94). -/
theorem decode_hdr_cases (h : Quad) :
    WellFormed (decode (.hdr h)) ∧ encode (decode (.hdr h)) = .hdr h := by
  rw [← hdrWord_fields h]
  obtain ⟨ht, hd⟩ | ⟨ht, hd⟩ | ⟨ht, hd⟩ | ⟨ht, hd⟩ | ⟨ht, hd⟩ :=
    decode_hdrWord_cases (hdrType h) (hdrLow h) (hdrHigh h) (hdrLength h)
  case inr.inr.inr.inr => exact ⟨by rwa [hd], by rw [hd, encode]⟩
  all_goals exact ⟨by rw [hd]; trivial, by rw [hd, encode, ht]⟩

theorem decode_wb_wellFormed_encode (r : Byte) :
    WellFormed (decode (.wb r)) ∧ encode (decode (.wb r)) = .wb r := by
  obtain ⟨rfl, h⟩ | ⟨rfl, h⟩ | ⟨rfl, h⟩ | ⟨hbusy, heod, hsync, h⟩ := decode_wb_cases r
  case inr.inr.inr => rw [h]; exact ⟨⟨hbusy, heod, hsync⟩, rfl⟩
  all_goals rw [h]; exact ⟨trivial, rfl⟩

theorem decode_con_wellFormed_encode (c : Byte) :
    WellFormed (decode (.con c)) ∧ encode (decode (.con c)) = .con c := by
  obtain ⟨rfl, h⟩ | ⟨rfl, h⟩ | ⟨rfl, h⟩ | ⟨hcr, hlf, hbs, h⟩ := decode_con_cases c
  case inr.inr.inr => rw [h]; exact ⟨fun hc => hc.elim hcr (Or.rec hlf hbs), rfl⟩
  all_goals rw [h]; exact ⟨trivial, rfl⟩

/-- Settles O3, row by row: the operation rows by the decoder's equation on `opWord`, the header rows by the type
byte, the two byte formats by the class that well-formedness fixes. -/
theorem decodeOfEncodeIsIdentity : Obligations.DecodeOfEncodeIsIdentity := by
  intro i hwf
  cases i with
  | opwIllegal w => exact decode_of_reservedWord hwf
  | hdrCommand lo hi len | hdrResponse lo hi len | hdrAlert lo hi len | hdrError lo hi len =>
    exact decode_hdrWord _ lo hi len
  | hdrUnrecognized t lo hi len =>
    obtain ⟨hcommand, hresponse, halert, herror⟩ := not_recognizedType_iff.mp hwf
    rw [encode, decode_hdrWord, if_neg hcommand, if_neg hresponse, if_neg halert, if_neg herror]
  | wbData r =>
    obtain ⟨hbusy, heod, hsync⟩ := hwf
    exact (if_neg hbusy).trans ((if_neg heod).trans (if_neg hsync))
  | conOther c =>
    obtain ⟨hcr, hlf, hbs⟩ : c ≠ Config.cr ∧ c ≠ Config.lf ∧ c ≠ Config.bs := by
      simpa only [WellFormed, ControlByte, not_or] using hwf
    exact (if_neg hcr).trans ((if_neg hlf).trans (if_neg hbs))
  | wbBusy | wbEndOfData | wbSync | conCr | conLf | conBs => rfl
  | _ => simp [encode]

/-- Settles O4: well-formedness by the classes of each format; the item decoded again is then O3 for the decoded
item; and in the three formats without an ignored field the encoder gives the value back. -/
theorem encodeOfDecodeKeepsTheItem : Obligations.EncodeOfDecodeKeepsTheItem := by
  have hwf : ∀ e, WellFormed (decode e) := by
    intro e
    cases e with
    | opw w => exact wellFormed_decode_opw w
    | hdr h => exact (decode_hdr_cases h).1
    | wb r => exact (decode_wb_wellFormed_encode r).1
    | con c => exact (decode_con_wellFormed_encode c).1
  exact ⟨fun e => ⟨hwf e, decodeOfEncodeIsIdentity _ (hwf e)⟩, fun h => (decode_hdr_cases h).2,
    fun r => (decode_wb_wellFormed_encode r).2, fun c => (decode_con_wellFormed_encode c).2⟩

end Sys2Proof
end

section
/-! Whose turn it is, and what the turn leaves (00_scope.md R10; 60_exceptions.md R280): the outcome of a turn, and
the step in each of the three cases in which no reset is driven. -/

namespace Sys2Proof.Machine

/-- What a turn leaves: the outcome of the item it runs, or the state it moves to. -/
def Turn.outcome : Turn → Host.Outcome State Fault Refusal
  | .run i s => exec i s
  | .move s => .next s

theorem next_congr {s t : State} (h : s = t) :
    (.next s : Host.Outcome State Fault Refusal) = .next t :=
  congrArg _ h

/-- The state once the pending input is taken (log 12). -/
def State.withInbox (s : State) (later : List Input) : State :=
  { s with env := { s.env with inbox := later } }

@[simp] theorem withInbox_active (s : State) (later : List Input) : (s.withInbox later).active = s.active := rfl

@[simp] theorem Turn.outcome_run (i : Instr) (s : State) : (Turn.run i s).outcome = exec i s := rfl

@[simp] theorem Turn.outcome_move (s : State) : (Turn.move s).outcome = .next s := rfl

theorem step_eq_outcome (s : State) : step s = s.turn.outcome := by
  rw [step]
  cases s.turn <;> rfl

/-- With nothing listed and no return due, the block acts. -/
theorem step_block {s : State} (hinbox : s.env.inbox = []) (hdue : s.returnDue = false) :
    step s = s.blockTurn.outcome := by
  simp [step_eq_outcome, State.turn, hinbox, hdue]

/-- With no return due, the pending input is taken. -/
theorem step_input {s : State} (hdue : s.returnDue = false) {i : Input} {later : List Input}
    (hinbox : s.env.inbox = i :: later) : step s = (s.inputTurn i later).outcome := by
  rw [step_eq_outcome, turn_of_inbox hdue hinbox]

/-- A return that is due comes before everything but the reset input (R185, log 12). -/
theorem step_returnDue {s : State} (hdue : s.returnDue = true)
    (hreset : ∀ later, s.env.inbox ≠ .reset :: later) : step s = .next s.dispatchReturned := by
  rw [step_eq_outcome]
  obtain ⟨later, hinbox, -⟩ | ⟨-, hturn⟩ | ⟨hnot, -⟩ | ⟨hnot, -⟩ := turn_cases s
  · exact absurd hinbox (hreset later)
  · rw [hturn, Turn.outcome_move]
  all_goals simp [hdue] at hnot

/-- The reset input comes before all else (R280). -/
theorem step_reset {s : State} {later : List Input} (hinbox : s.env.inbox = .reset :: later) :
    step s = .next { s with env := { s.env with inbox := later } }.applyReset := by
  simp [step_eq_outcome, State.turn, hinbox, State.inputTurn]

/-- A step that is no reset is the return of an ended `dispatch`, a pending input, or the block's action. -/
theorem step_outcome_cases {s : State} (hreset : ∀ later, s.env.inbox ≠ .reset :: later) :
    (s.returnDue = true ∧ step s = .next s.dispatchReturned) ∨
    (s.returnDue = false ∧ ∃ i later, s.env.inbox = i :: later ∧ i ≠ .reset ∧
      step s = (s.inputTurn i later).outcome) ∨
    (s.returnDue = false ∧ s.env.inbox = [] ∧ step s = s.blockTurn.outcome) := by
  cases hdue : s.returnDue
  case true => exact .inl ⟨rfl, step_returnDue hdue hreset⟩
  case false =>
    cases hinbox : s.env.inbox
    case nil => exact .inr (.inr ⟨rfl, rfl, step_block hinbox hdue⟩)
    case cons i later =>
      have hne : i ≠ .reset := fun hi => hreset later (hi ▸ hinbox)
      exact .inr (.inl ⟨rfl, i, later, rfl, hne, step_input hdue hinbox⟩)

theorem returnDue_of_hostBusy_eq_false {s : State} (h : s.hostBusy = false) : s.returnDue = false := by
  simp only [State.hostBusy, Bool.or_eq_false_iff] at h
  simp [State.returnDue, h.2]

/-- The step that takes a console byte the control loop is free for (R187). -/
theorem step_console {s : State} (hfree : s.hostBusy = false) {c : Byte} {later : List Input}
    (hinbox : s.env.inbox = .console c :: later) :
    step s = exec (decode (.con c)) { s with env := { s.env with inbox := later } } := by
  rw [step_input (returnDue_of_hostBusy_eq_false hfree) hinbox]
  simp [State.inputTurn, hfree]

/-- Settles O1: a word and a console byte are the pending input; a returned byte and a header are met in phases that
are not idle, so with nothing listed the block acts. -/
theorem stepRunsTheDecodedItem : Obligations.StepRunsTheDecodedItem := by
  intro s
  refine ⟨fun v later hinbox hdue => ?word, fun c later hinbox hfree => step_console hfree hinbox,
    fun hinbox hphase hcheck => ?returned, fun hinbox hphase => ?header⟩
  case word => exact (step_hostWrite hdue hinbox).trans (if_pos rfl)
  case returned =>
    rw [step_block hinbox (returnDue_of_engine hphase), blockTurn_engine hphase, State.engineTurn, hcheck,
      Turn.outcome_run]
  case header =>
    have hne : s.seq.phase ≠ .idle := by
      rintro hidle
      simp [hidle] at hphase
    rw [step_block hinbox (returnDue_of_phase_ne_idle hne)]
    obtain hdecode | ⟨hcodec, hop⟩ := hphase
    · simp [State.blockTurn, hdecode]
    · simp [State.blockTurn, hcodec, hop]

end Sys2Proof.Machine
end

section
/-! Operation words (60_exceptions.md R246 to R252): each of the seven operations writes one word, is accepted at one
phase and runs one body, and neither depends on the flags the last operation left. -/

namespace Sys2Proof.Machine

/-- Each operation is `operate` of its own word, first phase and body. -/
theorem exec_isOperation {i : Instr} (hi : isOperation i = true) :
    ∃ w p body, ∀ s, exec i s = .next (s.operate w p body) := by
  cases i with
  | sendByte | sendBytes | recvByte | recvBytes | encHdr | decHdr | dispatch =>
    exact ⟨_, _, _, fun _ => rfl⟩
  | _ => cases hi

/-- Settles O14: at the sequencer level `operate` is acceptance, and the record is what acceptance writes. -/
theorem sequencerLevelAccepts : Obligations.SequencerLevelAccepts := by
  intro s a hidle hlevel
  have haccept := fun w p body => next_congr (operate_sequencer hidle hlevel w p body)
  exact ⟨haccept .., haccept .., haccept .., haccept .., haccept .., haccept .., haccept ..⟩

/-- Acceptance overwrites `STATUS`, so an idle block runs a word in the same way whatever flags it holds. -/
theorem operate_putStatus {s : State} (hidle : s.active = false) {v : Byte} (hv : flagSet v bitActive = false)
    (w : Half) (p : Phase) (body : State → Option State) :
    (s.putStatus v).operate w p body = s.operate w p body := by
  have hidle' : (s.putStatus v).active = false := hv
  simp only [State.operate, hidle, hidle']
  rfl

/-- Settles O16: acceptance overwrites every flag before the body of the operation runs. -/
theorem flagsAreNeverRead : Obligations.FlagsAreNeverRead := by
  intro i s v hi hidle hv
  obtain ⟨w, p, body, hexec⟩ := exec_isOperation hi
  rw [hexec, hexec, operate_putStatus hidle hv]

theorem commandString_accept (s : State) (w : Half) (p : Phase) (l : Byte) :
    (s.accept w p).commandString l = s.commandString l :=
  readRange_congr (by rfl) (by rfl) ..

/-- Settles O29: the accepted state has the command string of the state before, so the body requests the reset. -/
theorem dispatchOfKeywordRequestsReset : Obligations.DispatchOfKeywordRequestsReset := by
  intro l s hidle hlevel hkey
  have hcommand : (s.accept (opWord 7#4 l) .keyChk).commandString l = s.commandString l :=
    commandString_accept s _ _ l
  have hbody : dispatchBody l (s.accept (opWord 7#4 l) .keyChk) =
      some (s.accept (opWord 7#4 l) .keyChk).sysResetRequested :=
    if_pos (decide_eq_true (hcommand.trans hkey))
  rw [exec, execDispatch, operate_operation hidle hlevel, hbody]
  rfl

end Sys2Proof.Machine
end

section
/-! A header decoded and a byte returned by the peer, phase by phase (41_transceiver.md R131, R141; 42_codec.md R161;
44_orchestrator.md R204 to R207, R212). -/

namespace Sys2Proof.Machine

/-! ### Headers -/

theorem takeHeader_decode {s : State} (h : s.seq.phase = .decode) (t lo hi len : Byte) :
    s.takeHeader t lo hi len = { s with
      rx := { type := t, cid := hi ++ lo, len := len, cnt := s.rx.cnt }
      seq := { s.seq with phase := .rxPay, idx := 0#8 } } := by
  rw [State.takeHeader, h]
  rfl

theorem takeHeader_codec {s : State} (h : s.seq.phase = .codec) (t lo hi len : Byte) :
    s.takeHeader t lo hi len = { s with
      rx := { type := t, cid := hi ++ lo, len := len, cnt := s.rx.cnt }
      ctl := { s.ctl with status := endedStatus s.ctl.status }
      seq := { phase := .idle, idx := 0#8, be := .idle } } := by
  rw [State.takeHeader, h]
  rfl

/-- The five header rows run one function of the type byte (R96). -/
theorem exec_header_rows {s : State} {lo hi len : Byte} {result : Byte → State}
    (h : ∀ type, s.takeHeader type lo hi len = result type) (t : Byte) :
    exec (.hdrCommand lo hi len) s = .next (result 0x10#8) ∧
    exec (.hdrResponse lo hi len) s = .next (result 0x20#8) ∧
    exec (.hdrAlert lo hi len) s = .next (result 0x40#8) ∧
    exec (.hdrError lo hi len) s = .next (result 0x80#8) ∧
    exec (.hdrUnrecognized t lo hi len) s = .next (result t) :=
  ⟨next_congr (h _), next_congr (h _), next_congr (h _), next_congr (h _), next_congr (h _)⟩

/-- Settles O13: the five header rows are one function of the type byte, and each of the two phases is a branch of
it. -/
theorem headerItemsLoadReceiveRegisters : Obligations.HeaderItemsLoadReceiveRegisters := by
  intro s t lo hi len _
  refine ⟨fun hphase => exec_header_rows (takeHeader_decode hphase · lo hi len) t,
    fun hphase hstatus => ?codec⟩
  case codec =>
    have htake := (takeHeader_codec hphase · lo hi len)
    rw [hstatus] at htake
    exact exec_header_rows htake t

/-! ### Returned bytes

`exec` of a returned byte that is not `BUSY` is `takeByte` of it, whatever its row. -/

theorem exec_decode_wb {r : Byte} (h : r ≠ Config.busy) (s : State) :
    exec (decode (.wb r)) s = .next (s.takeByte r) := by
  obtain ⟨hr, -⟩ | ⟨rfl, hd⟩ | ⟨rfl, hd⟩ | ⟨-, -, -, hd⟩ := decode_wb_cases r
  · exact absurd hr h
  all_goals rw [hd]; rfl

theorem exec_decode_wb_busy (s : State) : exec (decode (.wb Config.busy)) s = .next s.takeBusy := rfl

/-- Settles O37: the two outcomes of a `BUSY` answer, by the retry limit; at the limit the phase decides whether the
count is stored. -/
theorem busyAnswerRetriesOrTimesOut : Obligations.BusyAnswerRetriesOrTimesOut := by
  intro s hengine
  have hexec : exec .wbBusy s = .next s.takeBusy := rfl
  obtain ⟨hlimit, htake⟩ | ⟨hlimit, htake⟩ := takeBusy_cases hengine
  · rw [hexec, htake]
    exact ⟨fun _ => rfl, fun h => absurd (hlimit.symm.trans h) (by decide)⟩
  · refine ⟨fun h => absurd (hlimit.symm.trans h) (by decide), fun _ => ⟨fun hstores => ?_, fun hstores => ?_⟩⟩
    all_goals rw [hexec, htake, hstores]; rfl

/-! The poll takes the sync byte, any other byte below the limit, and any other byte at the limit. -/

theorem polledOne_sync (s : State) : s.polledOne Config.tagResponse =
    { s with
      seq := { s.seq with phase := .rxHdr, idx := 0#8 }
      polls := s.polls + 1
      mem := s.mem.write .rxh 0 Config.tagResponse } := by
  rw [State.polledOne, if_pos rfl]
  rfl

theorem polledOne_again {s : State} {r : Byte} (hr : r ≠ Config.tagResponse)
    (hlimit : limitReached (s.polls + 1) s.env.params.syncLimit = false) :
    s.polledOne r = { s with seq := { s.seq with phase := .pollWait }, polls := s.polls + 1 } := by
  rw [State.polledOne, if_neg hr, if_neg (by simpa using hlimit)]
  rfl

theorem polledOne_limit {s : State} {r : Byte} (hr : r ≠ Config.tagResponse)
    (hlimit : limitReached (s.polls + 1) s.env.params.syncLimit = true) :
    s.polledOne r = (s.setPolls (s.polls + 1)).timedOut := by
  rw [State.polledOne, if_neg hr, if_pos (by simpa using hlimit)]

/-- Settles O38: each clause is one branch of the poll's step, and `0xFF` is in the branch of the bytes that are
not `0x20`. -/
theorem syncPollTakesOneByte : Obligations.SyncPollTakesOneByte := by
  intro s r hphase ⟨_, _, hr⟩
  have hexec : ∀ v, Host.Outcome.next (s.takeByte v) =
      (.next ((s.setEngine .idle).polledOne v) : Host.Outcome State Fault Refusal) :=
    fun v => congrArg _ (takeByte_pollRx hphase v)
  have hff : Config.endOfData ≠ Config.tagResponse := by decide
  refine ⟨(hexec _).trans (congrArg _ (polledOne_sync _)), fun hlimit => ?again, fun hlimit => ?ended⟩
  case again =>
    exact ⟨(hexec _).trans (congrArg _ (polledOne_again hr hlimit)),
      (hexec _).trans (congrArg _ (polledOne_again hff hlimit))⟩
  case ended =>
    exact ⟨(hexec _).trans (congrArg _ (polledOne_limit hr hlimit)),
      (hexec _).trans (congrArg _ (polledOne_limit hff hlimit))⟩

/-- Settles O39: a byte that is not `0xFF` is in the branch that stores it, whatever its row. -/
theorem headerTailTakesOneByte : Obligations.HeaderTailTakesOneByte := by
  intro s r hphase ⟨_, hr, _⟩
  have hstored : ∀ v, v ≠ Config.endOfData → s.takeByte v = { s with
      seq := { phase := .rxHdr, idx := s.seq.idx + 1#8, be := .idle }
      mem := s.mem.write .rxh (1 + s.seq.idx.toNat) v } := by
    intro v hv
    rw [takeByte_rxHdr hphase, State.tailOne, if_neg hv, ← hphase]
    rfl
  have hended : s.takeByte Config.endOfData = { s with
      ctl := { s.ctl with status := s.ctl.status ||| 0x04#8 ||| 0x08#8 }
      seq := { s.seq with phase := .decode, be := .idle } } :=
    (takeByte_rxHdr hphase _).trans (if_pos rfl)
  exact ⟨congrArg _ (hstored r hr), congrArg _ (hstored _ (by decide)), congrArg _ hended⟩

/-- Settles O40: as for the header tail, with the payload's buffer and end. -/
theorem payloadTakesOneByte : Obligations.PayloadTakesOneByte := by
  intro s r hphase ⟨_, hr, _⟩
  have hstored : ∀ v, v ≠ Config.endOfData → s.takeByte v = { s with
      seq := { phase := .rxPay, idx := s.seq.idx + 1#8, be := .idle }
      mem := s.mem.write .rxp s.seq.idx.toNat v } := by
    intro v hv
    rw [takeByte_rxPay hphase, State.payloadOne, if_neg hv, ← hphase]
    rfl
  have hended : s.takeByte Config.endOfData = { s with
      ctl := { s.ctl with status := s.ctl.status ||| 0x04#8 }
      seq := { s.seq with phase := .term, be := .idle } } :=
    (takeByte_rxPay hphase _).trans (if_pos rfl)
  exact ⟨congrArg _ (hstored r hr), congrArg _ (hstored _ (by decide)), congrArg _ hended⟩

/-- Settles O41: neither phase looks at the byte it takes, so one equation serves the three rows. -/
theorem sendAndSingleReceiveTakeAnyByte : Obligations.SendAndSingleReceiveTakeAnyByte := by
  intro s r _
  refine ⟨fun hphase => ?payload, fun hphase hop hstatus => ?single⟩
  case payload =>
    have hmoved : ∀ v, s.takeByte v = { s with
        seq := { phase := .txPay, idx := s.seq.idx + 1#8, be := .idle } } := by
      intro v
      rw [takeByte_txPay hphase, ← hphase]
      rfl
    exact ⟨congrArg _ (hmoved _), congrArg _ (hmoved _), congrArg _ (hmoved _)⟩
  case single =>
    have hsingle : (s.setEngine .idle).singleReceive = true := beq_iff_eq.mpr hop
    have hended : ∀ v, s.takeByte v = { s with
        ctl := { s.ctl with status := 0x02#8 }
        seq := { phase := .idle, idx := 0#8, be := .idle } } := by
      intro v
      rw [takeByte_recv hphase, State.receivedOne, if_pos hsingle, ← endedStatus_acceptedStatus,
        show acceptedStatus = s.ctl.status from hstatus.symm]
      rfl
    exact ⟨congrArg _ (hended _), congrArg _ (hended _), congrArg _ (hended _)⟩

end Sys2Proof.Machine
end

section
/-! The host's view: reset, register and buffer access, and the end of DISPATCH (10_state.md R40, R47;
20_memory.md R65, R67; 44_orchestrator.md R208). -/

namespace Sys2Proof.Machine

/-! ### Memory -/

/-- Settles O54: a read after a write, at the byte written and elsewhere. -/
theorem byteWrittenReadsBack : Obligations.ByteWrittenReadsBack := by
  intro s b b' i j v hi
  by_cases h : b' = b ∧ j = i
  case pos =>
    obtain ⟨rfl, rfl⟩ := h
    rw [if_pos ⟨rfl, rfl⟩, readByte_writeByte_self hi]
  case neg => rw [if_neg h, readByte_writeByte_other (not_and_or.mp h)]

/-! ### Reset -/

/-- Settles O49: the fields of the reset state, what an unlisted byte of it reads as, and a block that is idle with
nothing listed. -/
theorem resetValues : Obligations.ResetValues := by
  refine ⟨rfl, rfl, rfl, rfl, rfl, rfl, rfl, rfl, rfl, rfl, fun _ => ⟨rfl, rfl⟩, ?unspecified, rfl⟩
  case unspecified =>
    rintro b i (rfl | rfl | rfl)
    all_goals rfl

/-- Settles O50: the reset input is taken before all else. -/
theorem resetInputResets : Obligations.ResetInputResets := fun _ _ hinbox => step_reset hinbox

/-! ### Registers -/

/-- A value written reaches one of the three read/write registers, or none (R40). -/
theorem writeReg_eq (s : State) (n : Byte) (v : Half) :
    s.writeReg n v = { s with
      tx :=
        { type := if n = 0x02#8 then v.setWidth 8 else s.tx.type
          cid := if n = 0x03#8 then v else s.tx.cid
          len := if n = 0x04#8 then v.setWidth 8 else s.tx.len } } := by
  by_cases h2 : n = 0x02#8
  · subst h2; rfl
  by_cases h3 : n = 0x03#8
  · subst h3; rfl
  by_cases h4 : n = 0x04#8
  · subst h4; rfl
  · simp only [State.writeReg, if_neg h2, if_neg h3, if_neg h4]

/-- Settles O51: the write is the pending input, an idle block takes it, and it is one of the writes of
`writeReg_eq`. -/
theorem hostRegisterWrites : Obligations.HostRegisterWrites := by
  intro s n v later hidle hdue hn hinbox
  have hidle' : ¬ (s.withInbox later).active = true := by simpa using hidle
  rw [step_hostWrite hdue hinbox, if_neg hn]
  exact next_congr ((if_neg hidle').trans (writeReg_eq _ n v))

theorem step_hostRead {s : State} (hdue : s.returnDue = false) {n : Byte} {later : List Input}
    (hinbox : s.env.inbox = .hostRead n :: later) :
    step s = .next ((s.withInbox later).hostRead n) :=
  step_input hdue hinbox

theorem step_bufRead {s : State} (hdue : s.returnDue = false) {b : Space} {i : Nat} {later : List Input}
    (hinbox : s.env.inbox = .bufRead b i :: later) :
    step s = .next ((s.withInbox later).hostBufRead b i) :=
  step_input hdue hinbox

/-- `STATUS` can be read at any time (R37). -/
theorem hostRead_status (s : State) : s.hostRead 0x01#8 = s.hostGets (s.ctl.status.setWidth 16) := rfl

/-- A number that names no register reads 0 at any time (R40). -/
theorem hostRead_absent {n : Byte} (h : 0x0E#8 ≤ n) (s : State) : s.hostRead n = s.hostGets 0#16 := by
  have hn : n ≠ 0x01#8 := by
    rintro rfl
    exact absurd h (by decide)
  rw [State.hostRead, if_neg hn, if_pos h]

/-- While idle a register that exists is read (R40). -/
theorem hostRead_idle {s : State} (hidle : s.active = false) {n : Byte} (h : ¬ 0x0E#8 ≤ n) :
    s.hostRead n = s.hostGets (s.readReg n) := by
  rw [State.hostRead, if_neg h, if_neg (Bool.eq_false_iff.mp hidle), ite_self]

/-- While active a read of any register but `STATUS` is a fresh free value (R77). -/
theorem hostRead_active {s : State} (hactive : s.active = true) {n : Byte} (hn : n ≠ 0x01#8)
    (h : ¬ 0x0E#8 ≤ n) : s.hostRead n = s.hostGetsAny := by
  rw [State.hostRead, if_neg hn, if_neg h, if_pos hactive]

/-- Settles O52: the read is the pending input; the four lemmas on it are the clauses, and while idle each number
selects its register. -/
theorem hostRegisterReads : Obligations.HostRegisterReads := by
  intro s n later hdue hinbox
  rw [step_hostRead hdue hinbox]
  refine ⟨?status, fun hn => ?absent, fun hidle => ?idle, fun hactive hn hlt => ?active⟩
  case status =>
    rintro rfl
    rw [hostRead_status]
    rfl
  case absent =>
    rw [hostRead_absent hn]
    rfl
  case idle =>
    have hread := fun n (hn : ¬ 0x0E#8 ≤ n) => next_congr (hostRead_idle (s := s.withInbox later) hidle hn)
    refine ⟨?_, ?_, ?_, ?_, ?_, ?_, ?_, ?rxClass, ?_, ?_, ?_, ?_, ?_⟩
    case rxClass =>
      rintro rfl
      rw [← s.readReg_rxClass]
      exact hread 0x08#8 (by decide)
    all_goals
      rintro rfl
      exact hread _ (by decide)
  case active =>
    exact next_congr (hostRead_active (s := s.withInbox later) hactive hn (BitVec.not_le.mpr hlt))

/-! ### Buffers -/

theorem hostWritable_iff (b : Space) : hostWritable b = true ↔ b = .txp ∨ b = .rxh := by
  cases b <;> decide

/-- While idle a write inside a buffer the host may write is made (R28, R29). -/
theorem hostBufWrite_made {s : State} (hidle : s.active = false) {b : Space} (hb : b = .txp ∨ b = .rxh)
    (i : Nat) (v : Byte) : s.hostBufWrite b i v = s.writeByte b i v := by
  rw [State.hostBufWrite, if_neg (Bool.eq_false_iff.mp hidle), if_pos ((hostWritable_iff b).mpr hb)]

/-- While idle a write outside the buffer, or to a read-only one, is refused (R27, R34, R67). -/
theorem hostBufWrite_refused {s : State} (hidle : s.active = false) {b : Space} {i : Nat}
    (h : b ≠ .txp ∧ b ≠ .rxh ∨ b.size ≤ i) (v : Byte) : s.hostBufWrite b i v = s := by
  rw [State.hostBufWrite, if_neg (Bool.eq_false_iff.mp hidle)]
  split_ifs with hwritable
  case neg => rfl
  case pos =>
    have hsize : b.size ≤ i := h.resolve_left fun h => ((hostWritable_iff b).mp hwritable).elim h.1 h.2
    rw [State.writeByte, write_out_of_range hsize]

/-- While idle a read of a buffer of the block is the byte, or 0 outside it (R67). -/
theorem hostBufRead_idle {s : State} (hidle : s.active = false) {b : Space} (hb : b ≠ .cmdbuf) (i : Nat) :
    s.hostBufRead b i = s.hostGets (if i < b.size then (s.readByte b i).setWidth 16 else 0#16) := by
  rw [State.hostBufRead, if_neg (Bool.eq_false_iff.mp hidle)]
  by_cases hi : i < b.size
  · rw [if_neg (by simpa [hb] using hi), if_pos hi]
  · rw [if_pos (.inr (Nat.le_of_not_lt hi)), if_neg hi]

/-- Settles O53: a write inside a buffer the host may write is a write of the memory; outside it or to another
buffer it is refused; a read of a buffer of the block is 0 outside it. -/
theorem hostBufferAccess : Obligations.HostBufferAccess := by
  intro s b i v later hidle hdue
  have hidle' : (s.withInbox later).active = false := hidle
  refine ⟨fun hinbox => ⟨fun ⟨hb, hi⟩ => ?made, fun hrefused => ?refused⟩, fun hinbox hb => ?read⟩
  case made =>
    exact ⟨_, (step_bufWrite hdue hinbox).trans (next_congr (hostBufWrite_made hidle' hb i v)), rfl,
      readByte_writeByte_self hi _ v, fun b' j hne => readByte_writeByte_other hne _ v⟩
  case refused => exact (step_bufWrite hdue hinbox).trans (next_congr (hostBufWrite_refused hidle' hrefused v))
  case read => exact (step_bufRead hdue hinbox).trans (next_congr (hostBufRead_idle hidle' hb i))

/-! ### The end of DISPATCH at the sequencer level -/

/-- `P_TERM` in one record: the count, the terminator, `SHORT`, the record of the reply, and the end (R208). -/
theorem terminatePhase_eq (s : State) :
    s.terminatePhase = { s with
      rx := { s.rx with cnt := s.seq.idx }
      ctl := { s.ctl with
        status := endedStatus (if s.seq.idx < s.rx.len then s.ctl.status ||| bitShort else s.ctl.status) }
      seq := { phase := .idle, idx := 0#8, be := .idle }
      mem := s.mem.write .rxp s.seq.idx.toNat 0x00#8
      front := { s.front with rendered := s.front.rendered ++
        [{ type := s.rx.type, cid := s.rx.cid, len := s.rx.len
           text := s.readRange .rxp 0 s.seq.idx.toNat }] } } := by
  rw [State.terminatePhase, reportReply_terminate]
  simp only [State.renderReply, readRange_countStored]
  rfl

/-- Settles O48: `P_TERM` is the block's action with nothing listed; the return of `dispatch` is taken before every
input but the reset. -/
theorem endedDispatchReturnsAndRenders : Obligations.EndedDispatchReturnsAndRenders := by
  refine ⟨fun s hinbox hphase => ?term, fun s hdue hreset => step_returnDue hdue hreset⟩
  case term =>
    have hne : s.seq.phase ≠ .idle := by simp [hphase]
    have hturn : s.blockTurn = .move s.terminatePhase := by simp only [State.blockTurn, hphase]
    rw [step_block hinbox (returnDue_of_phase_ne_idle hne), hturn, Turn.outcome_move, terminatePhase_eq]
    rfl

end Sys2Proof.Machine
end

section
/-! The transceiver operations on the answers fixed ahead (41_transceiver.md R132 to R140): each word runs its body on
the accepted state, the body's loop has an explicit result for each shape of the answers, and `completed` or
`timedOut` ends it. -/

namespace Sys2Proof.Machine

/-! ### A word that runs to its end -/

theorem operate_ended {s : State} (hidle : s.active = false) (hlevel : s.env.level = .operation) {w : Half}
    {p : Phase} {body : State → Option State} {t : State} (hbody : body (s.accept w p) = some t) :
    s.operate w p body = t := by
  rw [operate_operation hidle hlevel, hbody, Option.getD_some]

/-- The end of an operation in one record, its last `STATUS` named. -/
theorem completed_with_status {s : State} {v : Byte} (h : endedStatus s.ctl.status = v) :
    s.completed = { s with
      ctl := { s.ctl with status := v }, seq := { phase := .idle, idx := 0#8, be := .idle } } := by
  subst h
  rfl

theorem timedOut_with_status {s : State} {v : Byte} (h : endedStatus (s.ctl.status ||| bitTimeout) = v) :
    s.timedOut = { s with
      ctl := { s.ctl with status := v }, seq := { phase := .idle, idx := 0#8, be := .idle } } := by
  subst h
  rfl

theorem endedStatus_timeout : endedStatus (acceptedStatus ||| bitTimeout) = 0x22#8 := rfl

theorem endedStatus_endOfData : endedStatus (acceptedStatus ||| bitEod) = 0x06#8 := rfl

/-- A word whose body comes to its end leaves the body's state, completed (R246). -/
theorem operate_of_done {s : State} (hidle : s.active = false) (hlevel : s.env.level = .operation) {w : Half}
    {p : Phase} {body : State → Option State} {run : Run Unit} {u : State} {v : Byte}
    (hbody : body (s.accept w p) = run.outcome) (hrun : run = .done () u) (hstatus : endedStatus u.ctl.status = v) :
    s.operate w p body = { u with
      ctl := { u.ctl with status := v }, seq := { phase := .idle, idx := 0#8, be := .idle } } := by
  rw [operate_ended hidle hlevel (hbody.trans (congrArg Run.outcome hrun)), completed_with_status hstatus]

/-- A word whose body times out leaves the body's state, timed out (R247). -/
theorem operate_of_timeout {s : State} (hidle : s.active = false) (hlevel : s.env.level = .operation) {w : Half}
    {p : Phase} {body : State → Option State} {run : Run Unit} {u : State} {v : Byte}
    (hbody : body (s.accept w p) = run.outcome) (hrun : run = .timeout u)
    (hstatus : endedStatus (u.ctl.status ||| bitTimeout) = v) :
    s.operate w p body = { u with
      ctl := { u.ctl with status := v }, seq := { phase := .idle, idx := 0#8, be := .idle } } := by
  rw [operate_ended hidle hlevel (hbody.trans (congrArg Run.outcome hrun)), timedOut_with_status hstatus]

theorem answered_singleton {limit : Option Nat} {a : Nat × Byte} (h : Answered limit [a]) :
    a.2 ≠ Config.busy ∧ ∀ n, limit = some n → a.1 < n ∨ a.1 = 0 :=
  h.within a (List.mem_singleton_self a)

/-! ### One byte -/

/-- Settles O17: one byte sent from the accepted state. -/
theorem sendByteCompletes : Obligations.SendByteCompletes := by
  intro b k r rest s hidle hlevel hans hpeer
  obtain ⟨hr, hlimit⟩ := answered_singleton hans
  have hsent := byteXfer_done b hr rest (s := s.accept (opWord 1#4 b) .send) hpeer hlimit
  have hrun := congrArg (Run.andThen · fun _ s' => Run.done () s') hsent
  have hended := operate_of_done hidle hlevel (body := sendByteBody b) rfl hrun endedStatus_acceptedStatus
  exact next_congr hended

/-- Settles O18: one byte timed out from the accepted state. -/
theorem sendByteTimesOut : Obligations.SendByteTimesOut := by
  intro b n rest s hidle hlevel hn hlimit hpeer
  have hsent := byteXfer_timeout b hn rest (s := s.accept (opWord 1#4 b) .send) hlimit hpeer
  have hrun := congrArg (Run.andThen · fun _ s' => Run.done () s') hsent
  have hended := operate_of_timeout hidle hlevel (body := sendByteBody b) rfl hrun endedStatus_timeout
  exact next_congr hended

/-- Settles O21: the filler sent as one byte from the accepted state. -/
theorem recvByteCompletes : Obligations.RecvByteCompletes := by
  intro k r rest s hidle hlevel hans hpeer
  obtain ⟨hr, hlimit⟩ := answered_singleton hans
  have hsent := byteXfer_done s.env.params.filler hr rest (s := s.accept (opWord 3#4 0#8) .recv) hpeer hlimit
  have hrun := congrArg (Run.andThen · fun _ s' => Run.done () s') hsent
  have hended := operate_of_done hidle hlevel (body := recvByteBody) rfl hrun endedStatus_acceptedStatus
  exact next_congr hended

/-! ### SEND_BYTES -/

/-- The link after the last of several bytes shows that byte and its answer. -/
theorem linkAfter_zip_getLast {l : Link} {bs : List Byte} {as : List (Nat × Byte)}
    (hlen : bs.length = as.length) {a : Nat × Byte} (ha : as.getLast? = some a) {b : Byte}
    (hb : bs[as.length - 1]? = some b) : linkAfter l (bs.zip as) = { frame := false, txb := b, rxb := a.2 } := by
  refine linkAfter_getLast (p := (b, a)) ?_
  have hzip : (bs.zip as).length = as.length := by simp [hlen]
  rw [List.getLast?_eq_getElem?, hzip, List.getElem?_zip_eq_some]
  exact ⟨hb, by rwa [← List.getLast?_eq_getElem?]⟩

/-- `send_bytes(S, 0, n)` on bytes that are all answered. -/
theorem sendBytes_done (b : Space) {as : List (Nat × Byte)} (rest : List Byte) {s : State}
    (hans : AnsweredWithin s.env.params.retryLimit as) (hp : s.env.peer = allAnswers as ++ rest)
    (hlen : as.length ≤ 255) :
    sendBytes b as.length s = .done ()
      ((s.transferred ((s.readRange b 0 as.length).zip as) rest).setIdx (BitVec.ofNat 8 as.length)) := by
  have hread : (s.setIdx 0#8).readFrom b 0#8 as.length = s.readRange b 0 as.length :=
    (readFrom_eq_readRange _ _ _ _ (by simp; omega)).trans (readRange_congr (by rfl) (by rfl) ..)
  rw [sendBytes, sendLoop_done b rest (s := s.setIdx 0#8) hans hp, setIdx_seq, hread, BitVec.zero_add]
  rfl

/-- Settles O20: the loop's result, with the events of the pairs told as those of the bytes sent. -/
theorem sendBytesCompletes : Obligations.SendBytesCompletes := by
  intro n as rest s hidle hlevel hlen hans hpeer
  have hsent := sendBytes_done .txp rest (s := s.accept (opWord 2#4 n) .send) hans.within hpeer
    (hlen ▸ Nat.le_of_lt_succ n.isLt)
  rw [hlen, readRange_congr (t := s) (by rfl) (by rfl)] at hsent
  have hended := operate_of_done hidle hlevel (body := sendBytesBody n) rfl hsent endedStatus_acceptedStatus
  refine ⟨_, next_congr hended, ?trace, ?unsent, ?sent, rfl⟩
  case trace => exact congrArg _ (pairsTrace_zip _ as)
  case unsent =>
    rintro rfl
    simp [State.transferred, linkAfter]
  case sent =>
    intro a ha
    have hpos : 0 < as.length := List.length_pos_of_ne_nil (by rintro rfl; simp at ha)
    refine linkAfter_zip_getLast (by simp [hlen]) ha ?_
    rw [List.getElem?_eq_getElem (by simp; omega), readRange_getElem, Nat.zero_add, hlen]

/-! ### RECV_BYTES -/

theorem recvTrace_append (f : Byte) (as bs : List (Nat × Byte)) :
    recvTrace f (as ++ bs) = recvTrace f as ++ recvTrace f bs := by
  simp [recvTrace]

theorem recvTrace_singleton (f : Byte) (a : Nat × Byte) : recvTrace f [a] = byteTrace f a.1 a.2 := by
  simp [recvTrace]

/-- What a byte string written leaves depends on the memory alone. -/
theorem writeRange_mem_congr {s t : State} (h : s.mem = t.mem) (b : Space) (a : Nat) (vs : List Byte) :
    (s.writeRange b a vs).mem = (t.writeRange b a vs).mem := by
  induction vs generalizing s t a with
  | nil => exact h
  | cons v vs ih => exact ih (congrArg (Memory.write · b a v) h) (a + 1)

theorem writeRange_env (s : State) (b : Space) (a : Nat) (vs : List Byte) :
    (s.writeRange b a vs).env = s.env := by
  rw [writeRange_frame]

/-- The state after storing the answers `as` from index `base` on; `IDX` is their number. -/
def State.stored (s : State) (b : Space) (base : Nat) (as : List (Nat × Byte)) (rest : List Byte) : State :=
  { s.transferred (fillerPairs s.env.params.filler as) rest with
    mem := (s.writeRange b base (as.map Prod.snd)).mem
    seq := { s.seq with idx := BitVec.ofNat 8 as.length } }

theorem received_eq_stored (b : Space) (base : Nat) {as : List (Nat × Byte)} (rest : List Byte) {s : State}
    (hp : s.env.peer = allAnswers as ++ rest) (hlen : as.length ≤ 255) :
    (s.setIdx 0#8).received b base as rest = s.stored b base as rest := by
  rw [received_eq b base as rest (s.setIdx 0#8) hp (by simp; omega), State.stored,
    writeRange_mem_congr (s := s) (t := s.setIdx 0#8) rfl, setIdx_seq]
  simp only [BitVec.zero_add]
  rfl

/-- The bytes stored read in order. -/
theorem readByte_stored_self {b : Space} {base : Nat} {as : List (Nat × Byte)} (hsize : base + as.length ≤ b.size)
    (rest : List Byte) (s : State) {i : Nat} (hi : i < as.length) :
    (s.stored b base as rest).readByte b (base + i) = as[i].2 := by
  have hread : (s.stored b base as rest).readByte b (base + i) =
      (s.writeRange b base (as.map Prod.snd)).readByte b (base + i) :=
    readByte_congr (by rfl) (by rw [writeRange_env]; rfl) ..
  rw [hread, readByte_writeRange_self (by simpa using hi) (by simpa using hsize), List.getElem_map]

/-- No other byte changes. -/
theorem readByte_stored_other {b b' : Space} {base j : Nat} {as : List (Nat × Byte)}
    (h : b' ≠ b ∨ j < base ∨ base + as.length ≤ j) (rest : List Byte) (s : State) :
    (s.stored b base as rest).readByte b' j = s.readByte b' j := by
  have hread : (s.stored b base as rest).readByte b' j =
      (s.writeRange b base (as.map Prod.snd)).readByte b' j :=
    readByte_congr (by rfl) (by rw [writeRange_env]; rfl) ..
  rw [hread, readByte_writeRange_other (by simpa using h)]

/-- `recv_bytes(S, base, max)` that finds `max` bytes (R139). -/
theorem recvBytes_all (b : Space) (base : Nat) {as : List (Nat × Byte)} (rest : List Byte) {s : State}
    (hans : AnsweredWithin s.env.params.retryLimit as) (heod : ∀ a ∈ as, a.2 ≠ Config.endOfData)
    (hp : s.env.peer = allAnswers as ++ rest) (hlen : as.length ≤ 255) :
    recvBytes b base as.length s = .done () (s.stored b base as rest) := by
  rw [recvBytes, recvLoop_all b base rest (s := s.setIdx 0#8) hans heod hp, received_eq_stored b base rest hp hlen]

/-- `recv_bytes(S, base, max)` that `END_OF_DATA` ends (R139). -/
theorem recvBytes_sentinel (b : Space) (base : Nat) {max : Nat} {as : List (Nat × Byte)} {j : Nat}
    (rest : List Byte) {s : State}
    (hans : AnsweredWithin s.env.params.retryLimit (as ++ [(j, Config.endOfData)]))
    (heod : ∀ a ∈ as, a.2 ≠ Config.endOfData)
    (hp : s.env.peer = allAnswers (as ++ [(j, Config.endOfData)]) ++ rest) (hlen : as.length < max)
    (hmax : max ≤ 255) :
    recvBytes b base max s = .done ()
      (((s.stored b base as (byteAnswers (j, Config.endOfData) ++ rest)).byteDone s.env.params.filler
        (j, Config.endOfData) rest).raiseFlag bitEod) := by
  obtain ⟨k, rfl⟩ := Nat.exists_eq_add_of_lt hlen
  have hp' : s.env.peer = allAnswers as ++ (byteAnswers (j, Config.endOfData) ++ rest) := by simpa using hp
  rw [recvBytes, Nat.add_assoc, recvLoop_sentinel b base k j rest (s := s.setIdx 0#8)
    (fun a ha => hans a (List.mem_append_left _ ha)) heod
    (hans _ (List.mem_append_right _ (List.mem_singleton_self _))).2 hp',
    received_eq_stored b base _ hp' (by omega)]
  rfl

/-- `recv_bytes(S, base, max)` that times out (R138, R139). -/
theorem recvBytes_timeout (b : Space) (base : Nat) {max : Nat} {as : List (Nat × Byte)} {n : Nat} (hn : 1 ≤ n)
    (rest : List Byte) {s : State} (hans : AnsweredWithin s.env.params.retryLimit as)
    (heod : ∀ a ∈ as, a.2 ≠ Config.endOfData) (hlim : s.env.params.retryLimit = some n)
    (hp : s.env.peer = allAnswers as ++ (List.replicate n Config.busy ++ rest)) (hlen : as.length < max)
    (hmax : max ≤ 255) :
    recvBytes b base max s = .timeout
      ((s.stored b base as (List.replicate n Config.busy ++ rest)).byteTimedOut s.env.params.filler n rest) := by
  obtain ⟨k, rfl⟩ := Nat.exists_eq_add_of_lt hlen
  rw [recvBytes, Nat.add_assoc, recvLoop_timeout b base k hn rest (s := s.setIdx 0#8) hans heod hlim hp,
    received_eq_stored b base _ hp (by omega)]
  rfl

theorem recvPayload_of_done {max : Nat} {s u : State} (h : recvBytes .rxp 0 max s = .done () u) :
    recvPayload max s = .done () u.countStored := by
  rw [recvPayload_eq, h]

theorem recvPayload_of_timeout {max : Nat} {s u : State} (h : recvBytes .rxp 0 max s = .timeout u) :
    recvPayload max s = .timeout u.countStored := by
  rw [recvPayload_eq, h]

theorem toNat_le_255 (m : Byte) : m.toNat ≤ 255 := Nat.le_of_lt_succ m.isLt

theorem linkAfter_fillerPairs_getLast {l : Link} {f : Byte} {as : List (Nat × Byte)} {a : Nat × Byte}
    (h : as.getLast? = some a) : linkAfter l (fillerPairs f as) = { frame := false, txb := f, rxb := a.2 } :=
  linkAfter_getLast (p := (f, a)) (by simp [fillerPairs, h])

/-- Settles O22: the receive of exactly `m` answers, its bytes read back and its events told as a receive's. -/
theorem recvBytesStoresAll : Obligations.RecvBytesStoresAll := by
  intro m as rest s hidle hlevel hlen hans heod hpeer
  have hrxp : 0 + as.length ≤ Space.rxp.size := by have := toNat_le_255 m; simp [Space.size]; omega
  have hrun := recvPayload_of_done (recvBytes_all .rxp 0 rest (s := s.accept (opWord 4#4 m) .recv) hans.within
    heod hpeer (hlen ▸ toNat_le_255 m))
  rw [hlen] at hrun
  have hended := operate_of_done hidle hlevel (body := recvBytesBody m) rfl hrun endedStatus_acceptedStatus
  refine ⟨_, next_congr hended, ?trace, ?stored, ?others, ?unreceived, ?received, ?frame⟩
  case trace => exact congrArg _ (pairsTrace_fillerPairs _ as)
  case stored =>
    intro i hi
    have h := readByte_stored_self hrxp rest (s.accept (opWord 4#4 m) .recv) hi
    rw [Nat.zero_add] at h
    exact h
  case others =>
    intro b i h
    exact readByte_stored_other (h.imp_right fun h => .inr (by omega)) rest (s.accept (opWord 4#4 m) .recv)
  case unreceived =>
    rintro rfl
    rfl
  case received => exact fun a ha => linkAfter_fillerPairs_getLast ha
  case frame =>
    have hcount : BitVec.ofNat 8 as.length = m := by rw [hlen, BitVec.ofNat_toNat, BitVec.setWidth_eq]
    rw [← hcount]
    rfl

/-- Settles O23: the receive that `END_OF_DATA` ends, with the sentinel's exchange last in the trace. -/
theorem recvBytesEndsOnSentinel : Obligations.RecvBytesEndsOnSentinel := by
  intro m as k rest s hidle hlevel hlen hans heod hpeer
  have hrxp : 0 + as.length ≤ Space.rxp.size := by have := toNat_le_255 m; simp [Space.size]; omega
  have hrun := recvPayload_of_done (recvBytes_sentinel .rxp 0 rest (s := s.accept (opWord 4#4 m) .recv) hans.within
    heod hpeer hlen (toNat_le_255 m))
  have hended := operate_of_done hidle hlevel (body := recvBytesBody m) rfl hrun endedStatus_endOfData
  refine ⟨_, next_congr hended, ?stored, ?others, ?frame⟩
  case stored =>
    intro i hi
    have h := readByte_stored_self hrxp (byteAnswers (k, Config.endOfData) ++ rest)
      (s.accept (opWord 4#4 m) .recv) hi
    rw [Nat.zero_add] at h
    exact h
  case others =>
    intro b i h
    exact readByte_stored_other (h.imp_right fun h => .inr (by omega)) (byteAnswers (k, Config.endOfData) ++ rest)
      (s.accept (opWord 4#4 m) .recv)
  case frame =>
    rw [recvTrace_append, recvTrace_singleton, ← pairsTrace_fillerPairs _ as, ← List.append_assoc]
    rfl

/-- Settles O24: the receive that times out, the attempts of the last byte after the events of those stored. -/
theorem recvBytesTimeoutKeepsStored : Obligations.RecvBytesTimeoutKeepsStored := by
  intro m as n rest s hidle hlevel hlen hn hlimit hans heod hpeer
  have hrxp : 0 + as.length ≤ Space.rxp.size := by have := toNat_le_255 m; simp [Space.size]; omega
  have hrun := recvPayload_of_timeout (recvBytes_timeout .rxp 0 hn rest (s := s.accept (opWord 4#4 m) .recv)
    (hlimit ▸ hans.within) heod hlimit (hpeer.trans (List.append_assoc ..)) hlen (toNat_le_255 m))
  have hended := operate_of_timeout hidle hlevel (body := recvBytesBody m) rfl hrun endedStatus_timeout
  refine ⟨_, next_congr hended, ?stored, ?others, ?frame⟩
  case stored =>
    intro i hi
    have h := readByte_stored_self hrxp (List.replicate n Config.busy ++ rest) (s.accept (opWord 4#4 m) .recv) hi
    rw [Nat.zero_add] at h
    exact h
  case others =>
    intro b i h
    exact readByte_stored_other (h.imp_right fun h => .inr (by omega)) (List.replicate n Config.busy ++ rest)
      (s.accept (opWord 4#4 m) .recv)
  case frame =>
    rw [← pairsTrace_fillerPairs _ as]
    rfl

end Sys2Proof.Machine
end

section
/-! What holds where a piece of pseudocode comes to its end or times out, said of a run as a whole: one rule for each
loop and each way of composing, so that a later proof names an assertion and shows that one byte keeps it
(41_transceiver.md R131, R133, R139; 44_orchestrator.md R204). -/

namespace Sys2Proof.Machine

/-- `done` holds where the run comes to its end, `late` where it times out; a run that waits for an answer promises
nothing. -/
def Run.Ends {α : Type} (done : α → State → Prop) (late : State → Prop) : Run α → Prop
  | .done a s => done a s
  | .timeout s => late s
  | .waiting => True

/-! ### Composition -/

section
variable {α β : Type} {Q Q' : α → State → Prop} {L L' : State → Prop} {r : Run α}

theorem Run.Ends.mono (h : r.Ends Q L) (hdone : ∀ a s, Q a s → Q' a s) (hlate : ∀ s, L s → L' s) :
    r.Ends Q' L' := by
  cases r with
  | done a s => exact hdone a s h
  | timeout s => exact hlate s h
  | waiting => trivial

theorem Run.Ends.and (h : r.Ends Q L) (h' : r.Ends Q' L') :
    r.Ends (fun a s => Q a s ∧ Q' a s) (fun s => L s ∧ L' s) := by
  cases r with
  | done a s => exact ⟨h, h'⟩
  | timeout s => exact ⟨h, h'⟩
  | waiting => trivial

theorem Run.Ends.andThen {R : β → State → Prop} {f : α → State → Run β} (h : r.Ends Q L)
    (hf : ∀ a s, Q a s → (f a s).Ends R L) : (r.andThen f).Ends R L := by
  cases r with
  | done a s => exact hf a s h
  | timeout s => exact h
  | waiting => trivial

theorem Run.Ends.of_done (h : r.Ends Q L) {a : α} {s : State} (hr : r = .done a s) : Q a s := by
  subst hr
  exact h

theorem Run.Ends.of_timeout (h : r.Ends Q L) {s : State} (hr : r = .timeout s) : L s := by
  subst hr
  exact h

end

theorem Run.Ends.outcome {r : Run Unit} {P : State → Prop}
    (h : r.Ends (fun _ s => P s.completed) (fun s => P s.timedOut)) {t : State} (ht : r.outcome = some t) :
    P t := by
  obtain ⟨s, hr, rfl⟩ | ⟨s, hr, rfl⟩ := outcome_eq_some ht
  · exact h.of_done hr
  · exact h.of_timeout hr

/-! ### One byte -/

/-- The rule of `byte_xfer`'s loop: `P` at the head of the loop, `Q` after an answer that is not `BUSY`, `L` after the
`BUSY` at the retry limit. -/
theorem xferLoop_ends {P L : State → Prop} {Q : Byte → State → Prop} {b : Byte}
    (hdone : ∀ u r rest, P u → u.env.peer = r :: rest → r ≠ Config.busy → Q r (u.attempt b r rest))
    (hlate : ∀ u rest, P u → u.env.peer = Config.busy :: rest →
      limitReached (u.attempt b Config.busy rest).att u.env.params.retryLimit = true →
      L (u.attempt b Config.busy rest))
    (hretry : ∀ u rest, P u → u.env.peer = Config.busy :: rest →
      limitReached (u.attempt b Config.busy rest).att u.env.params.retryLimit = false →
      P (u.attempt b Config.busy rest).delayPace)
    (as : List Byte) (s : State) (hp : s.env.peer = as) (hs : P s) : (xferLoop b as s).Ends Q L := by
  induction as generalizing s with
  | nil => trivial
  | cons r rest ih =>
    rw [xferLoop]
    split_ifs with hr hlimit
    · exact hdone s r rest hs hp hr
    · obtain rfl : r = Config.busy := not_not.mp hr
      exact hlate s rest hs hp hlimit
    · obtain rfl : r = Config.busy := not_not.mp hr
      exact ih _ rfl (hretry s rest hs hp (Bool.eq_false_iff.mpr hlimit))

/-- What an attempt, a pacing delay and the start of a byte keep. -/
structure KeptByByte (P : State → Prop) : Prop where
  attempt : ∀ (u : State) (b r : Byte) (rest : List Byte), P u → u.env.peer = r :: rest → P (u.attempt b r rest)
  delayPace : ∀ u : State, P u → P u.delayPace
  setAtt : ∀ (u : State) (n : Nat), P u → P (u.setAtt n)

theorem KeptByByte.byteXfer {P : State → Prop} (h : KeptByByte P) {s : State} (hs : P s) (b : Byte) :
    (byteXfer b s).Ends (fun _ => P) P :=
  xferLoop_ends (fun u r rest hu hp _ => h.attempt u b r rest hu hp) (fun u rest hu hp _ => h.attempt u b _ rest hu hp)
    (fun u rest hu hp _ => h.delayPace _ (h.attempt u b _ rest hu hp)) _ _ rfl (h.setAtt s 0 hs)

/-- A byte does not touch the latched word. -/
theorem byteXfer_cmd (b : Byte) (s : State) :
    (byteXfer b s).Ends (fun _ u => u.ctl.cmd = s.ctl.cmd) fun u => u.ctl.cmd = s.ctl.cmd :=
  KeptByByte.byteXfer (P := fun u => u.ctl.cmd = s.ctl.cmd) ⟨fun _ _ _ _ h _ => h, fun _ h => h, fun _ _ h => h⟩ rfl b

/-! ### Several bytes -/

/-- The rule of `send_bytes`: `P k` holds with `k` bytes to go. -/
theorem sendLoop_ends {b : Space} {P : Nat → State → Prop} {L : State → Prop}
    (hbyte : ∀ k u, P (k + 1) u →
      (byteXfer (u.readByte b u.seq.idx.toNat) u).Ends (fun _ u' => P k u'.stepIdx) L)
    (k : Nat) (s : State) (hs : P k s) : (sendLoop b k s).Ends (fun _ => P 0) L := by
  induction k generalizing s with
  | zero => exact hs
  | succ k ih => exact (hbyte k s hs).andThen fun _ u hu => ih u.stepIdx hu

/-- The rule of `recv_bytes`: `P k` holds with `k` bytes to go, `Q` at the end. -/
theorem recvLoop_ends {b : Space} {base : Nat} {P : Nat → State → Prop} {Q L : State → Prop}
    (hbyte : ∀ k u, P (k + 1) u → (receiveByte u).Ends
      (fun r u' => (r = Config.endOfData → Q (u'.raiseFlag bitEod)) ∧
        (r ≠ Config.endOfData → P k (u'.writeByte b (base + u'.seq.idx.toNat) r).stepIdx)) L)
    (hend : ∀ u, P 0 u → Q u) (k : Nat) (s : State) (hs : P k s) :
    (recvLoop b base k s).Ends (fun _ => Q) L := by
  induction k generalizing s with
  | zero => exact hend s hs
  | succ k ih =>
    refine (hbyte k s hs).andThen fun r u hu => ?_
    split_ifs with hr
    · exact hu.1 hr
    · exact ih _ (hu.2 hr)

/-- The rule of `RXCNT <- recv_bytes(RXP, 0, max)`: the count is written however it ends (R207, R247). -/
theorem recvPayload_ends {max : Nat} {s : State} {Q L : State → Prop}
    (h : (recvBytes .rxp 0 max s).Ends (fun _ u => Q u.countStored) (fun u => L u.countStored)) :
    (recvPayload max s).Ends (fun _ => Q) L := by
  rw [recvPayload_eq]
  cases hr : recvBytes .rxp 0 max s with
  | done _ u => exact h.of_done hr
  | timeout u => exact h.of_timeout hr
  | waiting => trivial

/-- The rule of the sync poll: `P` at the head of the loop, `Q` after the sync byte, `L` after a `Timeout`. -/
theorem pollLoop_ends {P Q L : State → Prop}
    (hbyte : ∀ u, P u → (receiveByte u.delayPoll).Ends
      (fun r u' => (r = Config.tagResponse → Q (u'.setPolls (u'.polls + 1))) ∧
        (r ≠ Config.tagResponse → limitReached (u'.polls + 1) u'.env.params.syncLimit = true →
          L (u'.setPolls (u'.polls + 1))) ∧
        (r ≠ Config.tagResponse → limitReached (u'.polls + 1) u'.env.params.syncLimit = false →
          P (u'.setPolls (u'.polls + 1)))) L)
    (fuel : Nat) (s : State) (hs : P s) : (pollLoop fuel s).Ends (fun _ => Q) L := by
  induction fuel generalizing s with
  | zero => trivial
  | succ fuel ih =>
    refine (hbyte s hs).andThen fun r u ⟨hsync, hlate, hagain⟩ => ?_
    simp only
    split_ifs with hr hlimit
    · exact hsync hr
    · exact hlate hr hlimit
    · exact ih _ (hagain hr (Bool.eq_false_iff.mpr hlimit))

theorem syncPoll_ends {s : State} {Q L : State → Prop}
    (h : (pollLoop s.env.peer.length (s.setPolls 0)).Ends (fun _ u => Q (u.writeByte .rxh 0 Config.tagResponse)) L) :
    (syncPoll s).Ends (fun _ => Q) L :=
  h.andThen fun _ _ hu => hu

end Sys2Proof.Machine
end

section
/-! What an operation leaves unchanged, however far it gets (41_transceiver.md R132 to R135): a relation between the
accepted state and the states of its run that every elementary action keeps. -/

namespace Sys2Proof.Machine

/-- `u` is a state of the run of an operation that started in `s`: what no action of an operation changes, and what it
changes in one direction alone. -/
structure State.Underway (s u : State) : Prop where
  cmd : u.ctl.cmd = s.ctl.cmd
  request : u.ctl.sysrstReq = s.ctl.sysrstReq
  front : u.front = s.front
  txp : u.mem.txp = s.mem.txp
  cmdbuf : u.mem.cmdbuf = s.mem.cmdbuf
  env : u.env = { s.env with peer := u.env.peer }
  peer : u.env.peer <:+ s.env.peer
  trace : s.trace <+: u.trace
  memory : s.mem.wf = true → u.mem.wf = true
  frame : s.link.frame = false → u.link.frame = false
  reserved : s.ctl.status &&& 0x80#8 = 0#8 → u.ctl.status &&& 0x80#8 = 0#8

theorem or_and_eq_zero {a b m : Byte} (ha : a &&& m = 0#8) (hb : b &&& m = 0#8) : (a ||| b) &&& m = 0#8 := by
  refine BitVec.eq_of_getLsbD_eq fun i _ => ?_
  have hai : (a.getLsbD i && m.getLsbD i) = false := by simpa using congrArg (BitVec.getLsbD · i) ha
  have hbi : (b.getLsbD i && m.getLsbD i) = false := by simpa using congrArg (BitVec.getLsbD · i) hb
  simp [Bool.and_or_distrib_right, hai, hbi]

namespace State.Underway

variable {s u v : State}

theorem refl (s : State) : s.Underway s :=
  ⟨rfl, rfl, rfl, rfl, rfl, rfl, List.suffix_rfl, List.prefix_rfl, id, id, id⟩

theorem trans (h : s.Underway u) (h' : u.Underway v) : s.Underway v where
  cmd := h'.cmd.trans h.cmd
  request := h'.request.trans h.request
  front := h'.front.trans h.front
  txp := h'.txp.trans h.txp
  cmdbuf := h'.cmdbuf.trans h.cmdbuf
  env := by rw [h'.env, h.env]
  peer := h'.peer.trans h.peer
  trace := h.trace.trans h'.trace
  memory := fun hs => h'.memory (h.memory hs)
  frame := fun hs => h'.frame (h.frame hs)
  reserved := fun hs => h'.reserved (h.reserved hs)

theorem epoch (h : s.Underway u) : u.env.epoch = s.env.epoch := by rw [h.env]

theorem params (h : s.Underway u) : u.env.params = s.env.params := by rw [h.env]

/-! Actions on the link -/

theorem attempt (h : s.Underway u) {b r : Byte} {rest : List Byte} (hp : u.env.peer = r :: rest) :
    s.Underway (u.attempt b r rest) := by
  rw [attempt_eq]
  refine ⟨h.cmd, h.request, h.front, h.txp, h.cmdbuf, ?env, ?peer, ?trace, h.memory, fun _ => rfl, h.reserved⟩
  case env => rw [h.env]
  case peer => exact (hp ▸ List.suffix_cons r rest : rest <:+ u.env.peer).trans h.peer
  case trace => exact h.trace.trans (List.prefix_append ..)

theorem emit (h : s.Underway u) (e : LinkEvent) : s.Underway (u.emit e) :=
  ⟨h.cmd, h.request, h.front, h.txp, h.cmdbuf, h.env, h.peer, h.trace.trans (List.prefix_append ..), h.memory,
    h.frame, h.reserved⟩

/-! Actions on counters and registers -/

theorem setAtt (h : s.Underway u) (n : Nat) : s.Underway (u.setAtt n) := { h with }

theorem setPolls (h : s.Underway u) (n : Nat) : s.Underway (u.setPolls n) := { h with }

theorem setIdx (h : s.Underway u) (i : Byte) : s.Underway (u.setIdx i) := { h with }

theorem stepIdx (h : s.Underway u) : s.Underway u.stepIdx := { h with }

theorem countStored (h : s.Underway u) : s.Underway u.countStored := { h with }

theorem putReceived (h : s.Underway u) (x : Header) : s.Underway (u.putReceived x) := { h with }

/-- Bit 7 of `STATUS` is no flag (R37). -/
theorem raiseFlag (h : s.Underway u) {f : Byte} (hf : f &&& 0x80#8 = 0#8) : s.Underway (u.raiseFlag f) :=
  { h with reserved := fun hs => or_and_eq_zero (h.reserved hs) hf }

/-! Actions on the memory: an operation writes the two header buffers and `RXP` (R28). -/

theorem writeByte (h : s.Underway u) {b : Space} (htxp : b ≠ .txp) (hcmdbuf : b ≠ .cmdbuf) (i : Nat) (v : Byte) :
    s.Underway (u.writeByte b i v) :=
  { h with
    txp := (cells_write_other (b' := .txp) htxp.symm u.mem i v).trans h.txp
    cmdbuf := (cells_write_other (b' := .cmdbuf) hcmdbuf.symm u.mem i v).trans h.cmdbuf
    memory := fun hs => Memory.wf_write (h.memory hs) b i v }

end State.Underway

/-- One byte keeps the relation. -/
theorem keptByByte_underway (s : State) : KeptByByte s.Underway where
  attempt _ _ _ _ h hp := h.attempt hp
  delayPace _ h := h.emit _
  setAtt _ n h := h.setAtt n

/-! ### The frames of the transceiver operations -/

/-- What writing an operation word can leave: the state refused, the state accepted, or the end of a body. -/
theorem operate_keeps {P : State → Prop} {s : State} {w : Half} {p : Phase} {body : State → Option State}
    (hrefused : P s) (haccepted : P (s.accept w p)) (hended : ∀ t, body (s.accept w p) = some t → P t) :
    P (s.operate w p body) := by
  obtain ⟨-, h⟩ | ⟨-, h, -⟩ | ⟨-, -, t, ht, h⟩ := operate_cases s w p body
  · rwa [h]
  · rwa [h]
  · rw [h]
    exact hended t ht

/-- What SEND_BYTE, SEND_BYTES and RECV_BYTE keep besides (R132 to R134). -/
structure State.SameData (s u : State) : Prop where
  underway : s.Underway u
  tx : u.tx = s.tx
  rx : u.rx = s.rx
  mem : u.mem = s.mem
  polls : u.polls = s.polls

theorem State.SameData.refl (s : State) : s.SameData s := ⟨.refl s, rfl, rfl, rfl, rfl⟩

theorem keptByByte_sameData (s : State) : KeptByByte s.SameData where
  attempt u b r rest h hp := by
    have hunderway := h.underway.attempt (b := b) hp
    rw [attempt_eq] at hunderway ⊢
    exact { h with underway := hunderway }
  delayPace _ h := { h with underway := h.underway.emit _ }
  setAtt _ n h := { h with underway := h.underway.setAtt n }

/-- Sending bytes of a buffer keeps the data too. -/
theorem sendBytes_sameData (b : Space) (n : Nat) (s : State) :
    (sendBytes b n s).Ends (fun _ => s.SameData) s.SameData := by
  refine sendLoop_ends (P := fun _ => s.SameData) (fun k u hu => ?byte) n _ { State.SameData.refl s with
    underway := (State.Underway.refl s).setIdx 0#8 }
  case byte =>
    exact ((keptByByte_sameData s).byteXfer hu _).mono
      (fun _ u h => { h with underway := h.underway.stepIdx }) fun _ h => h

/-- What these three operations leave unchanged of the state they start in. -/
def State.SendKept (s t : State) : Prop :=
  t.tx = s.tx ∧ t.rx = s.rx ∧ t.mem = s.mem ∧ t.polls = s.polls ∧ t.front = s.front ∧
  t.ctl.sysrstReq = s.ctl.sysrstReq ∧ t.env = { s.env with peer := t.env.peer } ∧
  t.env.peer <:+ s.env.peer ∧ s.trace <+: t.trace

theorem operate_sendKept (s : State) (w : Half) (p : Phase) {run : State → Run Unit}
    (hrun : ∀ u, (run u).Ends (fun _ => u.SameData) u.SameData) :
    s.SendKept (s.operate w p fun u => (run u).outcome) := by
  have hsame : ∀ u, (s.accept w p).SameData u → s.SendKept u := fun u h =>
    ⟨h.tx, h.rx, h.mem, h.polls, h.underway.front, h.underway.request, h.underway.env, h.underway.peer,
      h.underway.trace⟩
  exact operate_keeps ⟨rfl, rfl, rfl, rfl, rfl, rfl, rfl, List.suffix_rfl, List.prefix_rfl⟩
    (hsame _ (.refl _)) fun t ht => ((hrun _).mono (fun _ => hsame) hsame).outcome ht

/-- Settles O27: none of the three bodies leaves the relation `SameData` with the accepted state, and acceptance and
the two ends write the control registers and the sequencer alone. -/
theorem sendAndReceiveByteFrame : Obligations.SendAndReceiveByteFrame := by
  intro i s t a hi hexec
  have hone : ∀ (b : State → Byte) (u : State), ((byteXfer (b u) u).andThen fun _ s' => Run.done () s').Ends
      (fun _ => u.SameData) u.SameData := fun b u =>
    ((keptByByte_sameData u).byteXfer (.refl u) (b u)).andThen fun _ _ h => h
  obtain rfl | rfl | rfl := hi <;> obtain rfl := Host.Outcome.next.inj hexec
  · exact operate_sendKept s _ .send (hone fun _ => a)
  · exact operate_sendKept s _ .send (sendBytes_sameData .txp a.toNat)
  · exact operate_sendKept s _ .recv (hone fun u => u.env.params.filler)

/-- A multi-byte receive into `RXP`, `k` bytes short of `max`: the bytes from index `IDX` on are as before. -/
structure State.Receiving (s : State) (max k : Nat) (u : State) : Prop where
  underway : s.Underway u
  tx : u.tx = s.tx
  rx : u.rx = s.rx
  polls : u.polls = s.polls
  bytes : ∀ b i, b ≠ .rxp ∨ u.seq.idx.toNat ≤ i → u.readByte b i = s.readByte b i
  index : u.seq.idx.toNat + k = max

theorem keptByByte_receiving (s : State) (max k : Nat) : KeptByByte (s.Receiving max k) where
  attempt u b r rest h hp := by
    have hunderway := h.underway.attempt (b := b) hp
    have hread : ∀ b' i, (u.attempt b r rest).readByte b' i = u.readByte b' i :=
      fun b' i => readByte_congr (by rw [attempt_eq]) (by rw [attempt_eq]) b' i
    have hbytes := h.bytes
    simp only [← hread] at hbytes
    rw [attempt_eq] at hunderway hbytes ⊢
    exact { h with underway := hunderway, bytes := hbytes }
  delayPace _ h := { h with underway := h.underway.emit _ }
  setAtt _ n h := { h with underway := h.underway.setAtt n }

/-- A byte stored and counted. -/
theorem State.Receiving.store {s u : State} {max k : Nat} (h : s.Receiving max (k + 1) u) (hmax : max ≤ 255)
    (v : Byte) : s.Receiving max k (u.writeByte .rxp u.seq.idx.toNat v).stepIdx := by
  have hidx : (u.seq.idx + 1#8).toNat = u.seq.idx.toNat + 1 := by
    have := h.index
    rw [BitVec.toNat_add_of_lt (by simp; omega)]
    rfl
  refine ⟨(h.underway.writeByte (by decide) (by decide) _ v).stepIdx, h.tx, h.rx, h.polls, fun b i hbi => ?bytes,
    ?index⟩
  case bytes =>
    have hne : b ≠ .rxp ∨ u.seq.idx.toNat + 1 ≤ i := hbi.imp_right fun hi => by simpa [hidx] using hi
    have hread : (u.writeByte .rxp u.seq.idx.toNat v).stepIdx.readByte b i =
        (u.writeByte .rxp u.seq.idx.toNat v).readByte b i := rfl
    rw [hread, readByte_writeByte_other (hne.imp_right fun hi => by omega)]
    exact h.bytes b i (hne.imp_right fun hi => by omega)
  case index =>
    have := h.index
    simp only [stepIdx_seq, writeByte_seq, hidx]
    omega

/-- What `RXCNT <- recv_bytes(RXP, 0, max)` leaves, however it ends. -/
structure State.PayloadReceived (s : State) (max : Nat) (u : State) : Prop where
  underway : s.Underway u
  tx : u.tx = s.tx
  rx : u.rx = { s.rx with cnt := u.rx.cnt }
  polls : u.polls = s.polls
  bytes : ∀ b i, b ≠ .rxp ∨ u.rx.cnt.toNat ≤ i → u.readByte b i = s.readByte b i
  count : u.rx.cnt.toNat ≤ max

theorem State.Receiving.countStored {s u : State} {max k : Nat} (h : s.Receiving max k u) :
    s.PayloadReceived max u.countStored :=
  ⟨h.underway.countStored, h.tx, by rw [countStored_rx, h.rx], h.polls, h.bytes,
    Nat.le.intro h.index⟩

theorem recvPayload_received {max : Nat} (hmax : max ≤ 255) (s : State) :
    (recvPayload max s).Ends (fun _ => s.PayloadReceived max) (s.PayloadReceived max) := by
  have hstart : s.Receiving max max (s.setIdx 0#8) :=
    ⟨(State.Underway.refl s).setIdx _, rfl, rfl, rfl, fun _ _ _ => rfl, Nat.zero_add _⟩
  refine recvPayload_ends (recvLoop_ends (P := s.Receiving max) (fun k u hu => ?byte)
    (fun u hu => hu.countStored) max _ hstart)
  case byte =>
    refine ((keptByByte_receiving s max (k + 1)).byteXfer hu _).mono (fun r u h => ⟨fun _ => ?eod, fun _ => ?store⟩)
      fun u h => h.countStored
    case eod => exact { h.countStored with underway := (h.underway.raiseFlag (by decide)).countStored }
    case store =>
      rw [Nat.zero_add]
      exact h.store hmax r

/-- What RECV_BYTES leaves unchanged of the state it starts in. -/
def State.ReceiveKept (s : State) (max : Nat) (t : State) : Prop :=
  t.tx = s.tx ∧ t.rx = { s.rx with cnt := t.rx.cnt } ∧
  (∀ b i, b ≠ .rxp ∨ max ≤ i → t.readByte b i = s.readByte b i) ∧
  t.polls = s.polls ∧ t.front = s.front ∧ t.ctl.sysrstReq = s.ctl.sysrstReq ∧
  t.env = { s.env with peer := t.env.peer } ∧ t.env.peer <:+ s.env.peer ∧ s.trace <+: t.trace

theorem State.ReceiveKept.refl (s : State) (max : Nat) : s.ReceiveKept max s :=
  ⟨rfl, rfl, fun _ _ _ => rfl, rfl, rfl, rfl, rfl, List.suffix_rfl, List.prefix_rfl⟩

/-- Settles O28: the receive's own frame, between acceptance and the two ends. -/
theorem receiveBytesFrame : Obligations.ReceiveBytesFrame := by
  intro m s t hexec
  obtain rfl := Host.Outcome.next.inj hexec
  have hkept : ∀ u, (s.accept (opWord 4#4 m) .recv).PayloadReceived m.toNat u → s.ReceiveKept m.toNat u :=
    fun u h => ⟨h.tx, h.rx, fun b i hbi => h.bytes b i (hbi.imp_right h.count.trans), h.polls, h.underway.front,
      h.underway.request, h.underway.env, h.underway.peer, h.underway.trace⟩
  exact operate_keeps (P := s.ReceiveKept m.toNat) (.refl s _) (.refl s _) fun t ht =>
    ((recvPayload_received (toNat_le_255 m) _).mono (fun _ => hkept) hkept).outcome ht

end Sys2Proof.Machine
end

section
/-! When a transceiver operation ends on the answers given (70_reset_and_hazards.md R290): with no retry limit its run
waits exactly when the answers other than `BUSY` are too few. -/

namespace Sys2Proof.Machine

/-- At the operation level the block is idle again exactly when the body does not wait for an answer. -/
theorem operate_idle_iff {s : State} (hidle : s.active = false) (hlevel : s.env.level = .operation) (w : Half)
    (p : Phase) {body : State → Option State} {run : Run Unit} (hbody : body (s.accept w p) = run.outcome) :
    (s.operate w p body).active = false ↔ run ≠ .waiting := by
  rw [operate_operation hidle hlevel, hbody]
  cases run with
  | done _ u => simp [Run.outcome, completed_active]
  | timeout u => simp [Run.outcome, timedOut_active]
  | waiting => simp [Run.outcome, accept_active]

theorem length_heard_allAnswers_append {limit : Option Nat} {as : List (Nat × Byte)} (h : AnsweredWithin limit as)
    (rest : List Byte) : (heard (allAnswers as ++ rest)).length = as.length + (heard rest).length := by
  rw [heard_append, heard_allAnswers h, List.length_append, List.length_map]

/-- Sending `k` bytes waits exactly when fewer than `k` answers are heard. -/
theorem sendLoop_waiting_iff {s : State} (hlimit : s.env.params.retryLimit = none) (b : Space) (k : Nat) :
    sendLoop b k s = .waiting ↔ (heard s.env.peer).length < k := by
  obtain ⟨as, rest, hlen, hans, hp, h⟩ | ⟨_, _, _, _, _, _, _, _, ⟨m, hm, _⟩, _⟩ | ⟨hlt, h⟩ := sendLoop_cases b k s
  · rw [h, hp, length_heard_allAnswers_append hans]
    simp [hlen]
  · simp [hlimit] at hm
  · simp [h, hlt]

/-- One byte waits exactly when no answer is heard. -/
theorem byteXfer_waiting_iff {s : State} (hlimit : s.env.params.retryLimit = none) (b : Byte) :
    byteXfer b s = .waiting ↔ (heard s.env.peer).length < 1 := by
  obtain ⟨a, rest, hbusy, hp, _, h⟩ | ⟨_, _, _, _, ⟨m, hm, _⟩, _⟩ | ⟨hall, h⟩ := byteXfer_cases b s
  · rw [h, hp, heard_append, heard_byteAnswers hbusy]
    simp
  · simp [hlimit] at hm
  · simp [h, heard_busy hall]

/-- Receiving `k` bytes waits exactly when fewer are heard and no `END_OF_DATA` is among them. -/
theorem recvLoop_waiting_iff {s : State} (hlimit : s.env.params.retryLimit = none) (b : Space) (base k : Nat) :
    recvLoop b base k s = .waiting ↔
      (heard s.env.peer).length < k ∧ Config.endOfData ∉ heard s.env.peer := by
  obtain ⟨as, rest, hlen, hans, _, hp, h⟩ | ⟨as, j, rest, _, hans, _, _, hp, h⟩ |
    ⟨_, _, _, _, _, _, _, _, ⟨m, hm, _⟩, _⟩ | ⟨hlt, heod, h⟩ := recvLoop_cases b base k s
  · rw [h, hp, length_heard_allAnswers_append hans]
    simp [hlen]
  · rw [h, hp, heard_append, heard_append, heard_byteAnswers (show Config.endOfData ≠ Config.busy by decide)]
    simp
  · simp [hlimit] at hm
  · simp [h, hlt, heod]

theorem recvPayload_waiting_iff {max : Nat} {s : State} :
    recvPayload max s = .waiting ↔ recvBytes .rxp 0 max s = .waiting := by
  rw [recvPayload_eq]
  cases recvBytes .rxp 0 max s <;> simp

theorem andThen_done_waiting_iff {α : Type} {r : Run α} :
    (r.andThen fun _ s => Run.done () s) = .waiting ↔ r = .waiting := by
  cases r <;> simp [Run.andThen]

/-- Settles O26: each operation is idle again exactly when its body does not wait, and each body waits exactly when
too few answers are heard. -/
theorem transceiverEndsIffAnswered : Obligations.TransceiverEndsIffAnswered := by
  intro s t a hidle hlevel hlimit
  refine ⟨fun hexec => ?sendByte, fun hexec => ?sendBytes, fun hexec => ?recvByte, fun hexec => ?recvBytes⟩ <;>
    obtain rfl := Host.Outcome.next.inj hexec
  case sendByte =>
    have hrun := byteXfer_waiting_iff (s := s.accept (opWord 1#4 a) .send) hlimit a
    exact (operate_idle_iff hidle hlevel _ _ rfl).trans
      ((not_congr (andThen_done_waiting_iff.trans hrun)).trans not_lt)
  case sendBytes =>
    have hrun := sendLoop_waiting_iff (s := (s.accept (opWord 2#4 a) .send).setIdx 0#8) hlimit .txp a.toNat
    exact (operate_idle_iff hidle hlevel _ _ rfl).trans ((not_congr hrun).trans not_lt)
  case recvByte =>
    have hrun := byteXfer_waiting_iff (s := s.accept (opWord 3#4 0#8) .recv) hlimit s.env.params.filler
    exact (operate_idle_iff hidle hlevel _ _ rfl).trans
      ((not_congr (andThen_done_waiting_iff.trans hrun)).trans not_lt)
  case recvBytes =>
    have hrun := recvLoop_waiting_iff (s := (s.accept (opWord 4#4 a) .recv).setIdx 0#8) hlimit .rxp 0 a.toNat
    exact (operate_idle_iff hidle hlevel _ _ rfl).trans
      ((not_congr (recvPayload_waiting_iff.trans hrun)).trans (not_and_or.trans (or_congr not_lt not_not)))

end Sys2Proof.Machine
end

section
/-! DISPATCH keeps the relation `Underway` too: its two sends, its poll and its two receives, and the actions between
them (44_orchestrator.md R202 to R208, R213). -/

namespace Sys2Proof.Machine

namespace State.Underway

variable {s u : State}

theorem writeRange (h : s.Underway u) {b : Space} (htxp : b ≠ .txp) (hcmdbuf : b ≠ .cmdbuf) (i : Nat)
    (vs : List Byte) : s.Underway (u.writeRange b i vs) := by
  induction vs generalizing u i with
  | nil => exact h
  | cons v vs ih => exact ih (h.writeByte htxp hcmdbuf i v) (i + 1)

theorem encodeToTxh (h : s.Underway u) : s.Underway u.encodeToTxh := h.writeRange (by decide) (by decide) ..

theorem buildRequest (h : s.Underway u) (l : Byte) : s.Underway (u.buildRequest l) :=
  have hfields : s.Underway (u.requestFields l) := { h with }
  hfields.encodeToTxh.writeRange (b := .rxh) (by decide) (by decide) 0 _

theorem markShortHeader (h : s.Underway u) : s.Underway u.markShortHeader := by
  rw [State.markShortHeader]
  split_ifs
  · exact h.raiseFlag (by decide)
  · exact h

theorem terminate (h : s.Underway u) : s.Underway u.terminate := by
  have hwritten := h.writeByte (b := .rxp) (by decide) (by decide) u.rx.cnt.toNat 0#8
  simp only [State.terminate]
  split_ifs
  · exact hwritten.raiseFlag (by decide)
  · exact hwritten

end State.Underway

theorem receiveByte_underway {s u : State} (h : s.Underway u) :
    (receiveByte u).Ends (fun _ => s.Underway) s.Underway :=
  (keptByByte_underway s).byteXfer h _

theorem recvBytes_underway {s u : State} (h : s.Underway u) {b : Space} (htxp : b ≠ .txp) (hcmdbuf : b ≠ .cmdbuf)
    (base max : Nat) : (recvBytes b base max u).Ends (fun _ => s.Underway) s.Underway := by
  refine recvLoop_ends (P := fun _ => s.Underway) (fun k u hu => ?byte) (fun _ h => h) max _ (h.setIdx 0#8)
  case byte =>
    exact (receiveByte_underway hu).mono (fun r u h => ⟨fun _ => h.raiseFlag (by decide),
      fun _ => (h.writeByte htxp hcmdbuf _ r).stepIdx⟩) fun _ h => h

theorem syncPoll_underway {s u : State} (h : s.Underway u) :
    (syncPoll u).Ends (fun _ => s.Underway) s.Underway := by
  refine syncPoll_ends ((pollLoop_ends (P := s.Underway) (Q := s.Underway) (L := s.Underway) (fun u hu => ?byte) _ _
    (h.setPolls 0)).mono (fun _ u hu => hu.writeByte (by decide) (by decide) ..) fun _ h => h)
  case byte =>
    exact (receiveByte_underway (hu.emit _)).mono
      (fun r u h => ⟨fun _ => h.setPolls _, fun _ _ => h.setPolls _, fun _ _ => h.setPolls _⟩) fun _ h => h

/-- Steps 5 to 7 of DISPATCH (R205 to R208). -/
def receiveReply (s : State) : Run Unit :=
  (recvBytes .rxh 1 3 s).andThen fun _ s =>
  let s := s.markShortHeader
  let s := s.putReceived (decodeHeader s.rxhBytes)
  (recvPayload s.rx.len.toNat s).andThen fun _ s =>
  .done () s.terminate.reportReply

theorem transaction_eq (l : Byte) (s : State) :
    transaction l s = (sendBytes .txh 4 s).andThen fun _ s => (sendBytes .txp l.toNat s).andThen fun _ s =>
      (syncPoll s).andThen fun _ s => receiveReply s := rfl

/-- The reply keeps the relation up to its record, the last action. -/
theorem receiveReply_underway {s u : State} (h : s.Underway u) :
    (receiveReply u).Ends (fun _ v => ∃ v', s.Underway v' ∧ v = v'.terminate.reportReply) s.Underway := by
  refine (recvBytes_underway h (by decide) (by decide) 1 3).andThen fun _ u hu => ?payload
  case payload =>
    have hdecoded := hu.markShortHeader.putReceived (decodeHeader u.markShortHeader.rxhBytes)
    have hpayload := recvPayload_ends (s := u.markShortHeader.putReceived (decodeHeader u.markShortHeader.rxhBytes))
      (max := (u.markShortHeader.putReceived (decodeHeader u.markShortHeader.rxhBytes)).rx.len.toNat)
      ((recvBytes_underway hdecoded (by decide) (by decide) 0 _).mono (fun _ _ h => h.countStored)
        fun _ h => h.countStored)
    exact hpayload.andThen fun _ v hv => ⟨v, hv, rfl⟩

/-- A transaction keeps the relation up to the record of the reply. -/
theorem transaction_underway {s u : State} (l : Byte) (h : s.Underway u) :
    (transaction l u).Ends (fun _ v => ∃ v', s.Underway v' ∧ v = v'.terminate.reportReply) s.Underway := by
  have hsend : ∀ b n (u : State), s.Underway u → (sendBytes b n u).Ends (fun _ => s.Underway) s.Underway :=
    fun b n u hu => (sendBytes_sameData b n u).mono (fun _ _ h => hu.trans h.underway) fun _ h => hu.trans h.underway
  rw [transaction_eq]
  exact (hsend _ _ _ h).andThen fun _ _ hu => (hsend _ _ _ hu).andThen fun _ _ hu =>
    (syncPoll_underway hu).andThen fun _ _ hu => receiveReply_underway hu

/-- The body of DISPATCH: the reset request, or an end of the relation, with or without the record of the reply. -/
theorem dispatchBody_underway {s t : State} {l : Byte} (h : dispatchBody l s = some t) :
    t = s.sysResetRequested ∨
    (∃ u, s.Underway u ∧ (t = u.terminate.reportReply.completed ∨ t = u.timedOut)) := by
  obtain ⟨-, hbody⟩ | ⟨-, hbody⟩ := dispatchBody_cases l s
  · exact .inl (Option.some.inj (h.symm.trans hbody))
  · refine .inr ?_
    rw [hbody] at h
    have hrun := transaction_underway l ((State.Underway.refl s).buildRequest l)
    obtain ⟨v, hv, rfl⟩ | ⟨v, hv, rfl⟩ := outcome_eq_some h
    · obtain ⟨u, hu, rfl⟩ := hrun.of_done hv
      exact ⟨u, hu, .inl rfl⟩
    · exact ⟨v, hrun.of_timeout hv, .inr rfl⟩

end Sys2Proof.Machine
end

section
/-! The invariant of the machine is kept by every step (10_state.md R21, R37, R41; 41_transceiver.md R141;
44_orchestrator.md R212): one lemma for a state at rest, one for an action inside the byte engine, one for an action
between two bytes, and one for the end of an operation; each action of a step is a use of one of them. -/

namespace Sys2Proof.Machine

/-! ### Status -/

theorem endedStatus_reserved {v : Byte} (h : v &&& 0x80#8 = 0#8) : endedStatus v &&& 0x80#8 = 0#8 := by
  refine or_and_eq_zero ?_ (by decide)
  rw [BitVec.and_assoc, BitVec.and_comm (~~~bitActive), ← BitVec.and_assoc, h, BitVec.zero_and]

/-- A flag more does not clear `ACTIVE`. -/
theorem raiseFlag_active {s : State} (h : s.active = true) (f : Byte) : (s.raiseFlag f).active = true := by
  refine bne_iff_ne.mpr fun hzero => absurd h ?_
  have hbit : s.ctl.status &&& bitActive = 0#8 := by
    refine BitVec.eq_of_getLsbD_eq fun i hi => ?_
    have hi := congrArg (BitVec.getLsbD · i) hzero
    simp only [raiseFlag_ctl, BitVec.getLsbD_and, BitVec.getLsbD_or, BitVec.getLsbD_zero] at hi ⊢
    revert hi
    cases s.ctl.status.getLsbD i <;> simp
  simp [State.active, flagSet, hbit]

/-! ### Reading the invariant -/

namespace State.Inv

variable {s : State}

theorem frame_false (h : s.Inv) (hx : s.seq.be ≠ .xchg) (hd : s.seq.be ≠ .deassert) : s.link.frame = false :=
  Bool.eq_false_iff.mpr fun hf => (h.frame.mp hf).elim hx hd

theorem phase_idle (h : s.Inv) (hidle : s.active = false) : s.seq.phase = .idle :=
  not_not.mp fun hp => by simp [h.active.mpr hp] at hidle

theorem request_false (h : s.Inv) (hp : s.seq.phase ≠ .resetReq) : s.ctl.sysrstReq = false :=
  Bool.eq_false_iff.mpr fun hr => hp (h.request.mp hr)

theorem engine_idle (h : s.Inv) (hp : s.seq.phase.usesEngine = false) : s.seq.be = .idle := h.engine hp

theorem frame_false_of_idle (h : s.Inv) (hbe : s.seq.be = .idle) : s.link.frame = false :=
  h.frame_false (by simp [hbe]) (by simp [hbe])

end State.Inv

theorem zero_le_byte (n : Byte) : 0#8 ≤ n := by bv_omega

theorem stepIdx_le {i n : Byte} (h : i < n) : i + 1#8 ≤ n := by bv_omega

theorem lt_of_le_of_ne_byte {i n : Byte} (h : i ≤ n) (hne : i ≠ n) : i < n := by bv_omega

/-! The bound of `IDX`, phase by phase. -/

section
variable {s : State}

theorem idxInBound_send (hp : s.seq.phase = .send) : s.idxInBound ↔
    s.seq.idx ≤ s.sendCount ∧ (s.seq.be ≠ .idle → s.seq.idx < s.sendCount) := by
  simp only [State.idxInBound, hp]

theorem idxInBound_recv (hp : s.seq.phase = .recv) : s.idxInBound ↔ (s.singleReceive = false →
    s.seq.idx ≤ s.arg ∧ (s.seq.be ≠ .idle → s.seq.idx < s.arg)) := by
  simp only [State.idxInBound, hp]

theorem idxInBound_txHdr (hp : s.seq.phase = .txHdr) : s.idxInBound ↔ s.seq.idx < 4#8 := by
  simp only [State.idxInBound, hp]

theorem idxInBound_txPay (hp : s.seq.phase = .txPay) : s.idxInBound ↔
    s.seq.idx ≤ s.arg ∧ (s.seq.be ≠ .idle → s.seq.idx < s.arg) := by
  simp only [State.idxInBound, hp]

theorem idxInBound_rxHdr (hp : s.seq.phase = .rxHdr) : s.idxInBound ↔
    s.seq.idx ≤ 3#8 ∧ (s.seq.be ≠ .idle → s.seq.idx < 3#8) := by
  simp only [State.idxInBound, hp]

theorem idxInBound_rxPay (hp : s.seq.phase = .rxPay) : s.idxInBound ↔
    s.seq.idx ≤ s.rx.len ∧ (s.seq.be ≠ .idle → s.seq.idx < s.rx.len) := by
  simp only [State.idxInBound, hp]

theorem idxInBound_pollRx (hp : s.seq.phase = .pollRx) : s.idxInBound := by
  simp only [State.idxInBound, hp]

end

/-- The phases of DISPATCH, which run with one operation latched (R212). -/
def Phase.ofDispatch : Phase → Bool
  | .idle | .send | .recv | .codec => false
  | _ => true

theorem opFitsPhase_dispatch {s : State} (hp : s.seq.phase.ofDispatch = true) : s.opFitsPhase ↔ s.op = 7#4 := by
  cases h : s.seq.phase <;> simp only [State.opFitsPhase, h] <;> simp [h, Phase.ofDispatch] at hp

/-! ### The four ways to establish the invariant -/

/-- Nothing the invariant speaks of changes but the memory. -/
theorem State.Inv.of_same {s t : State} (h : s.Inv) (hmem : t.mem.wf = true)
    (hframe : t.link.frame = s.link.frame) (hctl : t.ctl = s.ctl) (hseq : t.seq = s.seq) (hrx : t.rx = s.rx) :
    t.Inv where
  memory := hmem
  frame := by rw [hframe, hseq]; exact h.frame
  engine := by rw [hseq]; exact h.engine
  active := by
    have hactive : t.active = s.active := by simp only [State.active, hctl]
    rw [hactive, hseq]
    exact h.active
  reserved := by rw [hctl]; exact h.reserved
  request := by rw [hctl, hseq]; exact h.request
  operation := by
    have := h.operation
    simp only [State.opFitsPhase, State.op, hctl, hseq] at this ⊢
    exact this
  index := by
    have := h.index
    simp only [State.idxInBound, State.sendCount, State.singleReceive, State.op, State.arg, hctl, hseq, hrx] at this ⊢
    exact this

/-- A state at rest. -/
theorem inv_of_idle {t : State} (hphase : t.seq.phase = .idle) (hbe : t.seq.be = .idle) (hmem : t.mem.wf = true)
    (hframe : t.link.frame = false) (hactive : t.active = false) (hreserved : t.ctl.status &&& 0x80#8 = 0#8)
    (hrequest : t.ctl.sysrstReq = false) : t.Inv where
  memory := hmem
  frame := by simp [hframe, hbe]
  engine _ := hbe
  active := by simp [hactive, hphase]
  reserved := hreserved
  request := by simp [hrequest, hphase]
  operation := by simp only [State.opFitsPhase, hphase]
  index := by simp only [State.idxInBound, hphase]

/-- A state of a running operation in which the byte engine rests. -/
theorem inv_of_resting {t : State} (hphase : t.seq.phase ≠ .idle ∧ t.seq.phase ≠ .resetReq)
    (hbe : t.seq.be = .idle) (hmem : t.mem.wf = true) (hframe : t.link.frame = false) (hactive : t.active = true)
    (hreserved : t.ctl.status &&& 0x80#8 = 0#8) (hrequest : t.ctl.sysrstReq = false) (hop : t.opFitsPhase)
    (hidx : t.idxInBound) : t.Inv where
  memory := hmem
  frame := by simp [hframe, hbe]
  engine _ := hbe
  active := by simp [hactive, hphase.1]
  reserved := hreserved
  request := by simp [hrequest, hphase.2]
  operation := hop
  index := hidx

/-- A state inside the byte engine, in the phase and at the index of a state that met the invariant. -/
theorem State.Inv.inEngine {s t : State} (h : s.Inv) (hengine : s.seq.phase.usesEngine = true) {e : ByteEngine}
    (hseq : t.seq = { s.seq with be := e }) (hframe : t.link.frame = true ↔ e = .xchg ∨ e = .deassert)
    (hmem : t.mem = s.mem) (hctl : t.ctl = s.ctl) (hidx : t.idxInBound) : t.Inv where
  memory := by rw [hmem]; exact h.memory
  frame := by rw [hframe, hseq]
  engine hp := by simp [hseq, hengine] at hp
  active := by
    have hactive : t.active = s.active := by simp only [State.active, hctl]
    rw [hactive, hseq]
    exact h.active
  reserved := by rw [hctl]; exact h.reserved
  request := by rw [hctl, hseq]; exact h.request
  operation := by
    have := h.operation
    simp only [State.opFitsPhase, State.op, hctl, hseq] at this ⊢
    exact this
  index := hidx

/-- Within the byte engine the index stays within its bound. -/
theorem idxInBound_of_engine {s t : State} (h : s.idxInBound) (hbe : s.seq.be ≠ .idle) {e : ByteEngine}
    (hseq : t.seq = { s.seq with be := e }) (hctl : t.ctl = s.ctl) (hrx : t.rx = s.rx) : t.idxInBound := by
  simp only [State.idxInBound, State.sendCount, State.singleReceive, State.op, State.arg, hctl, hseq, hrx] at h ⊢
  cases hp : s.seq.phase <;> simp only [hp] at h ⊢
  case recv => exact fun hs => ⟨(h hs).1, fun _ => (h hs).2 hbe⟩
  case txHdr | term => exact h
  all_goals exact ⟨h.1, fun _ => h.2 hbe⟩

/-- The end of an operation, from any state of its run. -/
theorem ended_inv {s u : State} (hmem : s.mem.wf = true) (hframe : s.link.frame = false)
    (hreserved : s.ctl.status &&& 0x80#8 = 0#8) (hrequest : s.ctl.sysrstReq = false) (hu : s.Underway u) :
    u.completed.Inv ∧ u.timedOut.Inv :=
  ⟨inv_of_idle rfl rfl (hu.memory hmem) (hu.frame hframe) (completed_active u)
      (endedStatus_reserved (hu.reserved hreserved)) (hu.request.trans hrequest),
    inv_of_idle rfl rfl (hu.memory hmem) (hu.frame hframe) (timedOut_active u)
      (endedStatus_reserved (or_and_eq_zero (hu.reserved hreserved) (by decide))) (hu.request.trans hrequest)⟩

theorem State.Inv.ended {s u : State} (h : s.Inv) (hp : s.seq.phase ≠ .resetReq) (hframe : s.link.frame = false)
    (hu : s.Underway u) : u.completed.Inv ∧ u.timedOut.Inv :=
  ended_inv h.memory hframe h.reserved (h.request_false hp) hu

/-! ### The byte engine -/

/-- A phase that uses the byte engine is no phase of rest. -/
theorem usesEngine_running {p : Phase} (h : p.usesEngine = true) : p ≠ .idle ∧ p ≠ .resetReq := by
  constructor <;> rintro rfl <;> simp [Phase.usesEngine] at h

theorem startByte_inv {s : State} (h : s.Inv) (hengine : s.seq.phase.usesEngine = true) (hbe : s.seq.be = .idle)
    (hidx : s.startByte.idxInBound) : s.startByte.Inv :=
  h.inEngine hengine (e := .assert) rfl (by simpa [State.startByte] using h.frame_false_of_idle hbe) rfl rfl hidx

theorem State.Underway.setEngine {s u : State} (h : s.Underway u) (e : ByteEngine) : s.Underway (u.setEngine e) :=
  { h with }

theorem State.Underway.setPhase {s u : State} (h : s.Underway u) (p : Phase) : s.Underway (u.setPhase p) :=
  { h with }

/-- An action after which the operation still runs, the byte engine at rest. -/
theorem State.Inv.goesOn {s t : State} (h : s.Inv) (hp : s.seq.phase ≠ .idle ∧ s.seq.phase ≠ .resetReq)
    (hframe : s.link.frame = false) (hu : s.Underway t) (hactive : t.active = true)
    (hp' : t.seq.phase ≠ .idle ∧ t.seq.phase ≠ .resetReq) (hbe : t.seq.be = .idle) (hop : t.opFitsPhase)
    (hidx : t.idxInBound) : t.Inv :=
  inv_of_resting hp' hbe (hu.memory h.memory) (hu.frame hframe) hactive (hu.reserved h.reserved)
    (hu.request.trans (h.request_false hp.2)) hop hidx

/-- The same within the phases of DISPATCH. -/
theorem State.Inv.nextPhase {s t : State} (h : s.Inv) (hp : s.seq.phase ≠ .resetReq)
    (hd : s.seq.phase.ofDispatch = true) (hframe : s.link.frame = false) (hu : s.Underway t) (hactive : t.active = true)
    (hp' : t.seq.phase ≠ .idle ∧ t.seq.phase ≠ .resetReq) (hd' : t.seq.phase.ofDispatch = true)
    (hbe : t.seq.be = .idle) (hidx : t.idxInBound) : t.Inv := by
  have hop : t.op = 7#4 := by
    rw [State.op, hu.cmd]
    exact (opFitsPhase_dispatch hd).mp h.operation
  have hidle : s.seq.phase ≠ .idle := fun hi => by simp [hi, Phase.ofDispatch] at hd
  exact h.goesOn ⟨hidle, hp⟩ hframe hu hactive hp' hbe ((opFitsPhase_dispatch hd').mpr hop) hidx

theorem State.Inv.active_true {s : State} (h : s.Inv) (hp : s.seq.phase ≠ .idle) : s.active = true := h.active.mpr hp

/-- A phase on entry or between two bytes: the end, the next phase, or a byte started (R133, R139, R212). -/
theorem enterPhase_inv {s : State} (h : s.Inv) (hengine : s.seq.phase.usesEngine = true) (hbe : s.seq.be = .idle) :
    s.enterPhase.Inv := by
  obtain ⟨hidle, hreset⟩ := usesEngine_running hengine
  have hframe := h.frame_false_of_idle hbe
  have hactive := h.active_true hidle
  have hself := State.Underway.refl s
  cases hp : s.seq.phase with
  | send =>
    simp only [State.enterPhase, hp]
    split_ifs with hi
    · exact (h.ended hreset hframe hself).1
    · refine startByte_inv h hengine hbe (Iff.mpr (idxInBound_send hp) ?_)
      have hle := ((idxInBound_send hp).mp h.index).1
      exact ⟨hle, fun _ => lt_of_le_of_ne_byte hle hi⟩
  | recv =>
    simp only [State.enterPhase, hp]
    split_ifs with hs hi
    · refine startByte_inv h hengine hbe (Iff.mpr (idxInBound_recv hp) fun hs' => ?_)
      exact absurd (hs.symm.trans hs') (by decide)
    · exact (h.ended hreset hframe hself.countStored).1
    · refine startByte_inv h hengine hbe (Iff.mpr (idxInBound_recv hp) fun _ => ?_)
      have hle := ((idxInBound_recv hp).mp h.index (Bool.eq_false_iff.mpr hs)).1
      exact ⟨hle, fun _ => lt_of_le_of_ne_byte hle hi⟩
  | txHdr =>
    simp only [State.enterPhase, hp]
    exact startByte_inv h hengine hbe (Iff.mpr (idxInBound_txHdr hp) ((idxInBound_txHdr hp).mp h.index))
  | txPay =>
    simp only [State.enterPhase, hp]
    split_ifs with hi
    · exact h.nextPhase hreset (by rw [hp]; rfl) hframe ((hself.setPolls 0).setPhase .pollWait) hactive
        ⟨by simp, by simp⟩ rfl hbe trivial
    · refine startByte_inv h hengine hbe (Iff.mpr (idxInBound_txPay hp) ?_)
      have hle := ((idxInBound_txPay hp).mp h.index).1
      exact ⟨hle, fun _ => lt_of_le_of_ne_byte hle hi⟩
  | pollRx =>
    simp only [State.enterPhase, hp]
    exact startByte_inv h hengine hbe (idxInBound_pollRx hp)
  | rxHdr =>
    simp only [State.enterPhase, hp]
    split_ifs with hi
    · exact h.nextPhase hreset (by rw [hp]; rfl) hframe (hself.setPhase .decode) hactive ⟨by simp, by simp⟩ rfl hbe
        trivial
    · refine startByte_inv h hengine hbe (Iff.mpr (idxInBound_rxHdr hp) ?_)
      have hle := ((idxInBound_rxHdr hp).mp h.index).1
      exact ⟨hle, fun _ => lt_of_le_of_ne_byte hle hi⟩
  | rxPay =>
    simp only [State.enterPhase, hp]
    have hle := ((idxInBound_rxPay hp).mp h.index).1
    split_ifs with hi
    · exact h.nextPhase hreset (by rw [hp]; rfl) hframe (hself.setPhase .term) hactive ⟨by simp, by simp⟩ rfl hbe hle
    · exact startByte_inv h hengine hbe (Iff.mpr (idxInBound_rxPay hp) ⟨hle, fun _ => lt_of_le_of_ne_byte hle hi⟩)
  | _ => simp [hp, Phase.usesEngine] at hengine

/-- A `BUSY` answer checked: the pacing delay next, or the end (R131). -/
theorem takeBusy_inv {s : State} (h : s.Inv) (hengine : s.seq.phase.usesEngine = true) (hbe : s.seq.be = .check) :
    s.takeBusy.Inv := by
  have hframe := h.frame_false (by simp [hbe]) (by simp [hbe])
  obtain ⟨-, htake⟩ | ⟨-, htake⟩ := takeBusy_cases hengine
  · rw [htake]
    exact h.inEngine hengine (e := .pace) rfl (by simpa using hframe) rfl rfl
      (idxInBound_of_engine h.index (by simp [hbe]) (e := .pace) rfl rfl rfl)
  · have hu : s.Underway (if s.storesPayload then s.countStored else s) := by
      split_ifs
      · exact (State.Underway.refl s).countStored
      · exact .refl s
    rw [htake]
    exact (h.ended (usesEngine_running hengine).2 hframe hu).2

/-- Any other answer checked: the phase takes it (R141, R212). -/
theorem takeByte_inv {s : State} (h : s.Inv) (hengine : s.seq.phase.usesEngine = true) (hbe : s.seq.be = .check)
    (r : Byte) : (s.takeByte r).Inv := by
  obtain ⟨hidle, hreset⟩ := usesEngine_running hengine
  have hframe := h.frame_false (by simp [hbe]) (by simp [hbe])
  have hactive := h.active_true hidle
  have hnot : s.seq.be ≠ .idle := by simp [hbe]
  have hrest := (State.Underway.refl s).setEngine .idle
  have hgoes : ∀ t : State, s.Underway t → t.active = true → t.seq.phase = s.seq.phase → t.seq.be = .idle →
      t.idxInBound → t.Inv := by
    intro t hu hactive' hphase hbe' hidx
    refine h.goesOn ⟨hidle, hreset⟩ hframe hu hactive' (by rw [hphase]; exact ⟨hidle, hreset⟩) hbe' ?_ hidx
    have := h.operation
    simpa only [State.opFitsPhase, State.op, hu.cmd, hphase] using this
  cases hp : s.seq.phase with
  | send =>
    rw [takeByte_send hp, State.sentOne]
    split_ifs with hi
    · exact (h.ended hreset hframe hrest.stepIdx).1
    · have hlt := ((idxInBound_send hp).mp h.index).2 hnot
      exact hgoes _ hrest.stepIdx hactive rfl rfl (Iff.mpr (idxInBound_send hp)
        ⟨stepIdx_le hlt, fun hb => absurd rfl hb⟩)
  | recv =>
    rw [takeByte_recv hp, State.receivedOne]
    simp only
    split_ifs with hs hr hi
    · exact (h.ended hreset hframe hrest).1
    · exact (h.ended hreset hframe (hrest.raiseFlag (f := bitEod) (by decide)).countStored).1
    · exact (h.ended hreset hframe
        (hrest.writeByte (b := .rxp) (by decide) (by decide) _ r).stepIdx.countStored).1
    · have hlt := ((idxInBound_recv hp).mp h.index (Bool.eq_false_iff.mpr hs)).2 hnot
      exact hgoes _ (hrest.writeByte (b := .rxp) (by decide) (by decide) _ r).stepIdx hactive rfl rfl
        (Iff.mpr (idxInBound_recv hp) fun _ => ⟨stepIdx_le hlt, fun hb => absurd rfl hb⟩)
  | txHdr =>
    have hd : s.seq.phase.ofDispatch = true := by rw [hp]; rfl
    rw [takeByte_txHdr hp, State.headerSentOne]
    split_ifs with hi
    · exact h.nextPhase hreset hd hframe ((hrest.stepIdx.setIdx 0#8).setPhase .txPay) hactive ⟨by simp, by simp⟩ rfl rfl
        ((idxInBound_txPay rfl).mpr ⟨zero_le_byte _, fun hb => absurd rfl hb⟩)
    · have hlt := (idxInBound_txHdr hp).mp h.index
      exact hgoes _ hrest.stepIdx hactive rfl rfl
        (Iff.mpr (idxInBound_txHdr hp) (lt_of_le_of_ne_byte (stepIdx_le hlt) hi))
  | txPay =>
    rw [takeByte_txPay hp]
    have hlt := ((idxInBound_txPay hp).mp h.index).2 hnot
    exact hgoes _ hrest.stepIdx hactive rfl rfl (Iff.mpr (idxInBound_txPay hp)
        ⟨stepIdx_le hlt, fun hb => absurd rfl hb⟩)
  | pollRx =>
    have hd : s.seq.phase.ofDispatch = true := by rw [hp]; rfl
    rw [takeByte_pollRx hp, State.polledOne]
    split_ifs with hr hl
    · exact h.nextPhase hreset hd hframe
        ((((hrest.setPolls (s.polls + 1)).writeByte (b := .rxh) (by decide) (by decide) 0 _).setIdx 0#8).setPhase .rxHdr)
        hactive ⟨by simp, by simp⟩ rfl rfl ((idxInBound_rxHdr rfl).mpr ⟨zero_le_byte _, fun hb => absurd rfl hb⟩)
    · exact (h.ended hreset hframe (hrest.setPolls (s.polls + 1))).2
    · exact h.nextPhase hreset hd hframe ((hrest.setPolls (s.polls + 1)).setPhase .pollWait) hactive
        ⟨by simp, by simp⟩ rfl rfl trivial
  | rxHdr =>
    have hd : s.seq.phase.ofDispatch = true := by rw [hp]; rfl
    have hlt := ((idxInBound_rxHdr hp).mp h.index).2 hnot
    rw [takeByte_rxHdr hp, State.tailOne]
    split_ifs with hr
    · exact h.nextPhase hreset hd hframe
        (((hrest.raiseFlag (f := bitEod) (by decide)).raiseFlag (f := bitHdrShort) (by decide)).setPhase .decode)
        (raiseFlag_active (s := (s.setEngine .idle).raiseFlag bitEod) (raiseFlag_active hactive _) _)
        ⟨by simp, by simp⟩ rfl rfl trivial
    · exact hgoes _ (hrest.writeByte (b := .rxh) (by decide) (by decide) _ r).stepIdx hactive rfl rfl
        (Iff.mpr (idxInBound_rxHdr hp) ⟨stepIdx_le hlt, fun hb => absurd rfl hb⟩)
  | rxPay =>
    have hd : s.seq.phase.ofDispatch = true := by rw [hp]; rfl
    obtain ⟨hle, hlt⟩ := (idxInBound_rxPay hp).mp h.index
    rw [takeByte_rxPay hp, State.payloadOne]
    split_ifs with hr
    · exact h.nextPhase hreset hd hframe ((hrest.raiseFlag (f := bitEod) (by decide)).setPhase .term)
        (raiseFlag_active (s := s.setEngine .idle) hactive _) ⟨by simp, by simp⟩ rfl rfl hle
    · exact hgoes _ (hrest.writeByte (b := .rxp) (by decide) (by decide) _ r).stepIdx hactive rfl rfl
        (Iff.mpr (idxInBound_rxPay hp) ⟨stepIdx_le (hlt hnot), fun hb => absurd rfl hb⟩)
  | _ => simp [hp, Phase.usesEngine] at hengine

end Sys2Proof.Machine
end

section
/-! What a step can be (00_scope.md R10; log 12), told once for the statements about every step: the operations with
the ends of their runs, the rows that are no operation, and the outside world's actions. Then the invariant at every
step. -/

namespace Sys2Proof.Machine

/-! ### Operations -/

/-- An end of the run of an operation that was accepted in `s`. -/
def State.EndsAs (s t : State) : Prop :=
  (s.op = 7#4 ∧ t = s.sysResetRequested) ∨
  ∃ u, s.Underway u ∧ (t = u.completed ∨ t = u.timedOut ∨ t = u.terminate.reportReply.completed)

theorem endsAs_of_outcome {s t : State} {run : Run Unit} (h : run.Ends (fun _ => s.Underway) s.Underway)
    (ht : run.outcome = some t) : s.EndsAs t := by
  obtain ⟨u, hu, rfl⟩ | ⟨u, hu, rfl⟩ := outcome_eq_some ht
  · exact .inr ⟨u, h.of_done hu, .inl rfl⟩
  · exact .inr ⟨u, h.of_timeout hu, .inr (.inl rfl)⟩

/-- A first phase of an operation: the operation fits it, `IDX = 0` is in bound, and it is a phase that runs. -/
structure FirstPhase (w : Half) (p : Phase) : Prop where
  operation : ∀ s : State, (s.accept w p).opFitsPhase
  index : ∀ s : State, (s.accept w p).idxInBound
  running : p ≠ .idle ∧ p ≠ .resetReq

theorem firstPhase_send {op : BitVec 4} (hop : op = 1#4 ∨ op = 2#4) (a : Byte) : FirstPhase (opWord op a) .send where
  operation s := by simpa [State.opFitsPhase, State.op, opField_opWord] using hop
  index _ := Iff.mpr (idxInBound_send rfl) ⟨zero_le_byte _, fun hb => absurd rfl hb⟩
  running := by simp

theorem firstPhase_recv {op : BitVec 4} (hop : op = 3#4 ∨ op = 4#4) (a : Byte) : FirstPhase (opWord op a) .recv where
  operation s := by simpa [State.opFitsPhase, State.op, opField_opWord] using hop
  index _ := Iff.mpr (idxInBound_recv rfl) fun _ => ⟨zero_le_byte _, fun hb => absurd rfl hb⟩
  running := by simp

theorem firstPhase_codec {op : BitVec 4} (hop : op = 5#4 ∨ op = 6#4) (a : Byte) : FirstPhase (opWord op a) .codec where
  operation s := by simpa [State.opFitsPhase, State.op, opField_opWord] using hop
  index _ := trivial
  running := by simp

theorem firstPhase_keyChk (a : Byte) : FirstPhase (opWord 7#4 a) .keyChk where
  operation s := by simp [State.opFitsPhase, State.op, opField_opWord]
  index _ := trivial
  running := by simp

/-- DISPATCH ends as an operation ends. -/
theorem dispatchBody_endsAs {s : State} {l : Byte} {w : Half} {p : Phase} {t : State}
    (hop : (s.accept w p).op = 7#4) (h : dispatchBody l (s.accept w p) = some t) : (s.accept w p).EndsAs t := by
  obtain rfl | ⟨u, hu, rfl | rfl⟩ := dispatchBody_underway h
  · exact .inl ⟨hop, rfl⟩
  · exact .inr ⟨u, hu, .inr (.inr rfl)⟩
  · exact .inr ⟨u, hu, .inr (.inl rfl)⟩

/-- Each operation writes a word, starts in a phase that fits it, and runs a body that ends as operations end. -/
theorem exec_isOperation_ends {i : Instr} (hi : isOperation i = true) :
    ∃ w p body, (∀ s, exec i s = .next (s.operate w p body)) ∧ FirstPhase w p ∧
      ∀ s t : State, body (s.accept w p) = some t → (s.accept w p).EndsAs t := by
  have hone : ∀ (b : Byte) (s : State), ((byteXfer b s).andThen fun _ s' => Run.done () s').Ends
      (fun _ => s.Underway) s.Underway := fun b s =>
    ((keptByByte_underway s).byteXfer (.refl s) b).andThen fun _ _ h => h
  cases i with
  | sendByte a =>
    exact ⟨_, _, _, fun _ => rfl, firstPhase_send (.inl rfl) a, fun _ _ => endsAs_of_outcome (hone _ _)⟩
  | sendBytes a =>
    exact ⟨_, _, _, fun _ => rfl, firstPhase_send (.inr rfl) a, fun _ _ => endsAs_of_outcome
      ((sendBytes_sameData .txp a.toNat _).mono (fun _ _ h => h.underway) fun _ h => h.underway)⟩
  | recvByte => exact ⟨_, _, _, fun _ => rfl, firstPhase_recv (.inl rfl) 0#8, fun _ _ => endsAs_of_outcome (hone _ _)⟩
  | recvBytes a =>
    exact ⟨_, _, _, fun _ => rfl, firstPhase_recv (.inr rfl) a, fun _ _ => endsAs_of_outcome
      ((recvPayload_received (toNat_le_255 a) _).mono (fun _ _ h => h.underway) fun _ h => h.underway)⟩
  | encHdr =>
    refine ⟨_, _, _, fun _ => rfl, firstPhase_codec (.inl rfl) 0#8, fun s t ht => ?_⟩
    exact .inr ⟨_, (State.Underway.refl _).encodeToTxh, .inl (Option.some.inj ht).symm⟩
  | decHdr =>
    refine ⟨_, _, _, fun _ => rfl, firstPhase_codec (.inr rfl) 0#8, fun s t ht => ?_⟩
    exact .inr ⟨_, (State.Underway.refl _).putReceived _, .inl (Option.some.inj ht).symm⟩
  | dispatch l =>
    exact ⟨_, _, _, fun _ => rfl, firstPhase_keyChk l, fun s t => dispatchBody_endsAs (opField_opWord 7#4 l)⟩
  | _ => cases hi

/-! ### Rows that are no operation -/

/-- A header decoded where it stands is taken by its four bytes, whatever its row (R96). -/
theorem exec_decode_hdr (h : Quad) (s : State) :
    exec (decode (.hdr h)) s = .next (s.takeHeader (hdrType h) (hdrLow h) (hdrHigh h) (hdrLength h)) := by
  have hd := decode_hdrWord_cases (hdrType h) (hdrLow h) (hdrHigh h) (hdrLength h)
  rw [hdrWord_fields] at hd
  obtain ⟨ht, hd⟩ | ⟨ht, hd⟩ | ⟨ht, hd⟩ | ⟨ht, hd⟩ | ⟨-, hd⟩ := hd
  case inr.inr.inr.inr =>
    rw [hd]
    rfl
  all_goals
    rw [hd, ht]
    rfl

/-- `FEED` of a pending console byte: a line end, a backspace, or another byte (R181). -/
theorem exec_decode_con (c : Byte) (s : State) :
    exec (decode (.con c)) s = .next s.feedLineEnd ∨ exec (decode (.con c)) s = .next s.feedBackspace ∨
    exec (decode (.con c)) s = .next (s.feedOther c) := by
  obtain ⟨-, hd⟩ | ⟨-, hd⟩ | ⟨-, hd⟩ | ⟨-, -, -, hd⟩ := decode_con_cases c <;> rw [hd]
  · exact .inl rfl
  · exact .inl rfl
  · exact .inr (.inl rfl)
  · exact .inr (.inr rfl)

/-- A property that a word written to `CMD`, refused or accepted, and every end of its run keep. -/
theorem exec_decode_opw_keeps {P : State → Prop} {s : State} (hs : P s)
    (hillegal : s.active = false → P s.illegalOp)
    (haccepted : ∀ w p, FirstPhase w p → s.active = false → P (s.accept w p))
    (hended : ∀ w p t, FirstPhase w p → s.active = false → (s.accept w p).EndsAs t → P t) (v : Half) {t : State}
    (h : exec (decode (.opw v)) s = .next t) : P t := by
  cases hactive : s.active with
  | true =>
    obtain rfl := Host.Outcome.next.inj ((exec_decode_opw_active hactive v).symm.trans h)
    exact hs
  | false =>
    obtain hop | hill := decode_opw_cases v
    · obtain ⟨w, p, body, hexec, hfirst, hends⟩ := exec_isOperation_ends hop
      obtain rfl := Host.Outcome.next.inj ((hexec s).symm.trans h)
      exact operate_keeps hs (haccepted w p hfirst hactive) fun t ht => hended w p t hfirst hactive (hends s t ht)
    · rw [hill, exec_opwIllegal_idle hactive] at h
      obtain rfl := Host.Outcome.next.inj h
      exact hillegal hactive

/-- The state in which the front end calls `dispatch`: the newline echoed, the line terminated (R185). -/
def State.lineEnded (s : State) : State :=
  (s.consoleWrite s.env.params.newlineEcho).writeByte .cmdbuf s.front.cur.toNat 0#8

/-- The state in which it writes the operation word: the line copied to `TXP` (R106). -/
def State.lineCopied (s : State) : State := s.lineEnded.writeRange .txp 0 s.lineEnded.consoleLine

/-- The state the operation word leaves. -/
def State.lineDispatched (s : State) : State :=
  s.lineCopied.operate (opWord 7#4 s.front.cur) .keyChk (dispatchBody s.front.cur)

/-- Up to the operation word, the front end writes its own records and the memory. -/
theorem lineCopied_frame (s : State) :
    s.lineCopied = { s with
      mem := s.lineCopied.mem
      front := { s.front with console := s.front.console ++ s.env.params.newlineEcho } } := by
  rw [State.lineCopied, writeRange_frame]
  rfl

/-- `FEED` of a line end on a line that is not empty, by whether `dispatch` has returned (R185). -/
theorem feedLineEnd_of_line {s : State} (hfree : s.hostBusy = false) (hcur : s.front.cur ≠ 0#8) :
    s.feedLineEnd = if s.lineDispatched.seq.phase = .idle then (s.lineDispatched.setStalled true).dispatchReturned
      else s.lineDispatched.setStalled true := by
  rw [State.feedLineEnd, if_neg (Bool.eq_false_iff.mp hfree), if_neg hcur]
  rfl

/-- What `FEED` of a line end can leave: the state as it was, or the front end inside or after its dispatch. -/
theorem feedLineEnd_cases (s : State) :
    s.feedLineEnd = s ∨
    (s.hostBusy = false ∧ ∃ f : FrontEnd, s.feedLineEnd = { s.lineDispatched with front := f }) := by
  by_cases hfree : s.hostBusy = false
  · by_cases hcur : s.front.cur = 0#8
    · exact .inl (by simp [State.feedLineEnd, hcur])
    · refine .inr ⟨hfree, ?_⟩
      rw [feedLineEnd_of_line hfree hcur]
      split_ifs
      · exact ⟨_, rfl⟩
      · exact ⟨_, rfl⟩
  · exact .inl (by simp [State.feedLineEnd, hfree])

/-- A property that the operation word of the front end, refused or accepted, and every end of its run keep. -/
theorem lineDispatched_keeps {P : State → Prop} {s : State} (hs : P s.lineCopied)
    (haccepted : ∀ w p, FirstPhase w p → P (s.lineCopied.accept w p))
    (hended : ∀ w p t, FirstPhase w p → (s.lineCopied.accept w p).EndsAs t → P t) : P s.lineDispatched :=
  operate_keeps hs (haccepted _ _ (firstPhase_keyChk _)) fun t ht =>
    hended _ _ t (firstPhase_keyChk _) (dispatchBody_endsAs (opField_opWord 7#4 _) ht)

theorem active_of_hostBusy_false {s : State} (h : s.hostBusy = false) : s.active = false := by
  simp only [State.hostBusy, Bool.or_eq_false_iff] at h
  exact h.1

/-! ### The invariant -/

/-- Settles O55: every field of the reset state is its own witness, and the empty trace stands at `fresh`. -/
theorem invariantAtReset : Obligations.InvariantAtReset :=
  ⟨inv_of_idle rfl rfl wf_reset rfl rfl rfl rfl, .fresh, rfl, .inl rfl⟩

theorem applyReset_inv (s : State) : s.applyReset.Inv :=
  inv_of_idle rfl rfl wf_reset rfl (show flagSet 0#8 bitActive = false by decide)
    (show 0#8 &&& 0x80#8 = 0#8 by decide) rfl

theorem accept_inv {s : State} (h : s.Inv) (hidle : s.active = false) {w : Half} {p : Phase} (hfirst : FirstPhase w p) :
    (s.accept w p).Inv := by
  have hphase := h.phase_idle hidle
  have hbe := h.engine_idle (by rw [hphase]; rfl)
  exact inv_of_resting hfirst.running rfl h.memory (h.frame_false_of_idle hbe) (accept_active s w p)
    (show acceptedStatus &&& 0x80#8 = 0#8 by decide)
    (h.request_false (by simp [hphase])) (hfirst.operation s) (hfirst.index s)

theorem sysResetRequested_inv {s : State} (h : s.Inv) (hframe : s.link.frame = false) (hp : s.seq.phase ≠ .idle)
    (hop : s.op = 7#4) : s.sysResetRequested.Inv where
  memory := h.memory
  frame := by simp [hframe]
  engine _ := rfl
  active := iff_of_true (h.active_true hp) (by simp)
  reserved := h.reserved
  request := by simp
  operation := hop
  index := trivial

/-- Rendering a reply touches nothing the invariant speaks of. -/
theorem reportReply_completed_inv {s : State} (h : s.completed.Inv) : s.reportReply.completed.Inv :=
  h.of_same h.memory rfl rfl rfl rfl

theorem endsAs_inv {s t : State} (h : s.Inv) (hp : s.seq.phase ≠ .idle ∧ s.seq.phase ≠ .resetReq)
    (hframe : s.link.frame = false) (ht : s.EndsAs t) : t.Inv := by
  obtain ⟨hop, rfl⟩ | ⟨u, hu, rfl | rfl | rfl⟩ := ht
  · exact sysResetRequested_inv h hframe hp.1 hop
  · exact (h.ended hp.2 hframe hu).1
  · exact (h.ended hp.2 hframe hu).2
  · exact reportReply_completed_inv (h.ended hp.2 hframe hu.terminate).1

/-- An operation accepted while idle ends in a state that meets the invariant. -/
theorem accept_endsAs_inv {s t : State} (h : s.Inv) (hidle : s.active = false) {w : Half} {p : Phase}
    (hfirst : FirstPhase w p) (ht : (s.accept w p).EndsAs t) : t.Inv := by
  have haccepted := accept_inv h hidle hfirst
  exact endsAs_inv haccepted hfirst.running (haccepted.frame_false_of_idle rfl) ht

theorem illegalOp_inv {s : State} (h : s.Inv) (hidle : s.active = false) : s.illegalOp.Inv := by
  have hphase := h.phase_idle hidle
  have hbe := h.engine_idle (by rw [hphase]; rfl)
  exact inv_of_idle hphase hbe h.memory (h.frame_false_of_idle hbe)
    (show flagSet illegalStatus bitActive = false by decide) (show illegalStatus &&& 0x80#8 = 0#8 by decide)
    (h.request_false (by simp [hphase]))

/-! The front end -/

theorem feedLineEnd_inv {s : State} (h : s.Inv) : s.feedLineEnd.Inv := by
  obtain heq | ⟨hbusy, hcases⟩ := feedLineEnd_cases s
  · rwa [heq]
  · have hidle := active_of_hostBusy_false hbusy
    have hcopied : s.lineCopied.Inv := by
      rw [lineCopied_frame]
      exact h.of_same (wf_writeRange (Memory.wf_write h.memory ..) ..) rfl rfl rfl rfl
    have hidle' : s.lineCopied.active = false := by
      rw [lineCopied_frame]
      exact hidle
    have hdispatched : s.lineDispatched.Inv := lineDispatched_keeps hcopied
      (fun w p hfirst => accept_inv hcopied hidle' hfirst)
      (fun w p t hfirst ht => accept_endsAs_inv hcopied hidle' hfirst ht)
    obtain ⟨f, heq⟩ := hcases
    rw [heq]
    exact hdispatched.of_same hdispatched.memory rfl rfl rfl rfl

theorem feedBackspace_inv {s : State} (h : s.Inv) : s.feedBackspace.Inv := by
  unfold State.feedBackspace
  split_ifs
  · exact h
  · exact h
  · exact h.of_same h.memory rfl rfl rfl rfl

theorem feedOther_inv {s : State} (h : s.Inv) (c : Byte) : (s.feedOther c).Inv := by
  unfold State.feedOther
  split_ifs
  · exact h
  · exact h.of_same (Memory.wf_write h.memory ..) rfl rfl rfl rfl
  · exact h

/-! The block's own action -/

/-- One action of the byte engine (R141). -/
theorem engineTurn_inv {s t : State} (h : s.Inv) (hengine : s.seq.phase.usesEngine = true)
    (ht : s.engineTurn.outcome = .next t) : t.Inv := by
  unfold State.engineTurn at ht
  cases hbe : s.seq.be <;> simp only [hbe, Turn.outcome_move, Turn.outcome_run] at ht
  case idle =>
    obtain rfl := Host.Outcome.next.inj ht
    exact enterPhase_inv h hengine hbe
  case check =>
    by_cases hr : s.link.rxb = Config.busy
    · rw [hr, exec_decode_wb_busy] at ht
      obtain rfl := Host.Outcome.next.inj ht
      exact takeBusy_inv h hengine hbe
    · rw [exec_decode_wb hr] at ht
      obtain rfl := Host.Outcome.next.inj ht
      exact takeByte_inv h hengine hbe _
  all_goals
    obtain rfl := Host.Outcome.next.inj ht
    have hnot : s.seq.be ≠ .idle := by simp [hbe]
  case assert =>
    exact h.inEngine hengine (e := .xchg) rfl (by simp) rfl rfl
      (idxInBound_of_engine h.index hnot (e := .xchg) rfl rfl rfl)
  case xchg =>
    have hframe := h.frame.mpr (.inl hbe)
    obtain ⟨r, rest, heq⟩ : ∃ r rest, s.exchange s.phaseByte = s.exchanged s.phaseByte r rest := by
      unfold State.exchange
      split <;> exact ⟨_, _, rfl⟩
    rw [heq]
    exact h.inEngine hengine (e := .deassert) rfl (by simpa using hframe) rfl rfl
      (idxInBound_of_engine h.index hnot (e := .deassert) rfl rfl rfl)
  case deassert =>
    exact h.inEngine hengine (e := .check) rfl (by simp) rfl rfl
      (idxInBound_of_engine h.index hnot (e := .check) rfl rfl rfl)
  case pace =>
    have hframe := h.frame_false (by simp [hbe]) (by simp [hbe])
    exact h.inEngine hengine (e := .assert) rfl (by simpa using hframe) rfl rfl
      (idxInBound_of_engine h.index hnot (e := .assert) rfl rfl rfl)

/-- A header taken in one of the two phases that decode one (R161, R206). -/
theorem takeHeader_inv {s : State} (h : s.Inv) (hp : s.seq.phase = .decode ∨ s.seq.phase = .codec)
    (t lo hi len : Byte) : (s.takeHeader t lo hi len).Inv := by
  have hbe : s.seq.be = .idle := h.engine_idle (by obtain hp | hp := hp <;> rw [hp] <;> rfl)
  have hframe := h.frame_false_of_idle hbe
  have hreceived := (State.Underway.refl s).putReceived { type := t, cid := hi ++ lo, len := len }
  obtain ⟨hd, heq⟩ | ⟨hc, heq⟩ | ⟨hd, hc, -⟩ := takeHeader_cases s t lo hi len
  · rw [heq]
    exact h.nextPhase (by simp [hd]) (by rw [hd]; rfl) hframe ((hreceived.setIdx 0#8).setPhase .rxPay)
      (h.active_true (by simp [hd])) ⟨by simp, by simp⟩ rfl hbe
      (Iff.mpr (idxInBound_rxPay rfl) ⟨zero_le_byte _, fun hb => absurd hbe hb⟩)
  · rw [heq]
    exact (h.ended (by simp [hc]) hframe hreceived).1
  · exact (hp.elim hd hc).elim

theorem blockTurn_inv {s t : State} (h : s.Inv) (ht : s.blockTurn.outcome = .next t) : t.Inv := by
  by_cases hengine : s.seq.phase.usesEngine = true
  · rw [blockTurn_engine hengine] at ht
    exact engineTurn_inv h hengine ht
  · have hbe : s.seq.be = .idle := h.engine_idle (Bool.eq_false_iff.mpr hengine)
    have hframe := h.frame_false_of_idle hbe
    have hself := State.Underway.refl s
    unfold State.blockTurn at ht
    cases hp : s.seq.phase <;> simp only [hp, Turn.outcome_move] at ht
    case idle | resetReq => exact Host.Outcome.next.inj ht ▸ h
    case codec =>
      split_ifs at ht with hop
      · rw [Turn.outcome_run, exec_decode_hdr] at ht
        exact Host.Outcome.next.inj ht ▸ takeHeader_inv h (.inr hp) ..
      · exact Host.Outcome.next.inj ht ▸ (h.ended (by simp [hp]) hframe hself.encodeToTxh).1
    case keyChk =>
      obtain rfl := Host.Outcome.next.inj ht
      unfold State.checkKeyword
      split_ifs
      · exact sysResetRequested_inv h hframe (by simp [hp]) ((opFitsPhase_dispatch (by rw [hp]; rfl)).mp h.operation)
      · exact h.nextPhase (by simp [hp]) (by rw [hp]; rfl) hframe (hself.setPhase .build) (h.active_true (by simp [hp]))
          ⟨by simp, by simp⟩ rfl hbe trivial
    case build =>
      obtain rfl := Host.Outcome.next.inj ht
      have hbuilt : s.Underway s.buildPhase := ((hself.buildRequest s.arg).setIdx 0#8).setPhase .txHdr
      have hseq : (s.buildRequest s.arg).seq = s.seq := by rw [buildRequest_frame]
      have hctl : (s.buildRequest s.arg).ctl = s.ctl := by rw [buildRequest_frame]
      have hactive : s.buildPhase.active = true :=
        (congrArg (fun c : Control => flagSet c.status bitActive) hctl).trans (h.active_true (by simp [hp]))
      have hbe' : s.buildPhase.seq.be = .idle := (congrArg Sequencer.be hseq).trans hbe
      exact h.nextPhase (by simp [hp]) (by rw [hp]; rfl) hframe hbuilt hactive
          ⟨by simp [State.buildPhase], by simp [State.buildPhase]⟩ rfl hbe'
          (Iff.mpr (idxInBound_txHdr rfl) (show 0#8 < 4#8 by decide))
    case pollWait =>
      obtain rfl := Host.Outcome.next.inj ht
      exact h.nextPhase (by simp [hp]) (by rw [hp]; rfl) hframe ((hself.emit .delayPoll).setPhase .pollRx)
        (h.active_true (by simp [hp])) ⟨by simp [State.pollWaitPhase], by simp [State.pollWaitPhase]⟩ rfl hbe trivial
    case decode =>
      rw [Turn.outcome_run, exec_decode_hdr] at ht
      exact Host.Outcome.next.inj ht ▸ takeHeader_inv h (.inl hp) ..
    case term =>
      exact Host.Outcome.next.inj ht ▸
        reportReply_completed_inv (h.ended (by simp [hp]) hframe hself.countStored.terminate).1
    all_goals simp [hp, Phase.usesEngine] at hengine

/-! Every step -/

/-- The invariant does not speak of the pending inputs. -/
theorem withInbox_inv {s : State} (h : s.Inv) (later : List Input) : (s.withInbox later).Inv :=
  h.of_same h.memory rfl rfl rfl rfl

theorem inputTurn_inv {s t : State} (h : s.Inv) {i : Input} {later : List Input} (hi : i ≠ .reset)
    (ht : (s.inputTurn i later).outcome = .next t) : t.Inv := by
  have h' := withInbox_inv h later
  cases i with
  | wait => exact blockTurn_inv h' ht
  | reset => exact absurd rfl hi
  | hostWrite n v =>
    simp only [State.inputTurn] at ht
    split_ifs at ht
    · exact exec_decode_opw_keeps (P := State.Inv) h' (illegalOp_inv h') (fun _ _ hf hidle => accept_inv h' hidle hf)
        (fun _ _ _ hf hidle ht => accept_endsAs_inv h' hidle hf ht) v ht
    · obtain rfl := Host.Outcome.next.inj ht
      rw [hostWrite_frame]
      exact h'.of_same h'.memory rfl rfl rfl rfl
  | hostRead n =>
    obtain rfl := Host.Outcome.next.inj ht
    rw [hostRead_frame]
    exact h'.of_same h'.memory rfl rfl rfl rfl
  | bufWrite b k v =>
    obtain rfl := Host.Outcome.next.inj ht
    rw [hostBufWrite_frame]
    refine h'.of_same ?_ rfl rfl rfl rfl
    show (State.hostBufWrite _ b k v).mem.wf = true
    unfold State.hostBufWrite
    split_ifs
    · exact h.memory
    · exact Memory.wf_write h.memory ..
    · exact h.memory
  | bufRead b k =>
    obtain rfl := Host.Outcome.next.inj ht
    rw [hostBufRead_frame]
    exact h'.of_same h'.memory rfl rfl rfl rfl
  | console c =>
    simp only [State.inputTurn] at ht
    split_ifs at ht
    · exact blockTurn_inv h ht
    · obtain hexec | hexec | hexec := exec_decode_con c (s.withInbox later) <;>
        obtain rfl := Host.Outcome.next.inj (hexec.symm.trans ht)
      · exact feedLineEnd_inv h'
      · exact feedBackspace_inv h'
      · exact feedOther_inv h' c

/-- Settles O56: the reset input establishes the invariant, the return of a dispatch touches the front end alone, and
an input and the block's own action each keep it. -/
theorem invariantKeptByEveryStep : Obligations.InvariantKeptByEveryStep := by
  intro s t h ht
  by_cases hreset : ∃ later, s.env.inbox = .reset :: later
  · obtain ⟨later, hinbox⟩ := hreset
    exact Host.Outcome.next.inj ((step_reset hinbox).symm.trans ht) ▸ applyReset_inv _
  · obtain ⟨-, hstep⟩ | ⟨-, i, later, -, hi, hstep⟩ | ⟨-, -, hstep⟩ :=
      step_outcome_cases (not_exists.mp hreset)
    · exact Host.Outcome.next.inj (hstep.symm.trans ht) ▸ h.of_same h.memory rfl rfl rfl rfl
    · exact inputTurn_inv h hi (hstep.symm.trans ht)
    · exact blockTurn_inv h (hstep.symm.trans ht)

end Sys2Proof.Machine
end

section
/-! What holds of every step without the invariant (00_scope.md R10; 10_state.md R28, R43, R46; 20_memory.md R74): a step
always has a next state, it continues the link trace under the same parameters, and the block's own action writes
neither `TXP` nor `CMDBUF`. -/

namespace Sys2Proof.Machine

/-! ### What the block's own action keeps -/

/-- What an action of the block leaves unchanged in every phase. -/
structure State.BlockKept (s t : State) : Prop where
  txp : t.mem.txp = s.mem.txp
  cmdbuf : t.mem.cmdbuf = s.mem.cmdbuf
  trace : s.trace <+: t.trace
  params : t.env.params = s.env.params

/-- A state of the run, and whatever it differs in beside the memory, the trace and the parameters. -/
theorem State.Underway.blockKept {s u t : State} (h : s.Underway u) (hmem : t.mem = u.mem)
    (htrace : u.trace <+: t.trace) (hparams : t.env.params = u.env.params) : s.BlockKept t where
  txp := by rw [hmem]; exact h.txp
  cmdbuf := by rw [hmem]; exact h.cmdbuf
  trace := h.trace.trans htrace
  params := hparams.trans h.params

theorem State.Underway.kept {s u : State} (h : s.Underway u) : s.BlockKept u :=
  h.blockKept rfl List.prefix_rfl rfl

/-- A state that differs in registers and in the sequencer alone. -/
theorem State.BlockKept.of_registers {s t : State} (hmem : t.mem = s.mem) (htrace : t.trace = s.trace)
    (henv : t.env = s.env) : s.BlockKept t :=
  (State.Underway.refl s).blockKept hmem (by rw [htrace]) (by rw [henv])

theorem State.BlockKept.completed {s t : State} (h : s.BlockKept t) : s.BlockKept t.completed := { h with }

theorem State.BlockKept.timedOut {s t : State} (h : s.BlockKept t) : s.BlockKept t.timedOut := { h with }

theorem State.BlockKept.setPhase {s t : State} (h : s.BlockKept t) (p : Phase) : s.BlockKept (t.setPhase p) :=
  { h with }

theorem State.BlockKept.reportReply {s t : State} (h : s.BlockKept t) : s.BlockKept t.reportReply := { h with }

theorem enterPhase_kept (s : State) : s.BlockKept s.enterPhase := by
  unfold State.enterPhase
  split
  case h_6 => exact .of_registers rfl rfl rfl
  all_goals split_ifs <;> exact .of_registers rfl rfl rfl

theorem takeBusy_kept (s : State) : s.BlockKept s.takeBusy := by
  unfold State.takeBusy
  split_ifs <;> exact .of_registers rfl rfl rfl

theorem takeByte_kept (s : State) (r : Byte) : s.BlockKept (s.takeByte r) := by
  have hrest := (State.Underway.refl s).setEngine .idle
  have hpoll := hrest.setPolls (s.polls + 1)
  cases hp : s.seq.phase with
  | send =>
    rw [takeByte_send hp, State.sentOne]
    split_ifs <;> exact .of_registers rfl rfl rfl
  | recv =>
    rw [takeByte_recv hp, State.receivedOne]
    simp only
    have hstored := (hrest.writeByte (b := .rxp) (by decide) (by decide) s.seq.idx.toNat r).stepIdx
    split_ifs
    · exact .of_registers rfl rfl rfl
    · exact .of_registers rfl rfl rfl
    · exact hstored.countStored.kept.completed
    · exact hstored.kept
  | txHdr =>
    rw [takeByte_txHdr hp, State.headerSentOne]
    split_ifs <;> exact .of_registers rfl rfl rfl
  | txPay =>
    rw [takeByte_txPay hp]
    exact .of_registers rfl rfl rfl
  | pollRx =>
    rw [takeByte_pollRx hp, State.polledOne]
    split_ifs
    · exact ((hpoll.writeByte (b := .rxh) (by decide) (by decide) 0 _).setIdx 0#8).kept.setPhase .rxHdr
    · exact .of_registers rfl rfl rfl
    · exact .of_registers rfl rfl rfl
  | rxHdr =>
    rw [takeByte_rxHdr hp, State.tailOne]
    split_ifs
    · exact .of_registers rfl rfl rfl
    · exact (hrest.writeByte (b := .rxh) (by decide) (by decide) _ r).stepIdx.kept
  | rxPay =>
    rw [takeByte_rxPay hp, State.payloadOne]
    split_ifs
    · exact .of_registers rfl rfl rfl
    · exact (hrest.writeByte (b := .rxp) (by decide) (by decide) _ r).stepIdx.kept
  | _ =>
    rw [takeByte_none (by rw [hp]; rfl)]
    exact .of_registers rfl rfl rfl

/-- An exchange is answered by the next fixed answer or by the oracle (R12). -/
theorem exchange_eq (s : State) (b : Byte) : ∃ r rest, s.exchange b = s.exchanged b r rest := by
  unfold State.exchange
  split <;> exact ⟨_, _, rfl⟩

theorem engineTurn_kept {s t : State} (ht : s.engineTurn.outcome = .next t) : s.BlockKept t := by
  unfold State.engineTurn at ht
  cases hbe : s.seq.be <;> simp only [hbe, Turn.outcome_move, Turn.outcome_run] at ht
  case check =>
    by_cases hr : s.link.rxb = Config.busy
    · rw [hr, exec_decode_wb_busy] at ht
      exact Host.Outcome.next.inj ht ▸ takeBusy_kept s
    · rw [exec_decode_wb hr] at ht
      exact Host.Outcome.next.inj ht ▸ takeByte_kept s _
  all_goals obtain rfl := Host.Outcome.next.inj ht
  case idle => exact enterPhase_kept s
  case xchg =>
    obtain ⟨r, rest, heq⟩ := exchange_eq s s.phaseByte
    rw [heq]
    exact (State.Underway.refl s).blockKept rfl (List.prefix_append ..) rfl
  all_goals exact (State.Underway.refl s).blockKept rfl (List.prefix_append ..) rfl

theorem takeHeader_kept (s : State) (t lo hi len : Byte) : s.BlockKept (s.takeHeader t lo hi len) := by
  unfold State.takeHeader
  split <;> exact .of_registers rfl rfl rfl

/-- The block's own action, in any phase. -/
theorem blockTurn_kept {s t : State} (ht : s.blockTurn.outcome = .next t) : s.BlockKept t := by
  have hself := State.Underway.refl s
  unfold State.blockTurn at ht
  cases hp : s.seq.phase <;> simp only [hp, Turn.outcome_move] at ht
  case codec =>
    split_ifs at ht
    · rw [Turn.outcome_run, exec_decode_hdr] at ht
      exact Host.Outcome.next.inj ht ▸ takeHeader_kept s ..
    · exact Host.Outcome.next.inj ht ▸ hself.encodeToTxh.kept.completed
  case decode =>
    rw [Turn.outcome_run, exec_decode_hdr] at ht
    exact Host.Outcome.next.inj ht ▸ takeHeader_kept s ..
  case send | recv | txHdr | txPay | pollRx | rxHdr | rxPay => exact engineTurn_kept ht
  all_goals obtain rfl := Host.Outcome.next.inj ht
  case idle | resetReq => exact hself.kept
  case keyChk =>
    unfold State.checkKeyword
    split_ifs
    · exact hself.blockKept rfl (List.prefix_append ..) rfl
    · exact .of_registers rfl rfl rfl
  case build => exact ((hself.buildRequest s.arg).setIdx 0#8).kept.setPhase .txHdr
  case pollWait => exact hself.blockKept rfl (List.prefix_append ..) rfl
  case term => exact hself.countStored.terminate.kept.reportReply.completed

/-! ### Every step -/

theorem exec_next (i : Instr) (s : State) : ∃ t, exec i s = .next t := by
  cases i <;> exact ⟨_, rfl⟩

theorem Turn.outcome_next (x : Turn) : ∃ t, x.outcome = .next t := by
  cases x with
  | run i s => exact exec_next i s
  | move s => exact ⟨s, rfl⟩

/-- No event of the link is taken back and no parameter changes. -/
structure State.Continues (s t : State) : Prop where
  trace : s.trace <+: t.trace
  params : t.env.params = s.env.params

theorem State.Continues.refl (s : State) : s.Continues s := ⟨List.prefix_rfl, rfl⟩

/-- A state that differs neither in the trace nor in the parameters. -/
theorem State.Continues.of_same {s t : State} (htrace : t.trace = s.trace) (hparams : t.env.params = s.env.params) :
    s.Continues t := ⟨by rw [htrace], hparams⟩

theorem State.BlockKept.continues {s t : State} (h : s.BlockKept t) : s.Continues t := ⟨h.trace, h.params⟩

theorem State.EndsAs.continues {s t : State} (h : s.EndsAs t) : s.Continues t := by
  obtain ⟨-, rfl⟩ | ⟨u, hu, rfl | rfl | rfl⟩ := h
  · exact ⟨List.prefix_append .., rfl⟩
  · exact hu.kept.completed.continues
  · exact hu.kept.timedOut.continues
  · exact hu.terminate.kept.reportReply.completed.continues

theorem feedLineEnd_continues (s : State) : s.Continues s.feedLineEnd := by
  obtain heq | ⟨-, f, heq⟩ := feedLineEnd_cases s
  · rw [heq]
    exact .refl s
  · have hcopied : s.Continues s.lineCopied := by
      rw [lineCopied_frame]
      exact .of_same rfl rfl
    have hdispatched : s.Continues s.lineDispatched := lineDispatched_keeps hcopied
      (fun _ _ _ => ⟨hcopied.trace, hcopied.params⟩)
      (fun _ _ _ _ ht => ⟨hcopied.trace.trans ht.continues.trace, ht.continues.params.trans hcopied.params⟩)
    rw [heq]
    exact ⟨hdispatched.trace, hdispatched.params⟩

theorem exec_decode_con_continues {c : Byte} {s t : State} (ht : exec (decode (.con c)) s = .next t) :
    s.Continues t := by
  obtain hexec | hexec | hexec := exec_decode_con c s <;> obtain rfl := Host.Outcome.next.inj (hexec.symm.trans ht)
  · exact feedLineEnd_continues s
  · unfold State.feedBackspace
    split_ifs <;> exact .of_same rfl rfl
  · unfold State.feedOther
    split_ifs <;> exact .of_same rfl rfl

theorem exec_decode_opw_continues {v : Half} {s t : State} (ht : exec (decode (.opw v)) s = .next t) :
    s.Continues t :=
  exec_decode_opw_keeps (P := s.Continues) (.refl s) (fun _ => .of_same rfl rfl) (fun _ _ _ _ => .of_same rfl rfl)
    (fun _ _ _ _ _ h => ⟨h.continues.trace, h.continues.params⟩) v ht

theorem inputTurn_continues {s t : State} {i : Input} {later : List Input}
    (ht : (s.inputTurn i later).outcome = .next t) : s.Continues t := by
  cases i with
  | wait => exact ⟨(blockTurn_kept ht).trace, (blockTurn_kept ht).params⟩
  | reset => exact Host.Outcome.next.inj ht ▸ .of_same rfl rfl
  | hostWrite n v =>
    simp only [State.inputTurn] at ht
    split_ifs at ht
    · exact ⟨(exec_decode_opw_continues ht).trace, (exec_decode_opw_continues ht).params⟩
    · obtain rfl := Host.Outcome.next.inj ht
      rw [hostWrite_frame]
      exact .of_same rfl rfl
  | hostRead n =>
    obtain rfl := Host.Outcome.next.inj ht
    rw [hostRead_frame]
    exact .of_same rfl rfl
  | bufWrite b k v =>
    obtain rfl := Host.Outcome.next.inj ht
    rw [hostBufWrite_frame]
    exact .of_same rfl rfl
  | bufRead b k =>
    obtain rfl := Host.Outcome.next.inj ht
    rw [hostBufRead_frame]
    exact .of_same rfl rfl
  | console c =>
    simp only [State.inputTurn] at ht
    split_ifs at ht
    · exact (blockTurn_kept ht).continues
    · exact ⟨(exec_decode_con_continues ht).trace, (exec_decode_con_continues ht).params⟩

/-- Settles O58: every turn has a next state, and whoever acts continues the trace under the same parameters. -/
theorem everyStepGoesOn : Obligations.EveryStepGoesOn := by
  intro s
  obtain ⟨t, ht⟩ := s.turn.outcome_next
  rw [← step_eq_outcome] at ht
  have hcontinues : s.Continues t := by
    by_cases hreset : ∃ later, s.env.inbox = .reset :: later
    · obtain ⟨later, hinbox⟩ := hreset
      exact Host.Outcome.next.inj ((step_reset hinbox).symm.trans ht) ▸ .of_same rfl rfl
    · obtain ⟨-, hstep⟩ | ⟨-, i, later, -, -, hstep⟩ | ⟨-, -, hstep⟩ := step_outcome_cases (not_exists.mp hreset)
      · exact Host.Outcome.next.inj (hstep.symm.trans ht) ▸ .of_same rfl rfl
      · exact inputTurn_continues (hstep.symm.trans ht)
      · exact (blockTurn_kept (hstep.symm.trans ht)).continues
  exact ⟨t, ht, hcontinues.trace, hcontinues.params⟩

/-- Settles O59: with nothing listed, a `wait` next, or a console byte that stays pending, the step is the return of a
dispatch or the block's own action. -/
theorem blockNeverWritesTransmitBuffer : Obligations.BlockNeverWritesTransmitBuffer := by
  intro s t hinbox ht
  have hreset : ∀ later, s.env.inbox ≠ .reset :: later := by
    rintro later hi
    obtain h | ⟨_, h⟩ | ⟨⟨_, _, h⟩, -⟩ := hinbox <;> simp [hi] at h
  obtain ⟨-, hstep⟩ | ⟨-, i, later, hi, -, hstep⟩ | ⟨-, -, hstep⟩ := step_outcome_cases hreset
  · exact Host.Outcome.next.inj (hstep.symm.trans ht) ▸ ⟨rfl, rfl⟩
  · rw [hstep] at ht
    have hkept : (s.withInbox later).BlockKept t ∨ s.BlockKept t := by
      obtain h | ⟨_, h⟩ | ⟨⟨c, _, h⟩, hbusy⟩ := hinbox
      · simp [hi] at h
      · obtain ⟨rfl, -⟩ := List.cons.inj (hi.symm.trans h)
        exact .inl (blockTurn_kept ht)
      · obtain ⟨rfl, -⟩ := List.cons.inj (hi.symm.trans h)
        simp only [State.inputTurn, hbusy, if_true] at ht
        exact .inr (blockTurn_kept ht)
    exact hkept.elim (fun h => ⟨h.txp, h.cmdbuf⟩) fun h => ⟨h.txp, h.cmdbuf⟩
  · have hkept := blockTurn_kept (hstep.symm.trans ht)
    exact ⟨hkept.txp, hkept.cmdbuf⟩

/-! ### The requested reset -/

/-- What the host can still do while the reset is requested: take inputs off the list and read. -/
def State.OutsideActed (s t : State) : Prop :=
  t = { s with env := { s.env with inbox := t.env.inbox, hostData := t.env.hostData, draws := t.env.draws } }

theorem blockTurn_resetReq {s : State} (h : s.seq.phase = .resetReq) : s.blockTurn = .move s := by
  simp only [State.blockTurn, h]

/-- Settles O30: the block does nothing in this phase, it is active and so refuses every write, a read changes what the
host has read, and a console byte stays pending. -/
theorem resetRequestLastsUntilReset : Obligations.ResetRequestLastsUntilReset := by
  intro s t h hp hreset ht
  have hactive : s.active = true := h.active_true (by simp [hp])
  show s.OutsideActed t
  obtain ⟨hdue, -⟩ | ⟨-, i, later, -, hi, hstep⟩ | ⟨-, -, hstep⟩ := step_outcome_cases hreset
  · simp [returnDue_of_phase_ne_idle (s := s) (by simp [hp])] at hdue
  · have hactive' : (s.withInbox later).active = true := hactive
    rw [hstep] at ht
    cases i with
    | wait =>
      have hturn := congrArg Turn.outcome (blockTurn_resetReq (s := s.withInbox later) hp)
      exact Host.Outcome.next.inj (hturn.symm.trans ht) ▸ rfl
    | reset => exact absurd rfl hi
    | hostWrite n v =>
      simp only [State.inputTurn] at ht
      split_ifs at ht
      · exact Host.Outcome.next.inj ((exec_decode_opw_active hactive' v).symm.trans ht) ▸ rfl
      · exact Host.Outcome.next.inj ((next_congr (hostWrite_active hactive' n v)).symm.trans ht) ▸ rfl
    | hostRead n =>
      obtain rfl := Host.Outcome.next.inj ht
      rw [hostRead_frame]
      rfl
    | bufWrite b k v =>
      exact Host.Outcome.next.inj ((next_congr (hostBufWrite_active hactive' b k v)).symm.trans ht) ▸ rfl
    | bufRead b k =>
      obtain rfl := Host.Outcome.next.inj ht
      rw [hostBufRead_frame]
      rfl
    | console c =>
      have hbusy : s.hostBusy = true := by simp [State.hostBusy, hactive]
      simp only [State.inputTurn, hbusy, if_true, blockTurn_resetReq hp] at ht
      exact Host.Outcome.next.inj ht ▸ rfl
  · rw [hstep, blockTurn_resetReq hp] at ht
    exact Host.Outcome.next.inj ht ▸ rfl

end Sys2Proof.Machine
end

section
/-! The shape of the link trace is kept by every step but the reset (41_transceiver.md R142): an operation's run and the
byte engine each extend the trace by whole moves of the scanner, and wherever the byte engine rests the scanner stands
where the phase may start its next byte. -/

namespace Sys2Proof.Machine

/-! ### Reading a trace to its end -/

theorem scanTrace_append (limited : Bool) (p : LinkPhase) (es fs : List LinkEvent) :
    scanTrace limited p (es ++ fs) = (scanTrace limited p es).bind fun q => scanTrace limited q fs := by
  induction es generalizing p with
  | nil => rfl
  | cons e es ih =>
    cases h : p.next limited e with
    | none => simp [scanTrace, h]
    | some q => simp [scanTrace, h, ih]

/-- The trace of the state has the shape of R142 and ends where `ok` holds; `limited` says that `RETRY_LIMIT` is
finite. -/
def State.LinkAt (limited : Bool) (ok : LinkPhase → Prop) (s : State) : Prop :=
  s.env.params.retryLimit.isSome = limited ∧ ∃ p, scanTrace limited .fresh s.trace = some p ∧ ok p

/-- Where a new byte may start (R142). -/
def LinkPhase.Startable (limited : Bool) (p : LinkPhase) : Prop :=
  p = .fresh ∨ p = .quiet ∨ (limited = true ∧ ∃ t, p = .closedBusy t)

/-- Where the last block's answer was not `BUSY`. -/
def LinkPhase.Quiet (p : LinkPhase) : Prop := p = .quiet

theorem LinkPhase.Quiet.startable {limited : Bool} {p : LinkPhase} (h : p.Quiet) : p.Startable limited := .inr (.inl h)

namespace State.LinkAt

variable {limited : Bool} {ok ok' : LinkPhase → Prop} {s t : State}

theorem mono (h : s.LinkAt limited ok) (himp : ∀ p, ok p → ok' p) : s.LinkAt limited ok' := by
  obtain ⟨hlimit, p, hscan, hp⟩ := h
  exact ⟨hlimit, p, hscan, himp p hp⟩

theorem of_same (h : s.LinkAt limited ok) (htrace : t.trace = s.trace) (hparams : t.env.params = s.env.params) :
    t.LinkAt limited ok := by
  rw [State.LinkAt, htrace, hparams]
  exact h

/-- Events more. -/
theorem extend (h : s.LinkAt limited ok) {es : List LinkEvent} (htrace : t.trace = s.trace ++ es)
    (hparams : t.env.params = s.env.params) (hscan : ∀ p, ok p → ∃ q, scanTrace limited p es = some q ∧ ok' q) :
    t.LinkAt limited ok' := by
  obtain ⟨hlimit, p, hs, hp⟩ := h
  obtain ⟨q, hq, hok⟩ := hscan p hp
  refine ⟨by rw [hparams]; exact hlimit, q, ?_, hok⟩
  rw [htrace, scanTrace_append, hs]
  exact hq

end State.LinkAt

/-! ### What the events of R142 do to the scanner -/

/-- A whole block, as a first attempt or as a retry of the same byte. -/
theorem scanTrace_block {limited : Bool} {p : LinkPhase} {b : Byte} (h : p.Startable limited ∨ p = .paced b) (r : Byte) :
    scanTrace limited p [.assert, .xchg b r, .deassert] =
      some (if r = Config.busy then .closedBusy b else .quiet) := by
  obtain (rfl | rfl | ⟨hlimit, t, rfl⟩) | rfl := h
  case inl.inr.inr => simp [scanTrace, LinkPhase.next, hlimit]
  all_goals simp [scanTrace, LinkPhase.next]

theorem scanTrace_sysReset {limited : Bool} {p : LinkPhase} (h : p.Startable limited) :
    scanTrace limited p [.sysReset] = some .fresh := by
  obtain rfl | rfl | ⟨hlimit, t, rfl⟩ := h
  case inr.inr => simp [scanTrace, LinkPhase.next, hlimit]
  all_goals rfl

/-! ### A run at the operation level -/

/-- A finite limit was reached, so there is one (R138). -/
theorem limited_of_limitReached {n : Nat} {limit : Option Nat} (h : limitReached n limit = true) :
    limit.isSome = true := by
  cases limit with
  | none => simp [limitReached] at h
  | some m => rfl

/-- A byte starts where it may and ends quiet, or with a `BUSY` at the retry limit (R131, R138). -/
theorem byteXfer_link {limited : Bool} {s : State} (hs : s.LinkAt limited (LinkPhase.Startable limited)) (b : Byte) :
    (byteXfer b s).Ends (fun _ => State.LinkAt limited LinkPhase.Quiet)
      (State.LinkAt limited (LinkPhase.Startable limited)) := by
  have hblock : ∀ (u : State) (r : Byte) (rest : List Byte),
      u.LinkAt limited (fun p => p.Startable limited ∨ p = .paced b) →
      (u.attempt b r rest).LinkAt limited (fun q => q = if r = Config.busy then .closedBusy b else .quiet) :=
    fun u r rest hu => hu.extend (es := [.assert, .xchg b r, .deassert]) (by rw [attempt_eq]) (by rw [attempt_eq])
      fun p hp => ⟨_, scanTrace_block hp r, rfl⟩
  refine xferLoop_ends (P := State.LinkAt limited fun p => p.Startable limited ∨ p = .paced b)
    (fun u r rest hu hp hr => ?done) (fun u rest hu hp hlimit => ?late) (fun u rest hu hp _ => ?retry) _ _ rfl
    ((hs.mono fun _ => Or.inl).of_same rfl rfl)
  case done => exact (hblock u r rest hu).mono fun q hq => hq.trans (if_neg hr)
  case late =>
    have hlimited : limited = true := hu.1.symm.trans (limited_of_limitReached hlimit)
    exact (hblock u _ rest hu).mono fun q hq => .inr (.inr ⟨hlimited, b, hq.trans (if_pos rfl)⟩)
  case retry =>
    refine (hblock u _ rest hu).extend (es := [.delayPace]) rfl rfl fun q hq => ⟨.paced b, ?_, .inr rfl⟩
    rw [hq, if_pos rfl]
    rfl

theorem sendLoop_link {limited : Bool} {ok : LinkPhase → Prop} (hok : ∀ p, ok p → p.Startable limited)
    (hquiet : ∀ p, p.Quiet → ok p) (b : Space) (k : Nat) {s : State} (hs : s.LinkAt limited ok) :
    (sendLoop b k s).Ends (fun _ => State.LinkAt limited ok) (State.LinkAt limited (LinkPhase.Startable limited)) :=
  sendLoop_ends (P := fun _ => State.LinkAt limited ok) (fun _ _ hu => (byteXfer_link (hu.mono hok) _).mono
    (fun _ _ h => (h.mono hquiet).of_same rfl rfl) fun _ h => h) k s hs

theorem recvLoop_link {limited : Bool} {ok : LinkPhase → Prop} (hok : ∀ p, ok p → p.Startable limited)
    (hquiet : ∀ p, p.Quiet → ok p) (b : Space) (base k : Nat) {s : State} (hs : s.LinkAt limited ok) :
    (recvLoop b base k s).Ends (fun _ => State.LinkAt limited ok)
      (State.LinkAt limited (LinkPhase.Startable limited)) :=
  recvLoop_ends (P := fun _ => State.LinkAt limited ok) (fun _ _ hu => (byteXfer_link (hu.mono hok) _).mono
    (fun _ _ h => ⟨fun _ => (h.mono hquiet).of_same rfl rfl, fun _ => (h.mono hquiet).of_same rfl rfl⟩) fun _ h => h)
    (fun _ h => h) k s hs

theorem recvPayload_link {limited : Bool} {ok : LinkPhase → Prop} (hok : ∀ p, ok p → p.Startable limited)
    (hquiet : ∀ p, p.Quiet → ok p) (max : Nat) {s : State} (hs : s.LinkAt limited ok) :
    (recvPayload max s).Ends (fun _ => State.LinkAt limited ok)
      (State.LinkAt limited (LinkPhase.Startable limited)) :=
  recvPayload_ends ((recvLoop_link hok hquiet .rxp 0 max (hs.of_same (t := s.setIdx 0#8) rfl rfl)).mono
    (fun _ _ h => h.of_same rfl rfl) fun _ h => h.of_same rfl rfl)

/-- A poll delay comes only after a quiet block (R142, R204). -/
theorem syncPoll_link {limited : Bool} {s : State} (hs : s.LinkAt limited LinkPhase.Quiet) :
    (syncPoll s).Ends (fun _ => State.LinkAt limited LinkPhase.Quiet)
      (State.LinkAt limited (LinkPhase.Startable limited)) := by
  have hbyte : ∀ u : State, u.LinkAt limited LinkPhase.Quiet →
      (receiveByte u.delayPoll).Ends (fun _ => State.LinkAt limited LinkPhase.Quiet)
        (State.LinkAt limited (LinkPhase.Startable limited)) := fun u hu =>
    byteXfer_link (s := u.delayPoll) (hu.extend (es := [.delayPoll]) rfl rfl fun p hp =>
      ⟨.fresh, by rw [show p = .quiet from hp]; rfl, .inl rfl⟩) _
  have hpoll : (pollLoop s.env.peer.length (s.setPolls 0)).Ends (fun _ => State.LinkAt limited LinkPhase.Quiet)
      (State.LinkAt limited (LinkPhase.Startable limited)) :=
    pollLoop_ends (P := State.LinkAt limited LinkPhase.Quiet) (fun u hu => (hbyte u hu).mono (fun _ _ h =>
      ⟨fun _ => h.of_same rfl rfl, fun _ _ => (h.mono fun _ hp => hp.startable).of_same rfl rfl,
        fun _ _ => h.of_same rfl rfl⟩) fun _ h => h) _ _ (hs.of_same rfl rfl)
  exact syncPoll_ends (hpoll.mono (fun _ _ h => h.of_same rfl rfl) fun _ h => h)

/-- The whole transaction: its first byte may follow anything a byte may follow, all later ones follow a quiet block. -/
theorem transaction_link {limited : Bool} {s : State} (l : Byte)
    (hs : s.LinkAt limited (LinkPhase.Startable limited)) :
    (transaction l s).Ends (fun _ => State.LinkAt limited LinkPhase.Quiet)
      (State.LinkAt limited (LinkPhase.Startable limited)) := by
  have hq : ∀ p : LinkPhase, p.Quiet → p.Startable limited := fun _ h => h.startable
  have hheader : (sendBytes .txh 4 s).Ends (fun _ => State.LinkAt limited LinkPhase.Quiet)
      (State.LinkAt limited (LinkPhase.Startable limited)) :=
    (byteXfer_link (hs.of_same (t := s.setIdx 0#8) rfl rfl) _).andThen fun _ u hu =>
      sendLoop_link hq (fun _ h => h) .txh 3 (hu.of_same (t := u.stepIdx) rfl rfl)
  refine hheader.andThen fun _ u hu =>
    (sendLoop_link hq (fun _ h => h) .txp l.toNat (hu.of_same (t := u.setIdx 0#8) rfl rfl)).andThen fun _ u hu =>
    (syncPoll_link hu).andThen fun _ u hu =>
    (recvLoop_link hq (fun _ h => h) .rxh 1 3 (hu.of_same (t := u.setIdx 0#8) rfl rfl)).andThen fun _ u hu => ?payload
  case payload =>
    have hdecoded : (u.markShortHeader.putReceived (decodeHeader u.markShortHeader.rxhBytes)).LinkAt limited
        LinkPhase.Quiet := hu.of_same (by rw [markShortHeader_frame]; rfl) (by rw [markShortHeader_frame]; rfl)
    exact (recvPayload_link hq (fun _ h => h) _ hdecoded).andThen fun _ v hv =>
      hv.of_same (by rw [reportReply_terminate]) (by rw [reportReply_terminate])

/-! ### Where the byte engine rests -/

/-- Where the scanner stands while the byte engine rests in a phase. -/
def Phase.RestsAt (limited : Bool) (p : Phase) (q : LinkPhase) : Prop :=
  match p with
  | .txPay | .pollWait | .rxHdr | .decode | .rxPay => q = .quiet
  | .pollRx => q = .fresh
  | _ => q.Startable limited

theorem Phase.RestsAt.startable {limited : Bool} {p : Phase} {q : LinkPhase} (h : p.RestsAt limited q) :
    q.Startable limited := by
  cases p
  case pollRx => exact .inl h
  case txPay | pollWait | rxHdr | decode | rxPay => exact .inr (.inl h)
  all_goals exact h

/-- Any phase but the sync poll's may rest at a quiet block. -/
theorem Phase.restsAt_quiet {p : Phase} (hp : p ≠ .pollRx) (limited : Bool) : p.RestsAt limited .quiet := by
  cases p
  case pollRx => exact absurd rfl hp
  case txPay | pollWait | rxHdr | decode | rxPay => rfl
  all_goals exact .inr (.inl rfl)

theorem linkPhaseFits_resting {s : State} (hbe : s.seq.be = .idle) (p : LinkPhase) :
    s.linkPhaseFits p ↔ s.seq.phase.RestsAt s.env.params.retryLimit.isSome p := by
  simp only [State.linkPhaseFits, hbe]
  cases s.seq.phase <;> simp [Phase.RestsAt, LinkPhase.Startable]

theorem traceShaped_resting {s : State} (hbe : s.seq.be = .idle) :
    s.traceShaped ↔ s.LinkAt s.env.params.retryLimit.isSome (s.seq.phase.RestsAt s.env.params.retryLimit.isSome) := by
  simp only [State.traceShaped, State.LinkAt, linkPhaseFits_resting hbe, true_and]

/-- To rest in a phase, from any account of the trace. -/
theorem State.LinkAt.shaped {limited : Bool} {ok : LinkPhase → Prop} {t : State} (h : t.LinkAt limited ok)
    (hbe : t.seq.be = .idle) (himp : ∀ q, ok q → t.seq.phase.RestsAt limited q) : t.traceShaped := by
  rw [traceShaped_resting hbe, h.1]
  exact h.mono himp

/-- The account of the trace that a shaped state gives while the byte engine rests. -/
theorem State.traceShaped.rests {s : State} (h : s.traceShaped) (hbe : s.seq.be = .idle) :
    s.LinkAt s.env.params.retryLimit.isSome (s.seq.phase.RestsAt s.env.params.retryLimit.isSome) :=
  (traceShaped_resting hbe).mp h

/-! ### Operation words -/

/-- A state in which the link is free for a new operation: the engine at rest, and any byte may start. -/
structure State.LinkFree (limited : Bool) (s : State) : Prop where
  engine : s.seq.be = .idle
  phase : s.seq.phase = .idle ∨ s.seq.phase = .resetReq
  link : s.LinkAt limited (LinkPhase.Startable limited)

theorem State.LinkFree.shaped {limited : Bool} {s : State} (h : s.LinkFree limited) : s.traceShaped := by
  refine h.link.shaped h.engine fun q hq => ?_
  obtain hp | hp := h.phase <;> rw [hp] <;> exact hq

theorem completed_linkFree {limited : Bool} {u : State} (h : u.LinkAt limited (LinkPhase.Startable limited)) :
    u.completed.LinkFree limited := ⟨rfl, .inl rfl, h.of_same rfl rfl⟩

theorem timedOut_linkFree {limited : Bool} {u : State} (h : u.LinkAt limited (LinkPhase.Startable limited)) :
    u.timedOut.LinkFree limited := ⟨rfl, .inl rfl, h.of_same rfl rfl⟩

theorem sysResetRequested_linkFree {limited : Bool} {u : State} (h : u.LinkAt limited (LinkPhase.Startable limited)) :
    u.sysResetRequested.LinkFree limited :=
  ⟨rfl, .inr rfl, h.extend (es := [.sysReset]) rfl rfl fun _ hp => ⟨_, scanTrace_sysReset hp, .inl rfl⟩⟩

theorem Run.Ends.linkFree {limited : Bool} {run : Run Unit}
    (h : run.Ends (fun _ => State.LinkAt limited (LinkPhase.Startable limited))
      (State.LinkAt limited (LinkPhase.Startable limited))) {t : State} (ht : run.outcome = some t) :
    t.LinkFree limited :=
  (h.mono (fun _ _ => completed_linkFree) fun _ => timedOut_linkFree).outcome ht

theorem dispatchBody_linkFree {limited : Bool} {s t : State} {l : Byte}
    (hs : s.LinkAt limited (LinkPhase.Startable limited)) (h : dispatchBody l s = some t) : t.LinkFree limited := by
  obtain ⟨-, hbody⟩ | ⟨-, hbody⟩ := dispatchBody_cases l s
  · exact Option.some.inj (hbody.symm.trans h) ▸ sysResetRequested_linkFree hs
  · have hbuilt : (s.buildRequest l).LinkAt limited (LinkPhase.Startable limited) :=
      hs.of_same (by rw [buildRequest_frame]) (by rw [buildRequest_frame])
    exact ((transaction_link l hbuilt).mono (fun _ _ h => h.mono fun _ hp => hp.startable) fun _ h => h).linkFree
      (hbody.symm.trans h)

/-- The body of each operation leaves the link free. -/
theorem exec_isOperation_link {i : Instr} (hi : isOperation i = true) {limited : Bool} :
    ∃ w p body, (∀ s, exec i s = .next (s.operate w p body)) ∧
      (∀ q : LinkPhase, q.Startable limited → p.RestsAt limited q) ∧
      ∀ s t : State, s.LinkAt limited (LinkPhase.Startable limited) → body s = some t → t.LinkFree limited := by
  have hq : ∀ p : LinkPhase, p.Quiet → p.Startable limited := fun _ h => h.startable
  have hone : ∀ (b : Byte) (s : State), s.LinkAt limited (LinkPhase.Startable limited) →
      ((byteXfer b s).andThen fun _ s' => Run.done () s').Ends
        (fun _ => State.LinkAt limited (LinkPhase.Startable limited))
        (State.LinkAt limited (LinkPhase.Startable limited)) := fun b s hs =>
    (byteXfer_link hs b).andThen fun _ _ h => h.mono hq
  cases i with
  | sendByte a => exact ⟨_, _, _, fun _ => rfl, fun _ h => h, fun s t hs ht => (hone a s hs).linkFree ht⟩
  | sendBytes a =>
    exact ⟨_, _, _, fun _ => rfl, fun _ h => h, fun s t hs ht =>
      (sendLoop_link (fun _ h => h) hq .txp a.toNat (hs.of_same (t := s.setIdx 0#8) rfl rfl)).linkFree ht⟩
  | recvByte => exact ⟨_, _, _, fun _ => rfl, fun _ h => h, fun s t hs ht => (hone _ s hs).linkFree ht⟩
  | recvBytes a =>
    exact ⟨_, _, _, fun _ => rfl, fun _ h => h, fun s t hs ht =>
      (recvPayload_link (fun _ h => h) hq a.toNat hs).linkFree ht⟩
  | encHdr =>
    refine ⟨_, _, _, fun _ => rfl, fun _ h => h, fun s t hs ht => Option.some.inj ht ▸ completed_linkFree ?_⟩
    exact hs.of_same (by rw [encodeToTxh_frame]) (by rw [encodeToTxh_frame])
  | decHdr =>
    exact ⟨_, _, _, fun _ => rfl, fun _ h => h, fun s t hs ht =>
      Option.some.inj ht ▸ completed_linkFree (hs.of_same rfl rfl)⟩
  | dispatch l =>
    exact ⟨_, _, _, fun _ => rfl, fun _ h => h, fun s t hs ht => dispatchBody_linkFree hs ht⟩
  | _ => cases hi

/-! ### The byte engine -/

/-- Events more, from a shaped state. -/
theorem State.traceShaped.extend {s t : State} (h : s.traceShaped) {es : List LinkEvent}
    (htrace : t.trace = s.trace ++ es) (hparams : t.env.params = s.env.params)
    (hscan : ∀ p, s.linkPhaseFits p →
      ∃ q, scanTrace s.env.params.retryLimit.isSome p es = some q ∧ t.linkPhaseFits q) : t.traceShaped := by
  obtain ⟨p, hs, hp⟩ := h
  have hat : s.LinkAt s.env.params.retryLimit.isSome s.linkPhaseFits := ⟨rfl, p, hs, hp⟩
  rw [State.traceShaped, hparams]
  exact (hat.extend htrace hparams hscan).2

/-- A phase starts its byte where one may start. -/
theorem startByte_shaped {s : State}
    (h : s.LinkAt s.env.params.retryLimit.isSome (LinkPhase.Startable s.env.params.retryLimit.isSome)) :
    s.startByte.traceShaped := by
  obtain ⟨-, p, hs, hp⟩ := h
  exact ⟨p, hs, .inr hp⟩

/-- After a byte that was not `BUSY` any phase but the sync poll's may follow. -/
theorem State.LinkAt.shaped_of_quiet {limited : Bool} {s t : State} (h : s.LinkAt limited LinkPhase.Quiet)
    (htrace : t.trace = s.trace) (hparams : t.env.params = s.env.params) (hbe : t.seq.be = .idle)
    (hp : t.seq.phase ≠ .pollRx) : t.traceShaped :=
  (h.of_same htrace hparams).shaped hbe fun q hq => by
    rw [show q = .quiet from hq]
    exact Phase.restsAt_quiet hp limited

theorem enterPhase_shaped {s : State} (h : s.traceShaped) (hbe : s.seq.be = .idle) : s.enterPhase.traceShaped := by
  have hrests := h.rests hbe
  have hstart := startByte_shaped (hrests.mono fun _ hq => hq.startable)
  have hended := fun t (hsame : t.trace = s.trace ∧ t.env.params = s.env.params) =>
    (completed_linkFree ((hrests.mono fun _ hq => hq.startable).of_same (t := t) hsame.1 hsame.2)).shaped
  unfold State.enterPhase
  split
  case h_1 => split_ifs; exacts [hended s ⟨rfl, rfl⟩, hstart]
  case h_2 => split_ifs; exacts [hstart, hended s.countStored ⟨rfl, rfl⟩, hstart]
  case h_3 hp | h_4 hp | h_5 hp =>
    have hquiet : s.LinkAt s.env.params.retryLimit.isSome LinkPhase.Quiet :=
      hrests.mono fun q hq => by rwa [hp] at hq
    split_ifs
    · exact hquiet.shaped_of_quiet rfl rfl hbe (by simp)
    · exact hstart
  case h_6 => exact hstart

/-- The returned byte is checked where its block has just closed. -/
theorem check_linkAt {s : State} (h : s.traceShaped) (hbe : s.seq.be = .check) :
    s.LinkAt s.env.params.retryLimit.isSome
      fun p => p = if s.link.rxb = Config.busy then .closedBusy s.phaseByte else .quiet := by
  obtain ⟨p, hs, hp⟩ := h
  simp only [State.linkPhaseFits, hbe] at hp
  obtain ⟨htxb, rfl⟩ := hp
  exact ⟨rfl, _, hs, by rw [htxb]⟩

theorem takeBusy_shaped {s : State} (h : s.traceShaped) (hbe : s.seq.be = .check) (hr : s.link.rxb = Config.busy) :
    s.takeBusy.traceShaped := by
  have hat : s.LinkAt s.env.params.retryLimit.isSome fun p => p = .closedBusy s.phaseByte := by
    simpa only [hr, if_true] using check_linkAt h hbe
  unfold State.takeBusy
  split_ifs with hengine hlimit hstores
  case pos | neg =>
    have hfree := hat.mono fun p hp => show p.Startable _ from .inr (.inr ⟨limited_of_limitReached hlimit, _, hp⟩)
    exact (timedOut_linkFree (hfree.of_same rfl rfl)).shaped
  case neg =>
    obtain ⟨-, p, hs, hp⟩ := hat
    exact ⟨p, hs, hp⟩
  case neg => exact h

theorem takeByte_shaped {s : State} (h : s.traceShaped) (hbe : s.seq.be = .check) (hr : s.link.rxb ≠ Config.busy)
    (hengine : s.seq.phase.usesEngine = true) (r : Byte) : (s.takeByte r).traceShaped := by
  have hquiet : s.LinkAt s.env.params.retryLimit.isSome LinkPhase.Quiet :=
    (check_linkAt h hbe).mono fun p hp => by rwa [if_neg hr] at hp
  cases hp : s.seq.phase with
  | send =>
    rw [takeByte_send hp, State.sentOne]
    split_ifs
    · exact hquiet.shaped_of_quiet rfl rfl rfl (by simp)
    · exact hquiet.shaped_of_quiet rfl rfl rfl (by simp [hp])
  | recv =>
    rw [takeByte_recv hp, State.receivedOne]
    simp only
    split_ifs
    case neg => exact hquiet.shaped_of_quiet rfl rfl rfl (by simp [hp])
    all_goals exact hquiet.shaped_of_quiet rfl rfl rfl (by simp)
  | txHdr =>
    rw [takeByte_txHdr hp, State.headerSentOne]
    split_ifs
    · exact hquiet.shaped_of_quiet rfl rfl rfl (by simp)
    · exact hquiet.shaped_of_quiet rfl rfl rfl (by simp [hp])
  | txPay =>
    rw [takeByte_txPay hp]
    exact hquiet.shaped_of_quiet rfl rfl rfl (by simp [hp])
  | pollRx =>
    rw [takeByte_pollRx hp, State.polledOne]
    split_ifs <;> exact hquiet.shaped_of_quiet rfl rfl rfl (by simp)
  | rxHdr =>
    rw [takeByte_rxHdr hp, State.tailOne]
    split_ifs
    · exact hquiet.shaped_of_quiet rfl rfl rfl (by simp)
    · exact hquiet.shaped_of_quiet rfl rfl rfl (by simp [hp])
  | rxPay =>
    rw [takeByte_rxPay hp, State.payloadOne]
    split_ifs
    · exact hquiet.shaped_of_quiet rfl rfl rfl (by simp)
    · exact hquiet.shaped_of_quiet rfl rfl rfl (by simp [hp])
  | _ => simp [hp, Phase.usesEngine] at hengine

/-- One action of the byte engine moves the scanner by the event it makes (R141, R142). -/
theorem engineTurn_shaped {s t : State} (h : s.traceShaped) (hengine : s.seq.phase.usesEngine = true)
    (ht : s.engineTurn.outcome = .next t) : t.traceShaped := by
  unfold State.engineTurn at ht
  cases hbe : s.seq.be <;> simp only [hbe, Turn.outcome_move, Turn.outcome_run] at ht
  case check =>
    by_cases hr : s.link.rxb = Config.busy
    · rw [hr, exec_decode_wb_busy] at ht
      exact Host.Outcome.next.inj ht ▸ takeBusy_shaped h hbe hr
    · rw [exec_decode_wb hr] at ht
      exact Host.Outcome.next.inj ht ▸ takeByte_shaped h hbe hr hengine _
  all_goals obtain rfl := Host.Outcome.next.inj ht
  case idle => exact enterPhase_shaped h hbe
  case assert =>
    refine h.extend (es := [.assert]) rfl rfl fun p hp => ?_
    simp only [State.linkPhaseFits, hbe] at hp
    obtain rfl | rfl | rfl | ⟨hlimited, b, rfl⟩ := hp
    · exact ⟨_, rfl, .inr rfl⟩
    · exact ⟨_, rfl, .inl rfl⟩
    · exact ⟨_, rfl, .inl rfl⟩
    · exact ⟨.opened none, by simp [scanTrace, LinkPhase.next, hlimited], .inl rfl⟩
  case xchg =>
    obtain ⟨r, rest, heq⟩ := exchange_eq s s.phaseByte
    rw [heq]
    refine h.extend (es := [.xchg s.phaseByte r]) rfl rfl fun p hp => ?_
    simp only [State.linkPhaseFits, hbe] at hp
    refine ⟨.exchanged s.phaseByte r, ?_, rfl, rfl⟩
    obtain rfl | rfl := hp
    · rfl
    · simp [scanTrace, LinkPhase.next]
  case deassert =>
    refine h.extend (es := [.deassert]) rfl rfl fun p hp => ?_
    simp only [State.linkPhaseFits, hbe] at hp
    obtain ⟨rfl, htxb⟩ := hp
    exact ⟨_, rfl, htxb, rfl⟩
  case pace =>
    refine h.extend (es := [.delayPace]) rfl rfl fun p hp => ?_
    simp only [State.linkPhaseFits, hbe] at hp
    exact ⟨.paced s.phaseByte, by rw [hp]; rfl, .inl rfl⟩

/-! ### The block's own action -/

/-- A state that makes no event, from one that rests; both rest in phases that stand at the same places. -/
theorem State.traceShaped.rest {s t : State} (h : s.traceShaped) (hbe : s.seq.be = .idle) (htrace : t.trace = s.trace)
    (hparams : t.env.params = s.env.params) (hbe' : t.seq.be = .idle)
    (hphase : ∀ q, s.seq.phase.RestsAt s.env.params.retryLimit.isSome q →
      t.seq.phase.RestsAt s.env.params.retryLimit.isSome q) : t.traceShaped :=
  ((h.rests hbe).of_same htrace hparams).shaped hbe' hphase

theorem takeHeader_shaped {s : State} (h : s.traceShaped) (hbe : s.seq.be = .idle)
    (hp : s.seq.phase = .decode ∨ s.seq.phase = .codec) (t lo hi len : Byte) :
    (s.takeHeader t lo hi len).traceShaped := by
  obtain ⟨hd, heq⟩ | ⟨hc, heq⟩ | ⟨hd, hc, -⟩ := takeHeader_cases s t lo hi len
  · rw [heq]
    exact h.rest hbe rfl rfl hbe fun q hq => by rwa [hd] at hq
  · rw [heq]
    exact h.rest hbe rfl rfl rfl fun q hq => by rwa [hc] at hq
  · exact (hp.elim hd hc).elim

theorem blockTurn_shaped {s t : State} (hinv : s.Inv) (h : s.traceShaped) (ht : s.blockTurn.outcome = .next t) :
    t.traceShaped := by
  by_cases hengine : s.seq.phase.usesEngine = true
  · rw [blockTurn_engine hengine] at ht
    exact engineTurn_shaped h hengine ht
  · have hbe : s.seq.be = .idle := hinv.engine_idle (Bool.eq_false_iff.mpr hengine)
    have hrests := h.rests hbe
    unfold State.blockTurn at ht
    cases hp : s.seq.phase <;> simp only [hp, Turn.outcome_move] at ht
    case codec =>
      split_ifs at ht
      · rw [Turn.outcome_run, exec_decode_hdr] at ht
        exact Host.Outcome.next.inj ht ▸ takeHeader_shaped h hbe (.inr hp) ..
      · obtain rfl := Host.Outcome.next.inj ht
        have hencoded := (hrests.mono fun _ hq => hq.startable).of_same (t := s.encodeToTxh)
          (by rw [encodeToTxh_frame]) (by rw [encodeToTxh_frame])
        exact (completed_linkFree hencoded).shaped
    case decode =>
      rw [Turn.outcome_run, exec_decode_hdr] at ht
      exact Host.Outcome.next.inj ht ▸ takeHeader_shaped h hbe (.inl hp) ..
    case send | recv | txHdr | txPay | pollRx | rxHdr | rxPay => simp [hp, Phase.usesEngine] at hengine
    all_goals obtain rfl := Host.Outcome.next.inj ht
    case idle | resetReq => exact h
    case keyChk =>
      unfold State.checkKeyword
      split_ifs
      · exact (sysResetRequested_linkFree (hrests.mono fun _ hq => hq.startable)).shaped
      · exact h.rest hbe rfl rfl hbe fun q hq => by rwa [hp] at hq
    case build =>
      have hbuilt : (s.buildRequest s.arg).traceShaped := by
        rw [buildRequest_frame]
        exact h.rest hbe rfl rfl hbe fun _ hq => hq
      have hseq : (s.buildRequest s.arg).seq = s.seq := by rw [buildRequest_frame]
      exact hbuilt.rest (by rw [hseq, hbe]) rfl rfl (by simp [State.buildPhase, hseq, hbe]) fun q hq => by
        rwa [hseq, hp] at hq
    case pollWait =>
      have hpolled : s.pollWaitPhase.LinkAt s.env.params.retryLimit.isSome fun q => q = .fresh :=
        hrests.extend (es := [.delayPoll]) rfl rfl fun q hq => ⟨.fresh, by
          rw [hp] at hq
          rw [show q = .quiet from hq]
          rfl, rfl⟩
      exact hpolled.shaped hbe fun _ hq => hq
    case term =>
      have hended := completed_linkFree (u := s.countStored.terminate.reportReply)
        ((hrests.mono fun _ hq => hq.startable).of_same (by rw [reportReply_terminate]; rfl)
          (by rw [reportReply_terminate]; rfl))
      exact hended.shaped

/-! ### The host and the front end -/

/-- A word written to `CMD` while idle. -/
theorem operate_shaped {s : State} (hinv : s.Inv) (h : s.traceShaped) {w : Half} {p : Phase}
    {body : State → Option State}
    (hfirst : ∀ q : LinkPhase, q.Startable s.env.params.retryLimit.isSome →
      p.RestsAt s.env.params.retryLimit.isSome q)
    (hbody : ∀ u t : State, u.LinkAt s.env.params.retryLimit.isSome
        (LinkPhase.Startable s.env.params.retryLimit.isSome) → body u = some t →
      t.LinkFree s.env.params.retryLimit.isSome) : (s.operate w p body).traceShaped := by
  cases hactive : s.active with
  | true => rwa [operate_active hactive]
  | false =>
    have hbe := hinv.engine_idle (by rw [hinv.phase_idle hactive]; rfl)
    have hstart := (h.rests hbe).mono fun _ hq => hq.startable
    have haccepted : (s.accept w p).LinkAt s.env.params.retryLimit.isSome
        (LinkPhase.Startable s.env.params.retryLimit.isSome) := hstart.of_same rfl rfl
    exact operate_keeps h (haccepted.shaped rfl hfirst) fun t ht => (hbody _ t haccepted ht).shaped

theorem exec_decode_opw_shaped {s t : State} (hinv : s.Inv) (h : s.traceShaped) {v : Half}
    (ht : exec (decode (.opw v)) s = .next t) : t.traceShaped := by
  obtain hop | hill := decode_opw_cases v
  · obtain ⟨w, p, body, hexec, hfirst, hbody⟩ := exec_isOperation_link hop
    exact Host.Outcome.next.inj ((hexec s).symm.trans ht) ▸ operate_shaped hinv h hfirst hbody
  · rw [hill] at ht
    obtain rfl := Host.Outcome.next.inj ht
    split_ifs
    · exact h
    · exact h

theorem feedLineEnd_shaped {s : State} (hinv : s.Inv) (h : s.traceShaped) : s.feedLineEnd.traceShaped := by
  obtain heq | ⟨hbusy, f, heq⟩ := feedLineEnd_cases s
  · rwa [heq]
  · have hbe := hinv.engine_idle (by rw [hinv.phase_idle (active_of_hostBusy_false hbusy)]; rfl)
    have hcopied : s.lineCopied.traceShaped := by
      rw [lineCopied_frame]
      exact h.rest hbe rfl rfl hbe fun _ hq => hq
    have hinv' : s.lineCopied.Inv := by
      rw [lineCopied_frame]
      exact hinv.of_same (wf_writeRange (Memory.wf_write hinv.memory ..) ..) rfl rfl rfl rfl
    have hdispatched : s.lineDispatched.traceShaped :=
      operate_shaped hinv' hcopied (fun _ hq => hq) fun _ _ hu => dispatchBody_linkFree hu
    rw [heq]
    exact hdispatched

theorem exec_decode_con_shaped {s t : State} (hinv : s.Inv) (h : s.traceShaped) {c : Byte} (hbusy : s.hostBusy = false)
    (ht : exec (decode (.con c)) s = .next t) : t.traceShaped := by
  have hbe := hinv.engine_idle (by rw [hinv.phase_idle (active_of_hostBusy_false hbusy)]; rfl)
  obtain hexec | hexec | hexec := exec_decode_con c s <;> obtain rfl := Host.Outcome.next.inj (hexec.symm.trans ht)
  · exact feedLineEnd_shaped hinv h
  · unfold State.feedBackspace
    split_ifs <;> exact h
  · unfold State.feedOther
    split_ifs
    · exact h
    · exact h.rest hbe rfl rfl hbe fun _ hq => hq
    · exact h

theorem inputTurn_shaped {s t : State} (hinv : s.Inv) (h : s.traceShaped) {i : Input} {later : List Input}
    (hi : i ≠ .reset) (ht : (s.inputTurn i later).outcome = .next t) : t.traceShaped := by
  have hinv' := withInbox_inv hinv later
  have h' : (s.withInbox later).traceShaped := h
  cases i with
  | wait => exact blockTurn_shaped hinv' h' ht
  | reset => exact absurd rfl hi
  | hostWrite n v =>
    simp only [State.inputTurn] at ht
    split_ifs at ht
    · exact exec_decode_opw_shaped hinv' h' ht
    · obtain rfl := Host.Outcome.next.inj ht
      rw [hostWrite_frame]
      exact h'
  | hostRead n =>
    obtain rfl := Host.Outcome.next.inj ht
    rw [hostRead_frame]
    exact h'
  | bufWrite b k v =>
    obtain rfl := Host.Outcome.next.inj ht
    cases hactive : (s.withInbox later).active with
    | true => exact (congrArg State.traceShaped (hostBufWrite_active hactive b k v)).mpr h'
    | false =>
      have hbe := hinv.engine_idle (by rw [hinv.phase_idle hactive]; rfl)
      rw [hostBufWrite_frame]
      exact h'.rest hbe rfl rfl hbe fun _ hq => hq
  | bufRead b k =>
    obtain rfl := Host.Outcome.next.inj ht
    rw [hostBufRead_frame]
    exact h'
  | console c =>
    simp only [State.inputTurn] at ht
    split_ifs at ht with hbusy
    · exact blockTurn_shaped hinv h ht
    · exact exec_decode_con_shaped hinv' h' (Bool.eq_false_iff.mpr hbusy) ht

/-- Settles O57: the return of a dispatch makes no event, an operation word's run extends the trace by whole blocks
and leaves the link free, and the engine's own action moves the scanner by the event it makes. -/
theorem traceShapeKeptByEveryStep : Obligations.TraceShapeKeptByEveryStep := by
  intro s t hinv h hreset ht
  obtain ⟨-, hstep⟩ | ⟨-, i, later, -, hi, hstep⟩ | ⟨-, -, hstep⟩ := step_outcome_cases hreset
  · exact Host.Outcome.next.inj (hstep.symm.trans ht) ▸ h
  · exact inputTurn_shaped hinv h hi (hstep.symm.trans ht)
  · exact blockTurn_shaped hinv h (hstep.symm.trans ht)

end Sys2Proof.Machine
end

section
/-! Runs of the machine, action by action (00_scope.md R10, 41_transceiver.md R141): how runs compose, and one attempt
of the byte engine, from `B_ASSERT` to the byte's check. -/

namespace Sys2Proof.Machine

/-! ### Runs -/

theorem run_step {s t : State} (h : step s = .next t) (n : Nat) :
    Host.Core.run Sys2Proof.core (n + 1) s = Host.Core.run Sys2Proof.core n t := by
  have hcore : Sys2Proof.core.step s = .next t := h
  simp only [Host.Core.run, hcore]

theorem run_add {n : Nat} {s t : State} (h : Host.Core.run Sys2Proof.core n s = .next t) (m : Nat) :
    Host.Core.run Sys2Proof.core (n + m) s = Host.Core.run Sys2Proof.core m t := by
  induction n generalizing s with
  | zero =>
    obtain rfl := Host.Outcome.next.inj h
    rw [Nat.zero_add]
  | succ n ih =>
    obtain ⟨u, hu⟩ := s.turn.outcome_next
    rw [← step_eq_outcome] at hu
    rw [Nat.succ_add, run_step hu]
    exact ih ((run_step hu n).symm.trans h)

/-! ### The byte engine -/

/-- While nobody outside acts, a phase that runs the byte engine takes its action. -/
theorem step_engineTurn {s : State} (hinbox : s.env.inbox = []) (hengine : s.seq.phase.usesEngine = true) :
    step s = s.engineTurn.outcome := by
  rw [step_block hinbox (returnDue_of_engine hengine), blockTurn_engine hengine]

theorem exchange_of_peer {s : State} {r : Byte} {rest : List Byte} (h : s.env.peer = r :: rest) (b : Byte) :
    s.exchange b = s.exchanged b r rest := by
  simp only [State.exchange, h]

theorem setEngine_self {s : State} {e : ByteEngine} (h : s.seq.be = e) : s.setEngine e = s := by
  subst h
  rfl

theorem engineTurn_assert {s : State} (hbe : s.seq.be = .assert) :
    s.engineTurn = .move (s.frameAssert.setEngine .xchg) := by
  simp only [State.engineTurn, hbe]

theorem engineTurn_check {s : State} (hbe : s.seq.be = .check) :
    s.engineTurn = .run (decode (.wb s.link.rxb)) s := by
  simp only [State.engineTurn, hbe]

theorem engineTurn_pace {s : State} (hbe : s.seq.be = .pace) :
    s.engineTurn = .move (s.delayPace.setEngine .assert) := by
  simp only [State.engineTurn, hbe]

/-- One attempt: asserted, exchanged, deasserted and counted, the byte engine at the check (R131, R141). -/
theorem run_attempt {s : State} (hinbox : s.env.inbox = []) (hengine : s.seq.phase.usesEngine = true)
    (hbe : s.seq.be = .assert) {r : Byte} {rest : List Byte} (hpeer : s.env.peer = r :: rest) :
    Host.Core.run Sys2Proof.core 3 s = .next ((s.attempt s.phaseByte r rest).setEngine .check) := by
  have hassert := (step_engineTurn hinbox hengine).trans (congrArg Turn.outcome (engineTurn_assert hbe))
  have hxchg : step (s.frameAssert.setEngine .xchg) =
      .next (((s.frameAssert.setEngine .xchg).exchange s.phaseByte).setEngine .deassert) :=
    step_engineTurn (s := s.frameAssert.setEngine .xchg) hinbox hengine
  rw [exchange_of_peer (s := s.frameAssert.setEngine .xchg) hpeer] at hxchg
  rw [run_step hassert, run_step hxchg]
  exact run_step (step_engineTurn (s := ((s.frameAssert.setEngine .xchg).exchanged s.phaseByte r rest).setEngine
    .deassert) hinbox hengine) 0

/-- The check of a `BUSY` answer. -/
theorem step_check_busy {s : State} (hinbox : s.env.inbox = []) (hengine : s.seq.phase.usesEngine = true)
    (hbe : s.seq.be = .check) (hr : s.link.rxb = Config.busy) : step s = .next s.takeBusy := by
  rw [step_engineTurn hinbox hengine, engineTurn_check hbe, hr]
  exact exec_decode_wb_busy s

/-- The check of any other answer. -/
theorem step_check_byte {s : State} (hinbox : s.env.inbox = []) (hengine : s.seq.phase.usesEngine = true)
    (hbe : s.seq.be = .check) (hr : s.link.rxb ≠ Config.busy) : step s = .next (s.takeByte s.link.rxb) := by
  rw [step_engineTurn hinbox hengine, engineTurn_check hbe]
  exact exec_decode_wb hr s

/-- An attempt answered `BUSY` below the limit, and the pacing delay after it: the byte starts again. -/
theorem run_busyAttempt {s : State} (hinbox : s.env.inbox = []) (hengine : s.seq.phase.usesEngine = true)
    (hbe : s.seq.be = .assert) {rest : List Byte} (hpeer : s.env.peer = Config.busy :: rest)
    (hlimit : limitReached (s.att + 1) s.env.params.retryLimit = false) :
    Host.Core.run Sys2Proof.core 5 s = .next (s.attempt s.phaseByte Config.busy rest).delayPace := by
  have hcheck := step_check_busy (s := (s.attempt s.phaseByte Config.busy rest).setEngine .check) hinbox hengine rfl rfl
  obtain ⟨-, htake⟩ | ⟨hreached, -⟩ :=
    takeBusy_cases (s := (s.attempt s.phaseByte Config.busy rest).setEngine .check) hengine
  · rw [htake] at hcheck
    have hpace : step ((s.attempt s.phaseByte Config.busy rest).setEngine .pace) =
        .next ((s.attempt s.phaseByte Config.busy rest).delayPace.setEngine .assert) :=
      (step_engineTurn (s := (s.attempt s.phaseByte Config.busy rest).setEngine .pace) hinbox hengine).trans
        (congrArg Turn.outcome (engineTurn_pace rfl))
    rw [setEngine_self (s := (s.attempt s.phaseByte Config.busy rest).delayPace) hbe] at hpace
    rw [run_add (run_attempt hinbox hengine hbe hpeer) 2, run_step hcheck]
    exact run_step hpace 0
  · exact absurd (hreached.symm.trans hlimit) (by simp)

/-- Settles O19: by induction on the number of `BUSY` answers, each of which takes the five actions of one attempt. -/
theorem busyPeerBlocksForEver : Obligations.BusyPeerBlocksForEver := by
  intro k rest s hlimit hinbox hengine hbe hpeer
  induction k generalizing s with
  | zero =>
    have hround := run_busyAttempt hinbox hengine hbe (rest := rest) hpeer (by rw [hlimit]; rfl)
    rw [hround, attempt_eq]
    simp [State.delayPace, State.emit, Config.busy]
  | succ k ih =>
    have hmore : s.env.peer = Config.busy :: (List.replicate (k + 1) Config.busy ++ rest) := hpeer
    have hround := run_busyAttempt hinbox hengine hbe hmore (by rw [hlimit]; rfl)
    have hrest := ih (s.attempt s.phaseByte Config.busy (List.replicate (k + 1) Config.busy ++ rest)).delayPace
      hlimit hinbox hengine hbe rfl
    rw [show 5 * (k + 1 + 1) = 5 + 5 * (k + 1) by omega, run_add hround, hrest]
    have hbyte : (s.attempt s.phaseByte Config.busy (List.replicate (k + 1) Config.busy ++ rest)).delayPace.phaseByte =
      s.phaseByte := rfl
    rw [hbyte, attempt_eq]
    simp [State.delayPace, State.emit, Config.busy, List.replicate_succ (n := k + 1), Nat.add_assoc, Nat.add_comm 1]

end Sys2Proof.Machine
end

section
/-! The console front end (43_console_frontend.md R180 to R189): the bytes a line gathers, and what a line end copies
before the operation word is written. -/

namespace Sys2Proof.Machine

/-! ### Byte strings -/

theorem readRange_succ (s : State) (b : Space) (a n : Nat) :
    s.readRange b a (n + 1) = s.readRange b a n ++ [s.readByte b (a + n)] := by
  induction n generalizing a with
  | zero => rfl
  | succ n ih =>
    have hindex : a + 1 + n = a + (n + 1) := by omega
    rw [State.readRange, ih (a + 1), hindex]
    rfl

/-- A byte string reads as in any state whose bytes agree with it there. -/
theorem readRange_agree {s t : State} {b : Space} {a n : Nat}
    (h : ∀ i, i < n → s.readByte b (a + i) = t.readByte b (a + i)) : s.readRange b a n = t.readRange b a n := by
  refine List.ext_getElem (by simp) fun i hi _ => ?_
  rw [readRange_getElem, readRange_getElem]
  exact h i (by simpa using hi)

/-! ### Backspace and empty lines -/

/-- Settles O43: the two branches of `FEED` on a backspace while the control loop is free. -/
theorem feedBackspaceErasesOne : Obligations.FeedBackspaceErasesOne := by
  intro s hfree
  have hexec : exec .conBs s = .next s.feedBackspace := rfl
  rw [hexec, State.feedBackspace, if_neg (Bool.eq_false_iff.mp hfree)]
  refine ⟨fun hcur => ?_, fun hcur => ?_⟩
  · rw [if_neg hcur]
    rfl
  · rw [if_pos hcur]

/-- Where the control loop is busy or the line is empty, a line end changes nothing (R185, R187). -/
theorem feedLineEnd_ignored {s : State} (h : s.hostBusy = true ∨ s.front.cur = 0#8) : s.feedLineEnd = s := by
  obtain hbusy | hempty := h
  · simp [State.feedLineEnd, hbusy]
  · simp [State.feedLineEnd, hempty]

/-- After a line end another one is ignored: the line is empty, or the control loop is inside `dispatch`. -/
theorem feedLineEnd_feedLineEnd (s : State) : s.feedLineEnd.feedLineEnd = s.feedLineEnd := by
  by_cases hignored : s.hostBusy = true ∨ s.front.cur = 0#8
  · rw [feedLineEnd_ignored hignored, feedLineEnd_ignored hignored]
  · obtain ⟨hfree, hcur⟩ := not_or.mp hignored
    rw [feedLineEnd_of_line (Bool.eq_false_iff.mpr hfree) hcur]
    split_ifs
    · exact feedLineEnd_ignored (.inr rfl)
    · exact feedLineEnd_ignored (.inl (by simp [State.hostBusy, State.setStalled]))

/-- Settles O47: an empty line is ignored, and after a line end another one is. -/
theorem lineEndOnEmptyLineIsIgnored : Obligations.LineEndOnEmptyLineIsIgnored := by
  refine ⟨fun s _ hempty => ?empty, fun s t _ _ ht _ => ?second⟩
  case empty =>
    have hignored := next_congr (feedLineEnd_ignored (s := s) (.inr hempty))
    exact ⟨hignored, hignored⟩
  case second =>
    obtain rfl := Host.Outcome.next.inj ht
    exact next_congr (feedLineEnd_feedLineEnd s)

/-! ### Gathering a line -/

/-- The state after `FEED` of an ordinary byte for which there is room (R184). -/
def State.gathered (s : State) (c : Byte) : State :=
  ((s.consoleWrite [c]).writeByte .cmdbuf s.front.cur.toNat c).setCursor (s.front.cur + 1#8)

theorem gathered_cur {s : State} (hroom : s.front.cur.toNat < 255) (c : Byte) :
    (s.gathered c).front.cur.toNat = s.front.cur.toNat + 1 := by
  have hadd : (s.front.cur + 1#8).toNat = (s.front.cur.toNat + 1) % 256 := by simp
  rw [show (s.gathered c).front.cur = s.front.cur + 1#8 from rfl, hadd]
  omega

theorem consoleLine_gathered {s : State} (hroom : s.front.cur.toNat < 255) (c : Byte) :
    (s.gathered c).consoleLine = s.consoleLine ++ [c] := by
  have hwritten : (s.gathered c).readByte .cmdbuf s.front.cur.toNat = c :=
    readByte_writeByte_self (by have : Space.cmdbuf.size = 256 := rfl
                                omega) _ c
  have hbefore : (s.gathered c).readRange .cmdbuf 0 s.front.cur.toNat = s.consoleLine :=
    readRange_agree fun i hi => readByte_writeByte_other (.inr (by omega)) _ c
  rw [State.consoleLine, gathered_cur hroom, readRange_succ, hbefore, Nat.zero_add, hwritten]

/-- The step that takes an ordinary byte. -/
theorem step_gathered {s : State} (hfree : s.hostBusy = false) (hroom : s.front.cur.toNat < 255) {c : Byte}
    (hordinary : WellFormed (.conOther c)) (later : List Input) :
    step (s.withInbox (.console c :: later)) = .next ((s.gathered c).withInbox later) := by
  have hother : decode (.con c) = .conOther c := by
    obtain ⟨rfl, -⟩ | ⟨rfl, -⟩ | ⟨rfl, -⟩ | ⟨-, -, -, hd⟩ := decode_con_cases c
    case inr.inr.inr => exact hd
    all_goals exact absurd hordinary (by decide)
  have htaken := step_console (s := s.withInbox (.console c :: later)) hfree rfl
  rw [htaken, hother]
  have hlt : s.front.cur < 255#8 := by
    rw [BitVec.lt_def]
    exact hroom
  exact next_congr (feedOther_of_room (s := s.withInbox later) hfree hlt c)

/-- Ordinary bytes for which there is room, from any cursor. -/
theorem run_gathered {cs : List Byte} (hordinary : ∀ c ∈ cs, WellFormed (.conOther c)) {s : State}
    (hfree : s.hostBusy = false) (hroom : s.front.cur.toNat + cs.length ≤ 255) :
    ∃ t, Host.Core.run Sys2Proof.core cs.length (s.withInbox (cs.map Input.console)) = .next t ∧
      t.consoleLine = s.consoleLine ++ cs ∧ t.front.cur.toNat = s.front.cur.toNat + cs.length ∧
      t.front.console = s.front.console ++ cs ∧ t.trace = s.trace ∧ t.env.inbox = [] := by
  induction cs generalizing s with
  | nil =>
    have hsame : (s.withInbox []).consoleLine = s.consoleLine := readRange_congr (by rfl) (by rfl) ..
    exact ⟨_, rfl, by rw [List.append_nil]; exact hsame, rfl, (List.append_nil _).symm, rfl, rfl⟩
  | cons c cs ih =>
    obtain ⟨hc, hcs⟩ := List.forall_mem_cons.mp hordinary
    rw [List.length_cons] at hroom
    have hlt : s.front.cur.toNat < 255 := by omega
    have hcur := gathered_cur hlt c
    obtain ⟨t, hrun, hline, hend, hconsole, htrace, hinbox⟩ := ih hcs (s := s.gathered c) hfree (by omega)
    refine ⟨t, (run_step (step_gathered hfree hlt hc _) _).trans hrun, ?_, ?_, ?_, htrace, hinbox⟩
    · rw [hline, consoleLine_gathered hlt, List.append_assoc]
      rfl
    · rw [hend, hcur, List.length_cons]
      omega
    · rw [hconsole, show (s.gathered c).front.console = s.front.console ++ [c] from rfl, List.append_assoc]
      rfl

/-- Settles O46: by induction on the bytes, from the cursor at 0. -/
theorem feedGathersTheLine : Obligations.FeedGathersTheLine := by
  intro cs s hfree hempty hlength hordinary
  have hcur : s.front.cur.toNat = 0 := by rw [hempty]; rfl
  obtain ⟨t, hrun, hline, hend, hconsole, htrace, hinbox⟩ := run_gathered hordinary hfree (by omega)
  have hnone : s.consoleLine = [] := by rw [State.consoleLine, hcur]; rfl
  exact ⟨t, hrun, by rw [hline, hnone]; rfl, by omega, hconsole, htrace, hinbox⟩

/-! ### A line end -/

/-- The terminator stands after the line, so the line reads as before. -/
theorem consoleLine_lineEnded (s : State) : s.lineEnded.consoleLine = s.consoleLine :=
  readRange_agree fun _ hi => readByte_writeByte_other (.inr (by rw [Nat.zero_add]; exact Nat.ne_of_lt hi)) _ _

/-- What the memory reads when the operation word of the line is written: the line in `TXP`, the terminator after it
in `CMDBUF`, every other byte as before. -/
theorem readByte_lineCopied (s : State) (b : Space) (i : Nat) :
    s.lineCopied.readByte b i =
      if b = .txp ∧ i < s.front.cur.toNat then s.readByte .cmdbuf i
      else if b = .cmdbuf ∧ i = s.front.cur.toNat then 0#8 else s.readByte b i := by
  have hlength : s.lineEnded.consoleLine.length = s.front.cur.toNat := readRange_length ..
  have hcur : s.front.cur.toNat < 256 := s.front.cur.isLt
  rw [State.lineCopied]
  by_cases hcopied : b = .txp ∧ i < s.front.cur.toNat
  · obtain ⟨rfl, hi⟩ := hcopied
    have hwritten := readByte_writeRange_self (b := .txp) (a := 0) (k := i) (vs := s.lineEnded.consoleLine)
      (by omega) (by rw [hlength]; show 0 + _ ≤ 255; omega) s.lineEnded
    rw [if_pos ⟨rfl, hi⟩, ← Nat.zero_add i, hwritten]
    have hline : s.lineEnded.consoleLine[i] = s.lineEnded.readByte .cmdbuf (0 + i) := readRange_getElem ..
    rw [hline, Nat.zero_add]
    exact readByte_writeByte_other (.inr (Nat.ne_of_lt hi)) _ _
  · rw [if_neg hcopied, readByte_writeRange_other (by
      rw [hlength]
      by_cases hb : b = .txp
      · exact .inr (.inr (by have := not_and.mp hcopied hb; omega))
      · exact .inl hb)]
    by_cases hended : b = .cmdbuf ∧ i = s.front.cur.toNat
    · obtain ⟨rfl, rfl⟩ := hended
      rw [if_pos ⟨rfl, rfl⟩]
      exact readByte_writeByte_self hcur _ _
    · rw [if_neg hended]
      exact readByte_writeByte_other (by tauto) _ _

theorem lineCopied_active (s : State) : s.lineCopied.active = s.active := by
  rw [lineCopied_frame]
  rfl

theorem lineCopied_env (s : State) : s.lineCopied.env = s.env := by
  rw [lineCopied_frame]

/-- Settles O44: at the sequencer level the operation word of the line is accepted, so `dispatch` has not returned. -/
theorem feedLineEndStartsDispatch : Obligations.FeedLineEndStartsDispatch := by
  intro s hfree hcur hlevel
  have hidle : s.lineCopied.active = false := (lineCopied_active s).trans (active_of_hostBusy_false hfree)
  have hdispatched : s.lineDispatched = s.lineCopied.accept (opWord 7#4 s.front.cur) .keyChk :=
    operate_sequencer hidle (by rw [lineCopied_env, hlevel]) ..
  have hfed : s.feedLineEnd = s.lineDispatched.setStalled true := by
    rw [feedLineEnd_of_line hfree hcur, if_neg (by rw [hdispatched]; simp)]
  have hread : ∀ b i, s.feedLineEnd.readByte b i = s.lineCopied.readByte b i := fun b i =>
    readByte_congr (by rw [hfed, hdispatched]; rfl) (by rw [hfed, hdispatched]; rfl) b i
  refine ⟨s.feedLineEnd, rfl, rfl, fun i hi => ?copied, ?ended, fun b i htxp hcmdbuf => ?other, ?frame⟩
  case copied => rw [hread, readByte_lineCopied, if_pos ⟨rfl, hi⟩]
  case ended => rw [hread, readByte_lineCopied, if_neg (by simp), if_pos ⟨rfl, rfl⟩]
  case other =>
    have hnot : ¬ (b = .txp ∧ i < s.front.cur.toNat) := fun ⟨hb, hi⟩ => htxp.elim (· hb) fun h => by omega
    rw [hread, readByte_lineCopied, if_neg hnot, if_neg (by tauto)]
  case frame =>
    rw [hfed, hdispatched, lineCopied_frame]
    rfl

end Sys2Proof.Machine
end

section
/-! What DISPATCH leaves unchanged (44_orchestrator.md section 1): up to the payload it writes neither `RXP` nor
`TIMEOUT`, the payload is stored below `RXCNT`, and the record of the reply is its last action. -/

namespace Sys2Proof.Machine

/-- A state of a transaction before its payload. -/
structure State.Transacting (s u : State) : Prop where
  underway : s.Underway u
  payload : ∀ i, u.readByte .rxp i = s.readByte .rxp i
  noTimeout : u.ctl.status &&& bitTimeout = 0#8

/-- A state of a transaction at its end, or where it timed out. -/
structure State.ReplyReceived (s u : State) : Prop where
  underway : s.Underway u
  payload : ∀ i, u.rx.cnt.toNat ≤ i → u.readByte .rxp i = s.readByte .rxp i
  noTimeout : u.ctl.status &&& bitTimeout = 0#8

namespace State.Transacting

variable {s u : State}

theorem replyReceived (h : s.Transacting u) : s.ReplyReceived u := ⟨h.underway, fun i _ => h.payload i, h.noTimeout⟩

theorem emit (h : s.Transacting u) (e : LinkEvent) : s.Transacting (u.emit e) :=
  { h with underway := h.underway.emit e }

theorem setIdx (h : s.Transacting u) (i : Byte) : s.Transacting (u.setIdx i) :=
  { h with underway := h.underway.setIdx i }

theorem setPolls (h : s.Transacting u) (n : Nat) : s.Transacting (u.setPolls n) :=
  { h with underway := h.underway.setPolls n }

theorem putReceived (h : s.Transacting u) (x : Header) : s.Transacting (u.putReceived x) :=
  { h with underway := h.underway.putReceived x }

theorem raiseFlag (h : s.Transacting u) {f : Byte} (hf : f &&& 0x80#8 = 0#8) (hft : f &&& bitTimeout = 0#8) :
    s.Transacting (u.raiseFlag f) :=
  { h with underway := h.underway.raiseFlag hf, noTimeout := or_and_eq_zero h.noTimeout hft }

/-- The sync byte and the header tail are stored in `RXH`. -/
theorem writeRxh (h : s.Transacting u) (i : Nat) (v : Byte) : s.Transacting (u.writeByte .rxh i v) where
  underway := h.underway.writeByte (by decide) (by decide) i v
  payload j := (readByte_writeByte_other (.inl (by decide)) u v).trans (h.payload j)
  noTimeout := h.noTimeout

theorem markShortHeader (h : s.Transacting u) : s.Transacting u.markShortHeader := by
  rw [State.markShortHeader]
  split_ifs
  · exact h.raiseFlag (by decide) (by decide)
  · exact h

theorem buildRequest (h : s.Transacting u) (l : Byte) : s.Transacting (u.buildRequest l) where
  underway := h.underway.buildRequest l
  payload i := (readByte_buildRequest u l .rxp i).trans (by simpa using h.payload i)
  noTimeout := by
    rw [buildRequest_frame]
    exact h.noTimeout

end State.Transacting

theorem keptByByte_transacting (s : State) : KeptByByte s.Transacting where
  attempt u b r rest h hp := by
    have hread : ∀ i, (u.attempt b r rest).readByte .rxp i = u.readByte .rxp i :=
      fun i => readByte_congr (by rw [attempt_eq]) (by rw [attempt_eq]) .rxp i
    have hctl : (u.attempt b r rest).ctl = u.ctl := by rw [attempt_eq]
    exact ⟨h.underway.attempt hp, fun i => (hread i).trans (h.payload i), by rw [hctl]; exact h.noTimeout⟩
  delayPace _ h := h.emit _
  setAtt _ n h := { h with underway := h.underway.setAtt n }

theorem sendBytes_transacting {s u : State} (h : s.Transacting u) (b : Space) (n : Nat) :
    (sendBytes b n u).Ends (fun _ => s.Transacting) s.Transacting :=
  sendLoop_ends (P := fun _ => s.Transacting) (fun _ _ hu => ((keptByByte_transacting s).byteXfer hu _).mono
    (fun _ v hv => hv.setIdx (v.seq.idx + 1#8)) fun _ hv => hv) n _ (h.setIdx 0#8)

theorem syncPoll_transacting {s u : State} (h : s.Transacting u) :
    (syncPoll u).Ends (fun _ => s.Transacting) s.Transacting := by
  have hbyte : ∀ v : State, s.Transacting v → (receiveByte v.delayPoll).Ends (fun _ => s.Transacting) s.Transacting :=
    fun v hv => (keptByByte_transacting s).byteXfer (s := v.delayPoll) (hv.emit _) _
  have hpoll : (pollLoop u.env.peer.length (u.setPolls 0)).Ends (fun _ => s.Transacting) s.Transacting :=
    pollLoop_ends (P := s.Transacting) (fun v hv => (hbyte v hv).mono
      (fun _ _ hw => ⟨fun _ => hw.setPolls _, fun _ _ => hw.setPolls _, fun _ _ => hw.setPolls _⟩) fun _ hw => hw)
      _ _ (h.setPolls 0)
  exact syncPoll_ends (hpoll.mono (fun _ _ hv => hv.writeRxh ..) fun _ hv => hv)

theorem recvHeader_transacting {s u : State} (h : s.Transacting u) :
    (recvBytes .rxh 1 3 u).Ends (fun _ => s.Transacting) s.Transacting :=
  recvLoop_ends (P := fun _ => s.Transacting) (fun _ _ hu => ((keptByByte_transacting s).byteXfer hu _).mono
    (fun r _ hv => ⟨fun _ => hv.raiseFlag (by decide) (by decide), fun _ => (hv.writeRxh _ r).setIdx _⟩) fun _ hv => hv)
    (fun _ hu => hu) 3 _ (h.setIdx 0#8)

/-- No receive raises `TIMEOUT`. -/
theorem recvPayload_noTimeout {s : State} (hs : s.ctl.status &&& bitTimeout = 0#8) (max : Nat) :
    (recvPayload max s).Ends (fun _ u => u.ctl.status &&& bitTimeout = 0#8)
      (fun u => u.ctl.status &&& bitTimeout = 0#8) := by
  have hkept : KeptByByte fun u => u.ctl.status &&& bitTimeout = 0#8 :=
    ⟨fun _ _ _ _ h _ => h, fun _ h => h, fun _ _ h => h⟩
  exact recvPayload_ends (recvLoop_ends (P := fun _ u => u.ctl.status &&& bitTimeout = 0#8)
    (Q := fun u => u.countStored.ctl.status &&& bitTimeout = 0#8) (fun _ _ hu => (hkept.byteXfer hu _).mono
      (fun _ _ hv => ⟨fun _ => or_and_eq_zero hv (by decide), fun _ => hv⟩) fun _ hv => hv) (fun _ hu => hu) max _ hs)

theorem State.Transacting.recvPayload {s u : State} (h : s.Transacting u) (max : Byte) :
    (recvPayload max.toNat u).Ends (fun _ => s.ReplyReceived) s.ReplyReceived := by
  have hreceived : ∀ v, u.PayloadReceived max.toNat v ∧ v.ctl.status &&& bitTimeout = 0#8 → s.ReplyReceived v :=
    fun v ⟨hv, ht⟩ => ⟨h.underway.trans hv.underway, fun i hi => (hv.bytes .rxp i (.inr hi)).trans (h.payload i), ht⟩
  exact ((recvPayload_received (toNat_le_255 max) u).and (recvPayload_noTimeout h.noTimeout max.toNat)).mono
    (fun _ => hreceived) hreceived

theorem transaction_replyReceived {s u : State} (h : s.Transacting u) (l : Byte) :
    (transaction l u).Ends (fun _ v => ∃ v', s.ReplyReceived v' ∧ v = v'.terminate.reportReply) s.ReplyReceived := by
  have hlate : ∀ {α : Type} {r : Run α}, r.Ends (fun _ => s.Transacting) s.Transacting →
      r.Ends (fun _ => s.Transacting) s.ReplyReceived := fun hr =>
    hr.mono (fun _ _ hv => hv) fun _ hv => hv.replyReceived
  refine (hlate (sendBytes_transacting h .txh 4)).andThen fun _ _ hu =>
    (hlate (sendBytes_transacting hu .txp l.toNat)).andThen fun _ _ hu =>
    (hlate (syncPoll_transacting hu)).andThen fun _ _ hu =>
    (hlate (recvHeader_transacting hu)).andThen fun _ u hu => ?payload
  case payload =>
    exact ((hu.markShortHeader.putReceived _).recvPayload _).andThen fun _ v hv => ⟨v, hv, rfl⟩

/-- What a DISPATCH can leave of the state `s` in which its word was accepted. -/
theorem dispatchBody_replyReceived {s t : State} {l : Byte} (hs : s.ctl.status &&& bitTimeout = 0#8)
    (h : dispatchBody l s = some t) :
    (s.commandString l = s.env.params.resetKeyword ∧ t = s.sysResetRequested) ∨
    ∃ u, s.ReplyReceived u ∧ (t = u.timedOut ∨ t = u.terminate.reportReply.completed) := by
  obtain ⟨hkeyword, hbody⟩ | ⟨-, hbody⟩ := dispatchBody_cases l s
  · exact .inl ⟨hkeyword, Option.some.inj (h.symm.trans hbody)⟩
  · have hself : s.Transacting s := ⟨.refl s, fun _ => rfl, hs⟩
    have hrun := transaction_replyReceived (hself.buildRequest l) l
    refine .inr ?_
    obtain ⟨v, hv, rfl⟩ | ⟨v, hv, rfl⟩ := outcome_eq_some (hbody.symm.trans h)
    · obtain ⟨u, hu, rfl⟩ := hrun.of_done hv
      exact ⟨u, hu, .inr rfl⟩
    · exact ⟨v, hrun.of_timeout hv, .inl rfl⟩

/-! ### The frame -/

/-- What DISPATCH of `L` leaves unchanged of the state it was written in. -/
structure State.DispatchKept (s : State) (l : Byte) (t : State) : Prop where
  txp : t.mem.txp = s.mem.txp
  cmdbuf : t.mem.cmdbuf = s.mem.cmdbuf
  payload : ∀ i, t.rx.cnt.toNat < i → t.readByte .rxp i = s.readByte .rxp i
  env : t.env = { s.env with peer := t.env.peer }
  peer : t.env.peer <:+ s.env.peer
  trace : s.trace <+: t.trace
  request : s.commandString l ≠ s.env.params.resetKeyword → t.ctl.sysrstReq = s.ctl.sysrstReq

theorem State.DispatchKept.refl (s : State) (l : Byte) : s.DispatchKept l s :=
  ⟨rfl, rfl, fun _ _ => rfl, rfl, List.suffix_rfl, List.prefix_rfl, fun _ => rfl⟩

theorem State.ReplyReceived.kept {s u : State} (h : s.ReplyReceived u) (l : Byte) : s.DispatchKept l u :=
  ⟨h.underway.txp, h.underway.cmdbuf, fun i hi => h.payload i (Nat.le_of_lt hi), h.underway.env, h.underway.peer,
    h.underway.trace, fun _ => h.underway.request⟩

theorem State.ReplyReceived.terminate_kept {s u : State} (h : s.ReplyReceived u) (l : Byte) :
    s.DispatchKept l u.terminate.reportReply.completed := by
  have hterminated := h.underway.terminate
  have hcount : u.terminate.rx.cnt = u.rx.cnt := by rw [terminate_frame]
  have hread : ∀ i, u.terminate.reportReply.completed.readByte .rxp i = u.terminate.readByte .rxp i := fun _ => rfl
  refine ⟨hterminated.txp, hterminated.cmdbuf, fun i hi => ?_, hterminated.env, hterminated.peer, hterminated.trace,
    fun _ => hterminated.request⟩
  have hi' : u.rx.cnt.toNat < i := by rw [← hcount]; exact hi
  rw [hread, readByte_terminate, if_neg (by omega)]
  exact h.payload i hi'.le

theorem renderReply_congr {s t : State} (hrx : s.rx = t.rx) (hmem : s.mem = t.mem)
    (hepoch : s.env.epoch = t.env.epoch) : s.renderReply = t.renderReply := by
  simp only [State.renderReply, hrx, readRange_congr hmem hepoch]

/-- The record of the reply that the receive registers hold. -/
def State.Rendered (s t : State) : Prop :=
  t.active = false ∧ flagSet t.ctl.status bitTimeout = false ∧
    t.front = { s.front with rendered := s.front.rendered ++ [t.renderReply] }

/-- A DISPATCH that completes renders its reply as the receive registers hold it, and did not time out. -/
theorem State.ReplyReceived.rendered {s u : State} (h : s.ReplyReceived u) :
    s.Rendered u.terminate.reportReply.completed := by
  have hreply : u.terminate.reportReply.completed.renderReply = u.renderReply :=
    (renderReply_congr (s := u.terminate.reportReply.completed) (t := u.terminate) rfl rfl rfl).trans
      (renderReply_terminate u)
  refine ⟨completed_active _, ?noTimeout, ?front⟩
  case noTimeout =>
    have hended : ∀ v : Byte, v &&& bitTimeout = 0#8 → flagSet (endedStatus v) bitTimeout = false := by decide
    refine hended _ ?_
    rw [reportReply_terminate]
    show (if _ then _ else _) &&& _ = _
    split_ifs
    · exact or_and_eq_zero h.noTimeout (by decide)
    · exact h.noTimeout
  case front =>
    rw [hreply]
    show u.terminate.reportReply.front = _
    rw [reportReply_terminate, h.underway.front]

/-- What a DISPATCH that ended without a record leaves: the reset request or a timeout; else it is refused or runs. -/
def State.NotRendered (s t : State) : Prop :=
  t.front = s.front ∧ (t.active = true ∨ t.seq.phase = .idle ∧ flagSet t.ctl.status bitTimeout = true)

/-- What DISPATCH leaves, by whether it completed. -/
theorem dispatch_cases (l : Byte) (s : State) : ∃ t, s.operate (opWord 7#4 l) .keyChk (dispatchBody l) = t ∧
    s.DispatchKept l t ∧ (s.NotRendered t ∨ t.seq.phase = .idle ∧ s.Rendered t) := by
  refine ⟨_, rfl, ?_⟩
  obtain ⟨hactive, h⟩ | ⟨-, h, -⟩ | ⟨-, -, t, ht, h⟩ :=
    operate_cases s (opWord 7#4 l) .keyChk (dispatchBody l)
  · rw [h]
    exact ⟨.refl s l, .inl ⟨rfl, .inl hactive⟩⟩
  · rw [h]
    exact ⟨{ State.DispatchKept.refl s l with }, .inl ⟨rfl, .inl (accept_active ..)⟩⟩
  · rw [h]
    have hstatus : (s.accept (opWord 7#4 l) .keyChk).ctl.status &&& bitTimeout = 0#8 :=
      show acceptedStatus &&& bitTimeout = 0#8 by decide
    obtain ⟨hkeyword, rfl⟩ | ⟨u, hu, rfl | rfl⟩ := dispatchBody_replyReceived hstatus ht
    · rw [commandString_accept] at hkeyword
      exact ⟨⟨rfl, rfl, fun _ _ => rfl, rfl, List.suffix_rfl, List.prefix_append .., fun hne => absurd hkeyword hne⟩,
        .inl ⟨rfl, .inl (accept_active s (opWord 7#4 l) .keyChk)⟩⟩
    · exact ⟨{ hu.kept l with request := fun _ => hu.underway.request },
        .inl ⟨hu.underway.front, .inr ⟨rfl, timedOut_status_timeout u⟩⟩⟩
    · exact ⟨{ hu.terminate_kept l with request := fun _ => hu.underway.terminate.request }, .inr ⟨rfl, hu.rendered⟩⟩

/-- Settles O36: what is kept however it ends, and the front end by whether it completed. -/
theorem dispatchFrame : Obligations.DispatchFrame := by
  intro l s t hexec
  obtain ⟨t', rfl, h, hfront⟩ := dispatch_cases l s
  obtain rfl := Host.Outcome.next.inj hexec
  exact ⟨h.txp, h.cmdbuf, h.payload, hfront.imp (fun hn => hn.1) (fun hr => hr.2), h.env, h.peer, h.trace, h.request⟩

/-- Settles O45: the operation word of the line is DISPATCH of it on the state the front end wrote; where that ended,
`dispatch` has returned. -/
theorem feedLineEndDispatchesTheLine : Obligations.FeedLineEndDispatchesTheLine := by
  intro s u hfree hcur _ s₁ hexec hended reply t
  have hu : s.lineDispatched = u := by
    rw [← consoleLine_lineEnded s] at hexec
    exact Host.Outcome.next.inj hexec
  obtain ⟨u', hdispatched, hkept, hfront⟩ := dispatch_cases s.front.cur s.lineCopied
  obtain rfl : u' = u := hdispatched.symm.trans hu
  have hcopied : s.lineCopied.front =
      { s.front with console := s.front.console ++ s.env.params.newlineEcho } := by rw [lineCopied_frame]
  have hidle : u'.seq.phase = .idle ∧ u'.front.rendered =
      if flagSet u'.ctl.status bitTimeout then s.front.rendered else s.front.rendered ++ [reply] := by
    obtain ⟨hsame, hactive | ⟨hphase, htimeout⟩⟩ | ⟨hphase, -, hnone, hrendered⟩ := hfront
    · simp [hactive] at hended
    · exact ⟨hphase, by rw [if_pos htimeout, hsame, hcopied]⟩
    · exact ⟨hphase, by rw [hnone, if_neg (by simp), hrendered, hcopied]; rfl⟩
  have hfed : s.feedLineEnd = t := by
    rw [feedLineEnd_of_line hfree hcur, hu, if_pos hidle.1]
    show _ = { u' with front := { u'.front with
      cur := 0#8
      stalled := false
      rendered := if flagSet u'.ctl.status bitTimeout then s.front.rendered else s.front.rendered ++ [reply] } }
    rw [← hidle.2]
    rfl
  exact ⟨next_congr hfed, next_congr hfed⟩

end Sys2Proof.Machine
end

section
/-! DISPATCH on the answers fixed ahead (44_orchestrator.md R202 to R208, R213): the request sent and the sync byte found
in one record, then the reply, whose header and payload decide how the transaction ends. -/

namespace Sys2Proof.Machine

/-! ### Answers and events -/

theorem length_le_length_allAnswers (as : List (Nat × Byte)) : as.length ≤ (allAnswers as).length := by
  induction as with
  | nil => exact Nat.le_refl 0
  | cons a as ih =>
    rw [allAnswers_cons, List.length_append, List.length_cons, byteAnswers, List.length_append]
    simp only [List.length_singleton]
    omega

theorem sendTrace_append {bs cs : List Byte} {as ds : List (Nat × Byte)} (h : bs.length = as.length) :
    sendTrace (bs ++ cs) (as ++ ds) = sendTrace bs as ++ sendTrace cs ds := by
  rw [← pairsTrace_zip, ← pairsTrace_zip, ← pairsTrace_zip, List.zip_append h]
  simp [pairsTrace]

theorem answeredWithin_append {limit : Option Nat} {as bs : List (Nat × Byte)} :
    AnsweredWithin limit (as ++ bs) ↔ AnsweredWithin limit as ∧ AnsweredWithin limit bs := by
  exact List.forall_mem_append

/-- The state after exchanges of these events, whatever the link registers and `ATT` then hold. -/
def State.talked (s : State) (link : Link) (att : Nat) (events : List LinkEvent) (rest : List Byte) : State :=
  { s with link := link, att := att, trace := s.trace ++ events, env := { s.env with peer := rest } }

theorem talked_talked (s : State) (k l : Link) (m n : Nat) (es fs : List LinkEvent) (xs ys : List Byte) :
    (s.talked k m es xs).talked l n fs ys = s.talked l n (es ++ fs) ys := by
  simp only [State.talked, List.append_assoc]

theorem transferred_eq_talked (s : State) (ps : List (Byte × Nat × Byte)) (rest : List Byte) :
    s.transferred ps rest = s.talked (linkAfter s.link ps) (attAfter s.att ps) (pairsTrace ps) rest := rfl

/-! ### The request -/

/-- `send_bytes` of `n` bytes of a buffer. -/
theorem sendBytes_talked (b : Space) {n : Nat} {as : List (Nat × Byte)} (rest : List Byte) {s : State}
    (hans : AnsweredWithin s.env.params.retryLimit as) (hp : s.env.peer = allAnswers as ++ rest)
    (hlen : as.length = n) (hn : n ≤ 255) :
    ∃ link att, sendBytes b n s =
      .done () ((s.talked link att (sendTrace (s.readRange b 0 n) as) rest).setIdx (BitVec.ofNat 8 n)) := by
  subst hlen
  rw [sendBytes_done b rest hans hp hn, transferred_eq_talked, pairsTrace_zip]
  exact ⟨_, _, rfl⟩

/-- The polls that find the sync byte, or reach the limit without it. -/
theorem syncPoll_talked {noise : List (Nat × Byte)} {k : Nat} (rest : List Byte) {s : State}
    (hans : AnsweredWithin s.env.params.retryLimit (noise ++ [(k, Config.tagResponse)]))
    (hnoise : ∀ a ∈ noise, a.2 ≠ Config.tagResponse)
    (hlimit : ∀ n, s.env.params.syncLimit = some n → noise.length < n)
    (hp : s.env.peer = allAnswers (noise ++ [(k, Config.tagResponse)]) ++ rest) :
    ∃ link att, syncPoll s = .done ()
      (((s.talked link att (pollTrace s.env.params.filler (noise ++ [(k, Config.tagResponse)])) rest).setPolls
        (noise.length + 1)).writeByte .rxh 0 Config.tagResponse) := by
  obtain ⟨hans', hlast⟩ := answeredWithin_append.mp hans
  have hfuel : s.env.peer.length = noise.length + ((s.env.peer.length - noise.length - 1) + 1) := by
    have := length_le_length_allAnswers (noise ++ [(k, Config.tagResponse)])
    rw [hp]
    simp only [List.length_append, List.length_singleton] at this ⊢
    omega
  have hsynced := syncPoll_done hfuel hans' hnoise (fun n hn => .inl (by have := hlimit n hn; omega))
    (hlast _ (List.mem_singleton_self _)).2 hp
  rw [hsynced, polled_eq _ rest (s.setPolls 0) hp]
  simp only [setPolls_polls, List.length_append, List.length_singleton, Nat.zero_add]
  exact ⟨_, _, rfl⟩

theorem syncPoll_timeout {noise : List (Nat × Byte)} {n : Nat} (hn : 1 ≤ n) (rest : List Byte) {s : State}
    (hans : AnsweredWithin s.env.params.retryLimit noise) (hnoise : ∀ a ∈ noise, a.2 ≠ Config.tagResponse)
    (hlimit : s.env.params.syncLimit = some n) (hlen : noise.length = n)
    (hp : s.env.peer = allAnswers noise ++ rest) :
    ∃ link att, syncPoll s = .timeout
      ((s.talked link att (pollTrace s.env.params.filler noise) rest).setPolls n) := by
  obtain ⟨as, a, rfl⟩ : ∃ as a, noise = as ++ [a] :=
    ⟨noise.dropLast, noise.getLast (by rintro rfl; simp at hlen; omega), (List.dropLast_append_getLast _).symm⟩
  rw [List.length_append, List.length_singleton] at hlen
  have hfuel : s.env.peer.length = as.length + ((s.env.peer.length - as.length - 1) + 1) := by
    have := length_le_length_allAnswers (as ++ [a])
    rw [hp]
    simp only [List.length_append, List.length_singleton] at this ⊢
    omega
  have hlate := pollLoop_timeout (s.env.peer.length - as.length - 1) rest (s := s.setPolls 0) hans hnoise hlimit
    (by rw [setPolls_polls]; omega) hp
  rw [syncPoll, hfuel, hlate, polled_eq _ rest (s.setPolls 0) hp]
  simp only [setPolls_polls, List.length_append, List.length_singleton, Nat.zero_add, hlen]
  exact ⟨_, _, rfl⟩

/-! ### The reply -/

/-- The receive registers as a header received in `h` loads them. -/
def State.headerDecoded (h : State) : State := h.markShortHeader.putReceived (decodeHeader h.markShortHeader.rxhBytes)

theorem receiveReply_of_parts {s h x : State} (hheader : recvBytes .rxh 1 3 s = .done () h)
    (hpayload : recvPayload h.headerDecoded.rx.len.toNat h.headerDecoded = .done () x) :
    receiveReply s = .done () x.terminate.reportReply := by
  rw [receiveReply, hheader]
  show (recvPayload h.headerDecoded.rx.len.toNat h.headerDecoded).andThen _ = _
  rw [hpayload]
  rfl

/-- The state in which the transaction starts: the word accepted, the request built (R202). -/
def State.requested (s : State) (l : Byte) : State := (s.accept (opWord 7#4 l) .keyChk).buildRequest l

theorem readByte_requested (s : State) (l : Byte) (b : Space) (j : Nat) :
    (s.requested l).readByte b j =
      if b = .rxh ∧ j < 4 then 0#8
      else if b = .txh ∧ j = 0 then Config.tagCommand
      else if b = .txh ∧ j = 1 then 0#8
      else if b = .txh ∧ j = 2 then 0#8
      else if b = .txh ∧ j = 3 then l
      else s.readByte b j :=
  readByte_buildRequest _ l b j

theorem requested_frame (s : State) (l : Byte) :
    s.requested l = { s.accept (opWord 7#4 l) .keyChk with
      tx := { type := Config.tagCommand, cid := 0#16, len := l }
      mem := (s.requested l).mem } :=
  buildRequest_frame _ l

theorem requested_env (s : State) (l : Byte) : (s.requested l).env = s.env := by rw [requested_frame]; rfl

/-- The bytes the transaction sends: the request header, then the command (R202, R203). -/
def State.requestBytes (s : State) (l : Byte) : List Byte := [0x10#8, 0x00#8, 0x00#8, l] ++ s.commandString l

theorem readRange_txh_requested (s : State) (l : Byte) :
    (s.requested l).readRange .txh 0 4 = [0x10#8, 0x00#8, 0x00#8, l] := by
  simp only [State.readRange, readByte_requested]
  rfl

theorem readRange_txp_requested (s : State) (l : Byte) :
    (s.requested l).readRange .txp 0 l.toNat = s.commandString l :=
  readRange_agree fun i _ => by simp [readByte_requested]

/-- Both sends of a transaction (R203). -/
theorem transaction_talked {l : Byte} {send : List (Nat × Byte)} (rest : List Byte) {u : State}
    (hans : AnsweredWithin u.env.params.retryLimit send) (hlen : send.length = 4 + l.toNat)
    (hp : u.env.peer = allAnswers send ++ rest) :
    ∃ link att, transaction l u =
      (syncPoll ((u.talked link att (sendTrace (u.readRange .txh 0 4 ++ u.readRange .txp 0 l.toNat) send)
        rest).setIdx l)).andThen fun _ v => receiveReply v := by
  obtain ⟨head, command, rfl, hhead⟩ : ∃ head command, send = head ++ command ∧ head.length = 4 :=
    ⟨send.take 4, send.drop 4, (List.take_append_drop 4 send).symm, by simp; omega⟩
  rw [List.length_append, hhead, Nat.add_left_cancel_iff] at hlen
  obtain ⟨hans₁, hans₂⟩ := answeredWithin_append.mp hans
  rw [allAnswers_append, List.append_assoc] at hp
  obtain ⟨link₁, att₁, hsent₁⟩ := sendBytes_talked .txh (allAnswers command ++ rest) hans₁ hp hhead (by decide)
  obtain ⟨link, att, hsent₂⟩ := sendBytes_talked .txp rest
    (s := (u.talked link₁ att₁ (sendTrace (u.readRange .txh 0 4) head) (allAnswers command ++ rest)).setIdx 4#8)
    hans₂ rfl hlen (toNat_le_255 l)
  refine ⟨link, att, ?_⟩
  have hcommand : ((u.talked link₁ att₁ (sendTrace (u.readRange .txh 0 4) head)
      (allAnswers command ++ rest)).setIdx 4#8).readRange .txp 0 l.toNat = u.readRange .txp 0 l.toNat :=
    readRange_congr (by rfl) (by rfl) ..
  rw [transaction_eq, hsent₁, Run.andThen, hsent₂, Run.andThen, hcommand, sendTrace_append (by simp [hhead]),
    ← talked_talked u link₁ link att₁ att _ _ (allAnswers command ++ rest), BitVec.ofNat_toNat, BitVec.setWidth_eq]
  rfl

/-- The same from the state in which DISPATCH starts it. -/
theorem transaction_sent {l : Byte} {send : List (Nat × Byte)} (rest : List Byte) {s : State}
    (hans : AnsweredWithin s.env.params.retryLimit send) (hlen : send.length = 4 + l.toNat)
    (hp : s.env.peer = allAnswers send ++ rest) :
    ∃ link att, transaction l (s.requested l) =
      (syncPoll (((s.requested l).talked link att (sendTrace (s.requestBytes l) send) rest).setIdx l)).andThen
        fun _ v => receiveReply v := by
  rw [← requested_env s l] at hans hp
  have hsent := transaction_talked rest hans hlen hp
  rwa [readRange_txh_requested, readRange_txp_requested] at hsent

/-- The state of the transaction once the sync byte is kept (R204). -/
def State.synced (s : State) (l : Byte) (link : Link) (att : Nat) (send polls : List (Nat × Byte))
    (rest : List Byte) : State :=
  ((((s.requested l).talked link att
    (sendTrace (s.requestBytes l) send ++ pollTrace s.env.params.filler polls) rest).setIdx l).setPolls
      polls.length).writeByte .rxh 0 Config.tagResponse

theorem transaction_synced {l : Byte} {send noise : List (Nat × Byte)} {k : Nat} (rest : List Byte) {s : State}
    (hans : AnsweredWithin s.env.params.retryLimit (send ++ (noise ++ [(k, Config.tagResponse)])))
    (hlen : send.length = 4 + l.toNat) (hnoise : ∀ a ∈ noise, a.2 ≠ Config.tagResponse)
    (hlimit : ∀ n, s.env.params.syncLimit = some n → noise.length < n)
    (hp : s.env.peer = allAnswers send ++ (allAnswers (noise ++ [(k, Config.tagResponse)]) ++ rest)) :
    ∃ link att, transaction l (s.requested l) =
      receiveReply (s.synced l link att send (noise ++ [(k, Config.tagResponse)]) rest) := by
  obtain ⟨hans₁, hans₂⟩ := answeredWithin_append.mp hans
  obtain ⟨link₁, att₁, hsent⟩ := transaction_sent _ hans₁ hlen hp
  have henv := requested_env s l
  obtain ⟨link, att, hsynced⟩ := syncPoll_talked rest
    (s := ((s.requested l).talked link₁ att₁ (sendTrace (s.requestBytes l) send)
      (allAnswers (noise ++ [(k, Config.tagResponse)]) ++ rest)).setIdx l)
    (by show AnsweredWithin (s.requested l).env.params.retryLimit _; rwa [henv]) hnoise
    (by show ∀ n, (s.requested l).env.params.syncLimit = some n → _; rwa [henv]) rfl
  refine ⟨link, att, ?_⟩
  rw [hsent, hsynced, State.synced, List.length_append, List.length_singleton,
    ← talked_talked _ link₁ link att₁ att _ _ (allAnswers (noise ++ [(k, Config.tagResponse)]) ++ rest), ← henv]
  rfl

/-- A transaction that finds the sync byte, told of the answers as a whole: `more` is the reply after the sync byte. -/
theorem transaction_to_reply {l : Byte} {send noise more : List (Nat × Byte)} {k : Nat} {rest : List Byte} {s : State}
    (hans : Answered s.env.params.retryLimit (send ++ noise ++ (k, Config.tagResponse) :: more))
    (hlen : send.length = 4 + l.toNat) (hnoise : ∀ a ∈ noise, a.2 ≠ Config.tagResponse)
    (hlimit : ∀ n, s.env.params.syncLimit = some n → noise.length < n)
    (hp : s.env.peer = allAnswers (send ++ noise ++ (k, Config.tagResponse) :: more) ++ rest) :
    AnsweredWithin s.env.params.retryLimit more ∧ ∃ link att, transaction l (s.requested l) =
      receiveReply (s.synced l link att send (noise ++ [(k, Config.tagResponse)]) (allAnswers more ++ rest)) := by
  have hsplit : send ++ noise ++ (k, Config.tagResponse) :: more =
      (send ++ (noise ++ [(k, Config.tagResponse)])) ++ more := by simp
  rw [hsplit] at hans hp
  obtain ⟨hbefore, hmore⟩ := answeredWithin_append.mp hans.within
  refine ⟨hmore, transaction_synced _ hbefore hlen hnoise hlimit ?_⟩
  rw [hp, allAnswers_append, allAnswers_append send, List.append_assoc, List.append_assoc]

/-- What the registers hold then. -/
theorem synced_frame (s : State) (l : Byte) (link : Link) (att : Nat) (send polls : List (Nat × Byte))
    (rest : List Byte) :
    s.synced l link att send polls rest = { s with
      link := link
      tx := { type := 0x10#8, cid := 0#16, len := l }
      ctl := { s.ctl with cmd := opWord 7#4 l, status := acceptedStatus }
      seq := { phase := .keyChk, idx := l, be := .idle }
      att := att
      polls := polls.length
      mem := (s.synced l link att send polls rest).mem
      trace := s.trace ++ sendTrace (s.requestBytes l) send ++ pollTrace s.env.params.filler polls
      env := { s.env with peer := rest } } := by
  rw [State.synced, requested_frame, List.append_assoc]
  rfl

/-- What the memory reads then: the sync byte kept, the rest of `RXH` cleared, the request header in `TXH`. -/
theorem readByte_synced (s : State) (l : Byte) (link : Link) (att : Nat) (send polls : List (Nat × Byte))
    (rest : List Byte) (b : Space) (j : Nat) :
    (s.synced l link att send polls rest).readByte b j =
      if b = .rxh ∧ j = 0 then Config.tagResponse else (s.requested l).readByte b j := by
  rw [State.synced]
  split_ifs with h
  · obtain ⟨rfl, rfl⟩ := h
    exact readByte_writeByte_self (by decide) _ _
  · exact (readByte_writeByte_other (by tauto) _ _).trans (readByte_congr (by rfl) (by rfl) b j)

/-! ### How DISPATCH ends -/

theorem dispatchBody_of_command {s : State} {l : Byte} (hkey : s.commandString l ≠ s.env.params.resetKeyword) :
    dispatchBody l (s.accept (opWord 7#4 l) .keyChk) = (transaction l (s.requested l)).outcome := by
  obtain ⟨hkeyword, -⟩ | ⟨-, hbody⟩ := dispatchBody_cases l (s.accept (opWord 7#4 l) .keyChk)
  · rw [commandString_accept] at hkeyword
    exact absurd hkeyword hkey
  · exact hbody

/-- A DISPATCH whose payload receive left `x`, ended with `STATUS = v`: the terminator written, the reply rendered. -/
def State.replied (x : State) (v : Byte) : State :=
  { x with
    ctl := { x.ctl with status := v }
    seq := { phase := .idle, idx := 0#8, be := .idle }
    mem := x.mem.write .rxp x.rx.cnt.toNat 0#8
    front := { x.front with rendered := x.front.rendered ++ [x.renderReply] } }

theorem readByte_replied (x : State) (v : Byte) (b : Space) (j : Nat) :
    (x.replied v).readByte b j = if b = .rxp ∧ j = x.rx.cnt.toNat then 0#8 else x.readByte b j := by
  have hterminated : (x.replied v).readByte b j = x.terminate.readByte b j :=
    readByte_congr (by rw [terminate_frame]; rfl) (by rw [terminate_frame]; rfl) b j
  rw [hterminated, readByte_terminate]

theorem dispatch_of_done {s x : State} {l v : Byte} (hidle : s.active = false) (hlevel : s.env.level = .operation)
    (hkey : s.commandString l ≠ s.env.params.resetKeyword)
    (hrun : transaction l (s.requested l) = .done () x.terminate.reportReply)
    (hstatus : endedStatus (if x.rx.cnt < x.rx.len then x.ctl.status ||| bitShort else x.ctl.status) = v) :
    exec (.dispatch l) s = .next (x.replied v) := by
  rw [reportReply_terminate] at hrun
  exact next_congr (operate_of_done hidle hlevel (dispatchBody_of_command hkey) hrun hstatus)

/-! ### The header tail -/

/-- A full header tail is no short one, and the header decodes to the bytes received (R205, R206). -/
theorem headerDecoded_stored {v : State} (hsync : v.readByte .rxh 0 = Config.tagResponse) (c0 c1 c2 : Nat × Byte)
    (rest : List Byte) :
    (v.stored .rxh 1 [c0, c1, c2] rest).headerDecoded =
      (v.stored .rxh 1 [c0, c1, c2] rest).putReceived { type := 0x20#8, cid := c1.2 ++ c0.2, len := c2.2 } := by
  have hfull : (v.stored .rxh 1 [c0, c1, c2] rest).markShortHeader = v.stored .rxh 1 [c0, c1, c2] rest :=
    if_neg (show ¬ (BitVec.ofNat 8 3).toNat < 3 by decide)
  have hself := fun i hi => readByte_stored_self (b := .rxh) (base := 1) (as := [c0, c1, c2])
    (show 1 + 3 ≤ 4 by decide) rest v (i := i) hi
  have htype := (readByte_stored_other (b := .rxh) (b' := .rxh) (base := 1) (as := [c0, c1, c2])
    (.inr (.inl Nat.one_pos)) rest v).trans hsync
  have hbytes : (v.stored .rxh 1 [c0, c1, c2] rest).rxhBytes =
      { h0 := 0x20#8, h1 := c0.2, h2 := c1.2, h3 := c2.2 } := by
    simp only [State.rxhBytes, htype, HeaderBytes.mk.injEq]
    exact ⟨rfl, hself 0 (show 0 < 3 by decide), hself 1 (show 1 < 3 by decide), hself 2 (show 2 < 3 by decide)⟩
  rw [State.headerDecoded, hfull, hbytes]
  rfl

/-- The text stored reads back as it came. -/
theorem readRange_stored {b : Space} {base : Nat} {as : List (Nat × Byte)} (hsize : base + as.length ≤ b.size)
    (rest : List Byte) (s : State) : (s.stored b base as rest).readRange b base as.length = as.map Prod.snd := by
  refine List.ext_getElem (by simp) fun i hi _ => ?_
  rw [readRange_getElem, readByte_stored_self hsize rest s (by simpa using hi), List.getElem_map]

end Sys2Proof.Machine
end

section
/-! The ends of DISPATCH on the answers fixed ahead (44_orchestrator.md R204 to R210, R215): a full reply, a payload and
a header tail cut short, and no sync byte within the limit. -/

namespace Sys2Proof.Machine

/-! ### A full header -/

/-- The state in which the payload of a full header is received (R206). -/
def State.headed (v : State) (c0 c1 c2 : Nat × Byte) (rest : List Byte) : State :=
  (v.stored .rxh 1 [c0, c1, c2] rest).putReceived { type := 0x20#8, cid := c1.2 ++ c0.2, len := c2.2 }

theorem receiveReply_of_header {v x : State} (hsync : v.readByte .rxh 0 = Config.tagResponse) {c0 c1 c2 : Nat × Byte}
    {more : List (Nat × Byte)} {rest : List Byte}
    (hans : AnsweredWithin v.env.params.retryLimit (c0 :: c1 :: c2 :: more))
    (heod : ∀ a ∈ [c0, c1, c2], a.2 ≠ Config.endOfData)
    (hp : v.env.peer = allAnswers (c0 :: c1 :: c2 :: more) ++ rest)
    (hpayload : recvPayload c2.2.toNat (v.headed c0 c1 c2 (allAnswers more ++ rest)) = .done () x) :
    receiveReply v = .done () x.terminate.reportReply := by
  have hpeer : v.env.peer = allAnswers [c0, c1, c2] ++ (allAnswers more ++ rest) := by
    rw [hp, ← List.append_assoc, ← allAnswers_append]
    rfl
  have hheader := recvBytes_all .rxh 1 _ (answeredWithin_append (as := [c0, c1, c2]).mp hans).1 heod hpeer
    (show 3 ≤ 255 by decide)
  refine receiveReply_of_parts hheader ?_
  rw [headerDecoded_stored hsync]
  exact hpayload

/-- The header tail stands in `RXH` after the sync byte. -/
theorem readByte_headed (v : State) (c0 c1 c2 : Nat × Byte) (rest : List Byte) (b : Space) (j : Nat) :
    (v.headed c0 c1 c2 rest).readByte b j =
      if b = .rxh ∧ j = 1 then c0.2 else if b = .rxh ∧ j = 2 then c1.2 else if b = .rxh ∧ j = 3 then c2.2
      else v.readByte b j := by
  have hread : (v.headed c0 c1 c2 rest).readByte b j = (v.stored .rxh 1 [c0, c1, c2] rest).readByte b j :=
    readByte_congr (by rfl) (by rfl) ..
  have hself := fun i hi => readByte_stored_self (b := .rxh) (base := 1) (as := [c0, c1, c2])
    (show 1 + 3 ≤ 4 by decide) rest v (i := i) hi
  rw [hread]
  by_cases hb : b = .rxh
  · subst hb
    by_cases hj : j = 1 ∨ j = 2 ∨ j = 3
    · obtain rfl | rfl | rfl := hj
      · exact hself 0 (show 0 < 3 by decide)
      · exact hself 1 (show 1 < 3 by decide)
      · exact hself 2 (show 2 < 3 by decide)
    · rw [readByte_stored_other (.inr (by simp only [List.length_cons, List.length_nil]; omega))]
      simp only [true_and]
      rw [if_neg (by omega), if_neg (by omega), if_neg (by omega)]
  · rw [readByte_stored_other (.inl hb)]
    simp [hb]

/-- DISPATCH on a full header, by what the receive of its payload leaves of the state it starts in. -/
theorem dispatch_of_payload {l : Byte} {send noise more : List (Nat × Byte)} {k : Nat} {c0 c1 c2 : Nat × Byte}
    {rest : List Byte} {s : State} (hidle : s.active = false) (hlevel : s.env.level = .operation)
    (hkey : s.commandString l ≠ s.env.params.resetKeyword) (hsend : send.length = 4 + l.toNat)
    (hnoise : ∀ a ∈ noise, a.2 ≠ 0x20#8) (heod : ∀ a ∈ [c0, c1, c2], a.2 ≠ 0xFF#8)
    (hans : Answered s.env.params.retryLimit (send ++ noise ++ (k, 0x20#8) :: c0 :: c1 :: c2 :: more))
    (hlimit : ∀ n, s.env.params.syncLimit = some n → noise.length < n)
    (hp : s.env.peer = allAnswers (send ++ noise ++ (k, 0x20#8) :: c0 :: c1 :: c2 :: more) ++ rest)
    {x : State → State} {status : Byte}
    (hpayload : ∀ v : State, v.env.params = s.env.params →
      recvPayload c2.2.toNat (v.headed c0 c1 c2 (allAnswers more ++ rest)) = .done () (x v))
    (hstatus : ∀ v : State, v.ctl.status = acceptedStatus →
      endedStatus (if (x v).rx.cnt < (x v).rx.len then (x v).ctl.status ||| bitShort else (x v).ctl.status) = status) :
    ∃ link att, exec (.dispatch l) s = .next ((x (s.synced l link att send (noise ++ [(k, 0x20#8)])
      (allAnswers (c0 :: c1 :: c2 :: more) ++ rest))).replied status) := by
  obtain ⟨hreply, link, att, hrun⟩ := transaction_to_reply hans hsend hnoise hlimit hp
  have hframe := synced_frame s l link att send (noise ++ [(k, 0x20#8)]) (allAnswers (c0 :: c1 :: c2 :: more) ++ rest)
  have hreceived := receiveReply_of_header (more := more) (rest := rest)
    (v := s.synced l link att send (noise ++ [(k, 0x20#8)]) (allAnswers (c0 :: c1 :: c2 :: more) ++ rest))
    (by rw [readByte_synced, if_pos ⟨rfl, rfl⟩]) (by rw [hframe]; exact hreply) heod (by rw [hframe])
    (hpayload _ (by rw [hframe]))
  exact ⟨link, att, dispatch_of_done hidle hlevel hkey (hrun.trans hreceived) (hstatus _ (by rw [hframe]))⟩

/-! ### A full reply -/

/-- The state once a full reply is received and counted, `pay` its payload. -/
def State.replyHeard (v : State) (c0 c1 c2 : Nat × Byte) (pay : List (Nat × Byte)) (rest : List Byte) : State :=
  ((v.headed c0 c1 c2 (allAnswers pay ++ rest)).stored .rxp 0 pay rest).countStored

theorem replyHeard_frame (v : State) (c0 c1 c2 : Nat × Byte) (pay : List (Nat × Byte)) (rest : List Byte) :
    v.replyHeard c0 c1 c2 pay rest = { v with
      link := (v.replyHeard c0 c1 c2 pay rest).link
      rx := { type := 0x20#8, cid := c1.2 ++ c0.2, len := c2.2, cnt := BitVec.ofNat 8 pay.length }
      seq := (v.replyHeard c0 c1 c2 pay rest).seq
      att := (v.replyHeard c0 c1 c2 pay rest).att
      mem := (v.replyHeard c0 c1 c2 pay rest).mem
      trace := v.trace ++ recvTrace v.env.params.filler (c0 :: c1 :: c2 :: pay)
      env := { v.env with peer := rest } } := by
  have htrace : recvTrace v.env.params.filler (c0 :: c1 :: c2 :: pay) =
      pairsTrace (fillerPairs v.env.params.filler [c0, c1, c2]) ++
        pairsTrace (fillerPairs v.env.params.filler pay) := by
    rw [pairsTrace_fillerPairs, pairsTrace_fillerPairs, ← recvTrace_append]
    rfl
  rw [htrace, ← List.append_assoc]
  rfl

theorem replyHeard_link (v : State) (c0 c1 c2 : Nat × Byte) (pay : List (Nat × Byte)) (rest : List Byte) :
    (v.replyHeard c0 c1 c2 pay rest).link.frame = false ∧
      (v.replyHeard c0 c1 c2 pay rest).link.txb = v.env.params.filler := by
  have hpairs : (v.replyHeard c0 c1 c2 pay rest).link =
      linkAfter (linkAfter v.link (fillerPairs v.env.params.filler [c0, c1, c2]))
        (fillerPairs v.env.params.filler pay) := rfl
  rw [hpairs]
  cases hlast : pay.getLast? with
  | none =>
    rw [List.getLast?_eq_none_iff.mp hlast]
    exact ⟨rfl, rfl⟩
  | some a =>
    rw [linkAfter_fillerPairs_getLast hlast]
    exact ⟨rfl, rfl⟩

theorem recvPayload_replyHeard {v : State} {c0 c1 c2 : Nat × Byte} {pay : List (Nat × Byte)} (rest : List Byte)
    (hans : AnsweredWithin v.env.params.retryLimit pay) (heod : ∀ a ∈ pay, a.2 ≠ Config.endOfData)
    (hlen : pay.length = c2.2.toNat) :
    recvPayload c2.2.toNat (v.headed c0 c1 c2 (allAnswers pay ++ rest)) =
      .done () (v.replyHeard c0 c1 c2 pay rest) := by
  have hstored := recvBytes_all .rxp 0 rest (s := v.headed c0 c1 c2 (allAnswers pay ++ rest)) hans heod rfl
    (hlen ▸ toNat_le_255 c2.2)
  rw [hlen] at hstored
  exact recvPayload_of_done hstored

/-- What the memory reads once a payload is stored. -/
theorem readByte_payload {q : State} {pay : List (Nat × Byte)} (rest : List Byte) (hlen : pay.length ≤ 255) (b : Space)
    (j : Nat) :
    (q.stored .rxp 0 pay rest).readByte b j =
      if h : b = .rxp ∧ j < pay.length then pay[j].2 else q.readByte b j := by
  split_ifs with h
  · obtain ⟨rfl, hj⟩ := h
    have hstored := readByte_stored_self (b := .rxp) (base := 0) (show 0 + pay.length ≤ 256 by omega) rest q hj
    rwa [Nat.zero_add] at hstored
  · exact readByte_stored_other (by
      by_cases hb : b = .rxp
      · exact .inr (.inr (by have := not_and.mp h hb; omega))
      · exact .inl hb) _ _

/-- The record of the reply is its header and the payload as it came. -/
theorem renderReply_payload {q x : State} {c0 c1 c2 : Nat × Byte} {pay : List (Nat × Byte)} {rest : List Byte}
    (hlen : pay.length ≤ 255)
    (hrx : x.rx = { type := 0x20#8, cid := c1.2 ++ c0.2, len := c2.2, cnt := BitVec.ofNat 8 pay.length })
    (hread : ∀ b j, x.readByte b j = (q.stored .rxp 0 pay rest).readByte b j) :
    x.renderReply = { type := 0x20#8, cid := c1.2 ++ c0.2, len := c2.2, text := pay.map Prod.snd } := by
  have hcount : (BitVec.ofNat 8 pay.length).toNat = pay.length := by rw [BitVec.toNat_ofNat]; omega
  have htext := readRange_stored (b := .rxp) (base := 0) (show 0 + pay.length ≤ 256 by omega) rest q
  rw [State.renderReply, hrx]
  simp only [hcount, Render.mk.injEq, true_and]
  exact (readRange_agree fun i _ => hread .rxp _).trans htext

theorem readByte_replyHeard (v : State) (c0 c1 c2 : Nat × Byte) (pay : List (Nat × Byte)) (rest : List Byte) (b : Space)
    (j : Nat) :
    (v.replyHeard c0 c1 c2 pay rest).readByte b j =
      ((v.headed c0 c1 c2 (allAnswers pay ++ rest)).stored .rxp 0 pay rest).readByte b j :=
  readByte_congr (by rfl) (by rfl) ..

/-- What the bytes read once a reply is delivered, its payload received in `x`: `TXH`, `RXH`, and `RXP` around the
terminator. -/
theorem readByte_replied_headed {s x v : State} {l st : Byte} {link : Link} {att : Nat} {send polls : List (Nat × Byte)}
    {c0 c1 c2 : Nat × Byte} {pay : List (Nat × Byte)} {r r' rest : List Byte} (hlen : pay.length ≤ 255)
    (hv : s.synced l link att send polls r = v) (hcnt : x.rx.cnt = BitVec.ofNat 8 pay.length)
    (hread : ∀ b j, x.readByte b j = ((v.headed c0 c1 c2 r').stored .rxp 0 pay rest).readByte b j) :
    (x.replied st).readRange .txh 0 4 = [0x10#8, 0x00#8, 0x00#8, l] ∧
    (x.replied st).readRange .rxh 0 4 = [0x20#8, c0.2, c1.2, c2.2] ∧
    (∀ i (h : i < pay.length), (x.replied st).readByte .rxp i = pay[i].2) ∧
    (x.replied st).readByte .rxp pay.length = 0x00#8 ∧
    (∀ i, pay.length < i → (x.replied st).readByte .rxp i = s.readByte .rxp i) := by
  have hcount : x.rx.cnt.toNat = pay.length := by
    rw [hcnt, BitVec.toNat_ofNat]
    omega
  have hx := fun b j => (hread b j).trans (readByte_payload (q := v.headed c0 c1 c2 r') rest hlen b j)
  subst hv
  refine ⟨?txh, ?rxh, fun i hi => ?text, ?ended, fun i hi => ?others⟩
  case txh =>
    simp only [State.readRange, readByte_replied, hx, readByte_headed, readByte_synced, readByte_requested]
    rfl
  case rxh =>
    simp only [State.readRange, readByte_replied, hx, readByte_headed, readByte_synced, readByte_requested]
    rfl
  case text =>
    rw [readByte_replied, hcount, if_neg (by omega), hx, dif_pos ⟨rfl, hi⟩]
  case ended => rw [readByte_replied, hcount, if_pos ⟨rfl, rfl⟩]
  case others =>
    rw [readByte_replied, hcount, if_neg (by omega), hx, dif_neg (by omega), readByte_headed, readByte_synced,
      readByte_requested]
    simp

/-- What DISPATCH keeps, told of the state its step leaves. -/
theorem dispatchKept_of_exec {l : Byte} {s t : State} (h : exec (.dispatch l) s = .next t) : s.DispatchKept l t := by
  obtain ⟨u, rfl, hkept, -⟩ := dispatch_cases l s
  exact Host.Outcome.next.inj h ▸ hkept

/-- Settles O31: the payload receive finds as many bytes as declared, so `SHORT` is not set. -/
theorem dispatchDeliversReply : Obligations.DispatchDeliversReply := by
  intro l send noise pay k c0 c1 c2 rest s replies hidle hlevel hkey hsend hpay hnoise heod hans hlimit hp
  have hlen : pay.length ≤ 255 := hpay ▸ toNat_le_255 c2.2
  have hcnt : BitVec.ofNat 8 pay.length = c2.2 := by rw [hpay, BitVec.ofNat_toNat, BitVec.setWidth_eq]
  have hpayAns : AnsweredWithin s.env.params.retryLimit pay := fun a ha => hans.within a (by simp [replies, ha])
  obtain ⟨link, att, hexec⟩ := dispatch_of_payload hidle hlevel hkey hsend hnoise
    (fun a ha => heod a (List.mem_append_left pay ha)) hans hlimit hp (x := fun v => v.replyHeard c0 c1 c2 pay rest)
    (status := 0x02#8)
    (fun v hv => recvPayload_replyHeard rest (by rwa [hv]) (fun a ha => heod a (by simp [ha])) hpay)
    (fun v hv => by rw [replyHeard_frame, hcnt, if_neg (BitVec.lt_irrefl _), hv]; rfl)
  have hkept := dispatchKept_of_exec hexec
  have hframe := synced_frame s l link att send (noise ++ [(k, 0x20#8)]) (allAnswers (c0 :: c1 :: c2 :: pay) ++ rest)
  generalize hv : s.synced l link att send (noise ++ [(k, 0x20#8)])
    (allAnswers (c0 :: c1 :: c2 :: pay) ++ rest) = v at *
  have hlink := replyHeard_link v c0 c1 c2 pay rest
  have hheard := replyHeard_frame v c0 c1 c2 pay rest
  have hread := readByte_replyHeard v c0 c1 c2 pay rest
  generalize v.replyHeard c0 c1 c2 pay rest = x at *
  have hreply := renderReply_payload hlen (by rw [hheard]) hread
  obtain ⟨htxh, hrxh, htext, hterm, hothers⟩ := readByte_replied_headed (st := 0x02#8) hlen hv (by rw [hheard]) hread
  refine ⟨_, hexec, ?trace, htxh, hrxh, htext, hterm, hothers, hkept.txp, hkept.cmdbuf, hlink.1, ?txb, ?state⟩
  case trace =>
    show x.trace = _
    rw [hheard, hframe]
    rfl
  case txb =>
    refine hlink.2.trans ?_
    rw [hframe]
  case state =>
    rw [State.replied, hreply, hheard, hcnt, hframe, List.length_append]
    rfl

/-! ### A payload cut short -/

/-- The state once `END_OF_DATA` has ended the payload and what came is counted. -/
def State.replyCut (v : State) (c0 c1 c2 : Nat × Byte) (pay : List (Nat × Byte)) (j : Nat) (rest : List Byte) : State :=
  ((((v.headed c0 c1 c2 (allAnswers (pay ++ [(j, Config.endOfData)]) ++ rest)).stored .rxp 0 pay
    (byteAnswers (j, Config.endOfData) ++ rest)).byteDone v.env.params.filler (j, Config.endOfData) rest).raiseFlag
      bitEod).countStored

theorem recvPayload_replyCut {v : State} {c0 c1 c2 : Nat × Byte} {pay : List (Nat × Byte)} {j : Nat} (rest : List Byte)
    (hans : AnsweredWithin v.env.params.retryLimit (pay ++ [(j, Config.endOfData)]))
    (heod : ∀ a ∈ pay, a.2 ≠ Config.endOfData) (hlen : pay.length < c2.2.toNat) :
    recvPayload c2.2.toNat (v.headed c0 c1 c2 (allAnswers (pay ++ [(j, Config.endOfData)]) ++ rest)) =
      .done () (v.replyCut c0 c1 c2 pay j rest) :=
  recvPayload_of_done (recvBytes_sentinel .rxp 0 rest
    (s := v.headed c0 c1 c2 (allAnswers (pay ++ [(j, Config.endOfData)]) ++ rest)) hans heod rfl hlen
    (toNat_le_255 c2.2))

theorem replyCut_frame (v : State) (c0 c1 c2 : Nat × Byte) (pay : List (Nat × Byte)) (j : Nat) (rest : List Byte) :
    v.replyCut c0 c1 c2 pay j rest = { v with
      link := (v.replyCut c0 c1 c2 pay j rest).link
      rx := { type := 0x20#8, cid := c1.2 ++ c0.2, len := c2.2, cnt := BitVec.ofNat 8 pay.length }
      ctl := { v.ctl with status := v.ctl.status ||| bitEod }
      seq := (v.replyCut c0 c1 c2 pay j rest).seq
      att := (v.replyCut c0 c1 c2 pay j rest).att
      mem := (v.replyCut c0 c1 c2 pay j rest).mem
      trace := (v.replyCut c0 c1 c2 pay j rest).trace
      env := { v.env with peer := rest } } := rfl

theorem readByte_replyCut (v : State) (c0 c1 c2 : Nat × Byte) (pay : List (Nat × Byte)) (j : Nat) (rest : List Byte)
    (b : Space) (i : Nat) :
    (v.replyCut c0 c1 c2 pay j rest).readByte b i =
      ((v.headed c0 c1 c2 (allAnswers (pay ++ [(j, Config.endOfData)]) ++ rest)).stored .rxp 0 pay
        (byteAnswers (j, Config.endOfData) ++ rest)).readByte b i :=
  readByte_congr (by rfl) (by rfl) ..

/-- Settles O32: fewer bytes came than declared, so `EOD` and `SHORT` are both set. -/
theorem dispatchDeliversTruncatedPayload : Obligations.DispatchDeliversTruncatedPayload := by
  intro l send noise pay k j c0 c1 c2 rest s replies hidle hlevel hkey hsend hpay hnoise heod hans hlimit hp
  have hlen : pay.length ≤ 255 := Nat.le_of_lt (hpay.trans_le (toNat_le_255 c2.2))
  have hshort : BitVec.ofNat 8 pay.length < c2.2 := by
    rw [BitVec.lt_def, BitVec.toNat_ofNat]
    omega
  have hpayAns : AnsweredWithin s.env.params.retryLimit (pay ++ [(j, Config.endOfData)]) :=
    fun a ha => hans.within a (List.mem_append_right _ (List.mem_append_right [(k, 0x20#8), c0, c1, c2] ha))
  obtain ⟨link, att, hexec⟩ := dispatch_of_payload hidle hlevel hkey hsend hnoise
    (fun a ha => heod a (List.mem_append_left pay ha)) hans hlimit hp (x := fun v => v.replyCut c0 c1 c2 pay j rest)
    (status := 0x16#8)
    (fun v hv => recvPayload_replyCut rest (by rwa [hv]) (fun a ha => heod a (by simp [ha])) hpay)
    (fun v hv => by
      rw [replyCut_frame, if_pos hshort, hv]
      exact show endedStatus (acceptedStatus ||| bitEod ||| bitShort) = 0x16#8 by decide)
  have hframe := synced_frame s l link att send (noise ++ [(k, 0x20#8)])
    (allAnswers (c0 :: c1 :: c2 :: (pay ++ [(j, 0xFF#8)])) ++ rest)
  generalize hv : s.synced l link att send (noise ++ [(k, 0x20#8)])
    (allAnswers (c0 :: c1 :: c2 :: (pay ++ [(j, 0xFF#8)])) ++ rest) = v at *
  have hcut := replyCut_frame v c0 c1 c2 pay j rest
  have hread := readByte_replyCut v c0 c1 c2 pay j rest
  generalize v.replyCut c0 c1 c2 pay j rest = x at *
  have hreply := renderReply_payload hlen (by rw [hcut]) hread
  obtain ⟨-, -, htext, hterm, hothers⟩ := readByte_replied_headed (st := 0x16#8) hlen hv (by rw [hcut]) hread
  refine ⟨_, hexec, htext, hterm, hothers, ?rx, ?ctl, rfl, ?env, ?front⟩
  case rx =>
    show x.rx = _
    rw [hcut]
  case ctl =>
    rw [State.replied, hcut, hframe]
    rfl
  case env =>
    show x.env = _
    rw [hcut, hframe]
  case front =>
    rw [State.replied, hreply, hcut, hframe]

/-! ### A header tail cut short -/

/-- The state once `END_OF_DATA` has ended the header tail. -/
def State.tailCut (v : State) (tail : List (Nat × Byte)) (j : Nat) (rest : List Byte) : State :=
  ((v.stored .rxh 1 tail (byteAnswers (j, Config.endOfData) ++ rest)).byteDone v.env.params.filler
    (j, Config.endOfData) rest).raiseFlag bitEod

theorem readByte_tailCut {v : State} {tail : List (Nat × Byte)} (hlen : tail.length < 3) (j : Nat) (rest : List Byte)
    (b : Space) (i : Nat) :
    (v.tailCut tail j rest).readByte b i =
      if h : b = .rxh ∧ 1 ≤ i ∧ i - 1 < tail.length then tail[i - 1].2 else v.readByte b i := by
  have hread : (v.tailCut tail j rest).readByte b i =
      (v.stored .rxh 1 tail (byteAnswers (j, Config.endOfData) ++ rest)).readByte b i :=
    readByte_congr (by rfl) (by rfl) ..
  rw [hread]
  split_ifs with h
  · obtain ⟨rfl, hpos, hi⟩ := h
    have hstored := readByte_stored_self (b := .rxh) (base := 1) (show 1 + tail.length ≤ 4 by omega)
      (byteAnswers (j, Config.endOfData) ++ rest) v hi
    rwa [Nat.add_sub_cancel' hpos] at hstored
  · exact readByte_stored_other (by
      by_cases hb : b = .rxh
      · exact .inr (by have := not_and.mp h hb; omega)
      · exact .inl hb) _ _

/-- The header a short tail decodes to: the sync byte, what came of the correlation id, and the length 0. -/
def State.shortHeader (h : State) : Header where
  type := 0x20#8
  cid := h.readByte .rxh 2 ++ h.readByte .rxh 1
  len := 0#8

/-- The state once the payload of length 0 is received after a short header. -/
def State.cutDecoded (v : State) (tail : List (Nat × Byte)) (j : Nat) (rest : List Byte) : State :=
  ((((v.tailCut tail j rest).raiseFlag bitHdrShort).putReceived (v.tailCut tail j rest).shortHeader).setIdx
    0#8).countStored

/-- The bytes that did not come read 0, so the declared length is 0 (log 14). -/
theorem headerDecoded_tailCut {v : State} (hsync : v.readByte .rxh 0 = Config.tagResponse)
    (hzero : v.readByte .rxh 3 = 0#8) {tail : List (Nat × Byte)} (hlen : tail.length < 3) (j : Nat)
    (rest : List Byte) :
    (v.tailCut tail j rest).headerDecoded =
      ((v.tailCut tail j rest).raiseFlag bitHdrShort).putReceived (v.tailCut tail j rest).shortHeader := by
  have hshort : (v.tailCut tail j rest).markShortHeader = (v.tailCut tail j rest).raiseFlag bitHdrShort :=
    if_pos (show (BitVec.ofNat 8 tail.length).toNat < 3 by rw [BitVec.toNat_ofNat]; omega)
  have htype : (v.tailCut tail j rest).readByte .rxh 0 = 0x20#8 := by
    rw [readByte_tailCut hlen, dif_neg (by omega)]
    exact hsync
  have hlast : (v.tailCut tail j rest).readByte .rxh 3 = 0#8 := by
    rw [readByte_tailCut hlen, dif_neg (by omega), hzero]
  have hread : ∀ i, ((v.tailCut tail j rest).raiseFlag bitHdrShort).readByte .rxh i =
      (v.tailCut tail j rest).readByte .rxh i := fun _ => rfl
  rw [State.headerDecoded, hshort]
  simp only [State.rxhBytes, hread, htype, hlast, decodeHeader, State.shortHeader]

theorem receiveReply_tailCut {v : State} (hsync : v.readByte .rxh 0 = Config.tagResponse)
    (hzero : v.readByte .rxh 3 = 0#8) {tail : List (Nat × Byte)} (hlen : tail.length < 3) {j : Nat}
    {rest : List Byte} (hans : AnsweredWithin v.env.params.retryLimit (tail ++ [(j, Config.endOfData)]))
    (heod : ∀ a ∈ tail, a.2 ≠ Config.endOfData)
    (hp : v.env.peer = allAnswers (tail ++ [(j, Config.endOfData)]) ++ rest) :
    receiveReply v = .done () (v.cutDecoded tail j rest).terminate.reportReply := by
  refine receiveReply_of_parts (h := v.tailCut tail j rest)
    (recvBytes_sentinel .rxh 1 rest hans heod hp hlen (by decide)) ?_
  rw [headerDecoded_tailCut hsync hzero hlen]
  rfl

theorem cutDecoded_frame (v : State) (tail : List (Nat × Byte)) (j : Nat) (rest : List Byte) :
    v.cutDecoded tail j rest = { v with
      link := (v.cutDecoded tail j rest).link
      rx := { type := 0x20#8, len := 0#8, cnt := 0#8, cid :=
        (v.cutDecoded tail j rest).readByte .rxh 2 ++ (v.cutDecoded tail j rest).readByte .rxh 1 }
      ctl := { v.ctl with status := v.ctl.status ||| bitEod ||| bitHdrShort }
      seq := (v.cutDecoded tail j rest).seq
      att := (v.cutDecoded tail j rest).att
      mem := (v.cutDecoded tail j rest).mem
      trace := (v.cutDecoded tail j rest).trace
      env := { v.env with peer := rest } } := rfl

/-- Settles O33: the missing bytes of `RXH` were cleared with the request, so no payload is received. -/
theorem dispatchReportsShortHeader : Obligations.DispatchReportsShortHeader := by
  intro l send noise tail k j rest s replies hidle hlevel hkey hsend htail hnoise heod hans hlimit hp
  obtain ⟨hreply, link, att, hrun⟩ := transaction_to_reply hans hsend hnoise hlimit hp
  have hrun : transaction l (s.requested l) = receiveReply (s.synced l link att send (noise ++ [(k, 0x20#8)])
    (allAnswers (tail ++ [(j, 0xFF#8)]) ++ rest)) := hrun
  have hframe := synced_frame s l link att send (noise ++ [(k, 0x20#8)])
    (allAnswers (tail ++ [(j, 0xFF#8)]) ++ rest)
  have hsynced := readByte_synced s l link att send (noise ++ [(k, 0x20#8)])
    (allAnswers (tail ++ [(j, 0xFF#8)]) ++ rest)
  generalize s.synced l link att send (noise ++ [(k, 0x20#8)]) (allAnswers (tail ++ [(j, 0xFF#8)]) ++ rest) = v at *
  have hreceived := receiveReply_tailCut (v := v) (j := j) (rest := rest) (by rw [hsynced, if_pos ⟨rfl, rfl⟩])
    (by rw [hsynced, if_neg (by simp), readByte_requested, if_pos ⟨rfl, by decide⟩]) htail
    (by rw [hframe]; exact hreply) heod (by rw [hframe]; rfl)
  have hcut := cutDecoded_frame v tail j rest
  have hread : ∀ b i, (v.cutDecoded tail j rest).readByte b i = (v.tailCut tail j rest).readByte b i := fun _ _ => rfl
  generalize v.cutDecoded tail j rest = x at *
  have hexec := dispatch_of_done (v := 0x0E#8) hidle hlevel hkey (hrun.trans hreceived) (by
    rw [hcut, if_neg (BitVec.lt_irrefl _), hframe]
    exact show endedStatus (acceptedStatus ||| bitEod ||| bitHdrShort) = 0x0E#8 by decide)
  have hrx := congrArg State.rx hcut
  have hcount : x.rx.cnt.toNat = 0 := congrArg (fun r : RxMessage => r.cnt.toNat) hrx
  have hbyte : ∀ b i, b ≠ .rxp ∨ i ≠ 0 → (x.replied 0x0E#8).readByte b i = (v.tailCut tail j rest).readByte b i :=
    fun b i hne => by rw [readByte_replied, hcount, if_neg (by tauto), hread]
  refine ⟨_, hexec, ?sync, fun i hi => ?tail, fun i hi hi' => ?zeros, ?type, ?cid, ?len, ?cnt, ?ended,
    fun i hi => ?others, ?ctl, rfl, ?env, ?front⟩
  case sync =>
    rw [hbyte _ _ (.inl (by decide)), readByte_tailCut htail, dif_neg (by omega), hsynced, if_pos ⟨rfl, rfl⟩]
    rfl
  case tail =>
    rw [hbyte _ _ (.inl (by decide)), readByte_tailCut htail, dif_pos ⟨rfl, by omega, by omega⟩]
    simp only [Nat.add_sub_cancel_left]
  case zeros =>
    rw [hbyte _ _ (.inl (by decide)), readByte_tailCut htail, dif_neg (by omega), hsynced, if_neg (by omega),
      readByte_requested, if_pos ⟨rfl, by omega⟩]
  case type => exact congrArg RxMessage.type hrx
  case cid =>
    rw [hbyte _ _ (.inl (by decide)), hbyte _ _ (.inl (by decide)), ← hread, ← hread]
    exact congrArg RxMessage.cid hrx
  case len => exact congrArg RxMessage.len hrx
  case cnt => exact congrArg RxMessage.cnt hrx
  case ended => rw [readByte_replied, hcount, if_pos ⟨rfl, rfl⟩]
  case others =>
    rw [hbyte _ _ (.inr (by omega)), readByte_tailCut htail, dif_neg (by simp), hsynced, if_neg (by simp),
      readByte_requested]
    simp
  case ctl =>
    rw [State.replied, hcut, hframe]
    rfl
  case env =>
    show x.env = _
    rw [hcut, hframe]
  case front =>
    have hrecord : x.renderReply = { type := 0x20#8, cid := x.rx.cid, len := 0#8, text := [] } := by
      rw [State.renderReply, hcount, hcut]
      rfl
    have hfront : x.front = s.front := by rw [hcut, hframe]
    rw [State.replied, hrecord, hfront]

end Sys2Proof.Machine
end

section
/-! DISPATCH that finds no sync byte within the limit, and what a DISPATCH that completes has sent first
(44_orchestrator.md R202, R203, R215). -/

namespace Sys2Proof.Machine

/-! ### No sync byte -/

theorem cells_writeRange_other {b b' : Space} (h : b' ≠ b) (s : State) (a : Nat) (vs : List Byte) :
    (s.writeRange b a vs).mem.cells b' = s.mem.cells b' := by
  induction vs generalizing s a with
  | nil => rfl
  | cons v vs ih => exact (ih (s.writeByte b a v) (a + 1)).trans (cells_write_other h s.mem a v)

/-- The request is written to the two header buffers alone. -/
theorem cells_requested {b : Space} (htxh : b ≠ .txh) (hrxh : b ≠ .rxh) (s : State) (l : Byte) :
    (s.requested l).mem.cells b = s.mem.cells b :=
  (cells_writeRange_other hrxh _ _ _).trans (cells_writeRange_other htxh _ _ _)

theorem transaction_syncTimeout {l : Byte} {send noise : List (Nat × Byte)} {n : Nat} (hn : 1 ≤ n) {rest : List Byte}
    {s : State} (hans : Answered s.env.params.retryLimit (send ++ noise)) (hlen : send.length = 4 + l.toNat)
    (hnoise : ∀ a ∈ noise, a.2 ≠ Config.tagResponse) (hlimit : s.env.params.syncLimit = some n)
    (hpolls : noise.length = n) (hp : s.env.peer = allAnswers (send ++ noise) ++ rest) :
    ∃ link att, transaction l (s.requested l) = .timeout
      ((((s.requested l).talked link att
        (sendTrace (s.requestBytes l) send ++ pollTrace s.env.params.filler noise) rest).setIdx l).setPolls n) := by
  obtain ⟨hans₁, hans₂⟩ := answeredWithin_append.mp hans.within
  rw [allAnswers_append, List.append_assoc] at hp
  obtain ⟨link₁, att₁, hsent⟩ := transaction_sent _ hans₁ hlen hp
  have henv := requested_env s l
  obtain ⟨link, att, hlate⟩ := syncPoll_timeout hn rest
    (s := ((s.requested l).talked link₁ att₁ (sendTrace (s.requestBytes l) send) (allAnswers noise ++ rest)).setIdx l)
    (by show AnsweredWithin (s.requested l).env.params.retryLimit _; rwa [henv]) hnoise
    (by show (s.requested l).env.params.syncLimit = some n; rwa [henv]) hpolls rfl
  refine ⟨link, att, ?_⟩
  rw [hsent, hlate, ← talked_talked _ link₁ link att₁ att _ _ (allAnswers noise ++ rest), ← henv]
  rfl

/-- Settles O34: the timeout writes `STATUS` and the sequencer alone on top of the request sent and the polls. -/
theorem dispatchSyncTimeout : Obligations.DispatchSyncTimeout := by
  intro l send noise n rest s hidle hlevel hkey hsend hnoise hn hlimit hpolls hans hp
  obtain ⟨link, att, hrun⟩ := transaction_syncTimeout hn hans hsend hnoise hlimit hpolls hp
  have hframe := requested_frame s l
  have hcells := fun b htxh hrxh => cells_requested (b := b) htxh hrxh s l
  have hread := readByte_requested s l .rxh
  have hbody := dispatchBody_of_command hkey
  generalize s.requested l = v at *
  have hended := operate_of_timeout hidle hlevel (body := dispatchBody l) hbody hrun (v := 0x22#8) (by
      show endedStatus (v.ctl.status ||| bitTimeout) = _
      rw [hframe]
      exact endedStatus_timeout)
  refine ⟨_, next_congr hended, ?trace, ?rxh, ?tx, ?rx, hcells .txp (by decide) (by decide),
    hcells .rxp (by decide) (by decide), hcells .cmdbuf (by decide) (by decide), rfl, ?ctl, rfl, ?env, ?front⟩
  case trace =>
    show v.trace ++ _ = _
    rw [hframe, List.append_assoc]
    rfl
  case rxh =>
    have hzero : v.readRange .rxh 0 4 = [0#8, 0#8, 0#8, 0#8] := by
      simp only [State.readRange, hread]
      rfl
    exact (readRange_congr (by rfl) (by rfl) ..).trans hzero
  case tx =>
    show v.tx = _
    rw [hframe]
    rfl
  case rx =>
    show v.rx = _
    rw [hframe]
    rfl
  case ctl =>
    show { v.ctl with status := 0x22#8 } = _
    rw [hframe]
    rfl
  case env =>
    show { v.env with peer := rest } = _
    rw [hframe]
    rfl
  case front =>
    show v.front = _
    rw [hframe]
    rfl

/-! ### What a DISPATCH that completes has sent -/

theorem deliveredBytes_append (es fs : List LinkEvent) :
    deliveredBytes (es ++ fs) = deliveredBytes es ++ deliveredBytes fs := by
  induction es with
  | nil => rfl
  | cons e es ih =>
    cases e with
    | xchg t r =>
      simp only [List.cons_append, deliveredBytes, ih]
      split_ifs <;> rfl
    | _ => simpa only [List.cons_append, deliveredBytes] using ih

/-- A byte delivers itself, whatever `BUSY` answers come before. -/
theorem deliveredBytes_byteTrace (t : Byte) (k : Nat) {r : Byte} (hr : r ≠ Config.busy) :
    deliveredBytes (byteTrace t k r) = [t] := by
  induction k with
  | zero => simp [byteTrace, deliveredBytes, hr]
  | succ k ih => simpa [byteTrace, deliveredBytes] using ih

theorem deliveredBytes_sendTrace {limit : Option Nat} {as : List (Nat × Byte)} (hans : AnsweredWithin limit as)
    {bs : List Byte} (hlen : bs.length = as.length) : deliveredBytes (sendTrace bs as) = bs := by
  induction as generalizing bs with
  | nil =>
    rw [List.length_eq_zero_iff.mp hlen]
    rfl
  | cons a as ih =>
    cases bs with
    | nil => simp at hlen
    | cons b bs =>
      obtain ⟨ha, has⟩ := answeredWithin_cons.mp hans
      rw [sendTrace, deliveredBytes_append, deliveredBytes_byteTrace b a.1 ha.1, ih has (by simpa using hlen)]
      rfl

/-- A state after events that delivered `bytes`, the memory as it was. -/
structure State.Delivered (s : State) (bytes : List Byte) (u : State) : Prop where
  events : ∃ d, u.trace = s.trace ++ d ∧ deliveredBytes d = bytes
  mem : u.mem = s.mem
  epoch : u.env.epoch = s.env.epoch

theorem State.Delivered.trans {s u v : State} {bs cs : List Byte} (h : s.Delivered bs u) (h' : u.Delivered cs v) :
    s.Delivered (bs ++ cs) v := by
  obtain ⟨d, htrace, hd⟩ := h.events
  obtain ⟨e, htrace', he⟩ := h'.events
  exact ⟨⟨d ++ e, by rw [htrace', htrace, List.append_assoc], by rw [deliveredBytes_append, hd, he]⟩,
    h'.mem.trans h.mem, h'.epoch.trans h.epoch⟩

/-- `send_bytes` that comes to its end has delivered the bytes of the buffer. -/
theorem sendBytes_delivered (b : Space) {n : Nat} (hn : n ≤ 255) (s : State) :
    (sendBytes b n s).Ends (fun _ => s.Delivered (s.readRange b 0 n)) fun _ => True := by
  obtain ⟨as, rest, hlen, hans, hp, -⟩ | ⟨as, m, rest, t, -, -, -, -, -, h⟩ | ⟨-, h⟩ :=
    sendLoop_cases b n (s.setIdx 0#8)
  · obtain ⟨link, att, hsent⟩ := sendBytes_talked b (s := s) rest hans hp hlen hn
    rw [hsent]
    exact ⟨⟨_, rfl, deliveredBytes_sendTrace hans (by simp [hlen])⟩, rfl, rfl⟩
  · rw [sendBytes, h]
    trivial
  · rw [sendBytes, h]
    trivial

/-- A transaction that comes to its end has delivered the request header and the command before anything else. -/
theorem transaction_delivered (l : Byte) (u : State) :
    (transaction l u).Ends (fun _ v => ∃ d, v.trace = u.trace ++ d ∧
      u.readRange .txh 0 4 ++ u.readRange .txp 0 l.toNat <+: deliveredBytes d) fun _ => True := by
  rw [transaction_eq]
  refine (sendBytes_delivered .txh (by decide) u).andThen fun _ v hv =>
    (sendBytes_delivered .txp (toNat_le_255 l) v).andThen fun _ w hw => ?reply
  case reply =>
    have hsent := hv.trans hw
    rw [readRange_congr hv.mem hv.epoch] at hsent
    obtain ⟨d, htrace, hd⟩ := hsent.events
    refine ((syncPoll_underway (.refl w)).mono (fun _ _ h => h) fun _ _ => trivial).andThen fun _ x hx =>
      (receiveReply_underway hx).mono (fun _ y hy => ?_) fun _ _ => trivial
    obtain ⟨y', hy', rfl⟩ := hy
    obtain ⟨e, he⟩ := hy'.terminate.trace
    exact ⟨d ++ e, by rw [← List.append_assoc, ← htrace]; exact he.symm, by
      rw [deliveredBytes_append, hd]
      exact List.prefix_append ..⟩

/-- Settles O35: a run that ended without `TIMEOUT` came to its end, and its first deliveries are the two sends. -/
theorem dispatchSendsTheRequest : Obligations.DispatchSendsTheRequest := by
  intro l s t hidle hlevel hkey hexec hended htimeout
  obtain rfl := Host.Outcome.next.inj hexec
  obtain ⟨hactive, -⟩ | ⟨-, h, -⟩ | ⟨-, -, t, ht, h⟩ := operate_cases s (opWord 7#4 l) .keyChk (dispatchBody l)
  · simp [hidle] at hactive
  · simp [h, accept_active] at hended
  · rw [h] at htimeout ⊢
    obtain ⟨v, hv, rfl⟩ | ⟨v, hv, rfl⟩ := outcome_eq_some ((dispatchBody_of_command hkey).symm.trans ht)
    · obtain ⟨d, htrace, hd⟩ := (transaction_delivered l (s.requested l)).of_done hv
      rw [readRange_txh_requested, readRange_txp_requested] at hd
      have hlength : ([0x10#8, 0x00#8, 0x00#8, l] ++ s.commandString l).length = 4 + l.toNat := by
        simp [State.commandString]
        omega
      refine ⟨d, ?_, hlength ▸ (List.prefix_iff_eq_take.mp hd).symm⟩
      show v.trace = _
      rw [htrace, requested_frame]
      rfl
    · rw [timedOut_status_timeout] at htimeout
      cases htimeout

end Sys2Proof.Machine
end

section
/-! The two levels of the model agree (10_state.md R41; 41_transceiver.md R141; 44_orchestrator.md R212; log 1): wherever
an operation's pseudocode stands, the sequencer reaches the same data in the phase that runs it, action by action. -/

namespace Sys2Proof.Machine

/-! ### Reaching a state -/

/-- Some number of steps leads from one state to the other. -/
def State.Reaches (x y : State) : Prop := ∃ n, Host.Core.run Sys2Proof.core n x = .next y

theorem State.Reaches.refl (x : State) : x.Reaches x := ⟨0, rfl⟩

theorem State.Reaches.run {x y z : State} (h : x.Reaches y) {n : Nat}
    (hrun : Host.Core.run Sys2Proof.core n y = .next z) : x.Reaches z := by
  obtain ⟨m, hm⟩ := h
  exact ⟨m + n, (run_add hm n).trans hrun⟩

theorem State.Reaches.step {x y z : State} (h : x.Reaches y) (hstep : step y = .next z) : x.Reaches z :=
  h.run (n := 1) (run_step hstep 0)

/-- The data of a state of the pseudocode, seen at the sequencer level in a phase and a state of the byte engine. -/
def State.atPhase (u : State) (p : Phase) (e : ByteEngine) : State :=
  { u with seq := { phase := p, idx := u.seq.idx, be := e }, env := { u.env with level := .sequencer } }

/-- The sequencer, started in `x` with the word `w`, has come to rest in the phase `p` with the data of `u`. -/
structure State.At (x : State) (w : Half) (p : Phase) (u : State) : Prop where
  reached : x.Reaches (u.atPhase p .idle)
  inbox : u.env.inbox = []
  cmd : u.ctl.cmd = w

section
variable {x u v : State} {w : Half} {p q : Phase}

/-- The block acts in any phase but the idle one. -/
theorem State.At.block (h : x.At w p u) (hp : p ≠ .idle) {y : State}
    (hturn : (u.atPhase p .idle).blockTurn.outcome = .next y) : x.Reaches y :=
  h.reached.step ((step_block (s := u.atPhase p .idle) h.inbox (returnDue_of_phase_ne_idle hp)).trans hturn)

/-- A phase that runs the byte engine is entered. -/
theorem State.At.enter (h : x.At w p u) (hengine : p.usesEngine = true) : x.Reaches (u.atPhase p .idle).enterPhase :=
  h.reached.step (step_engineTurn (s := u.atPhase p .idle) h.inbox hengine)

/-! ### One byte -/

/-- The sequencer is about to make an attempt at the byte `b` that the phase `p` started with the data of `u`. -/
structure State.Attempting (x : State) (w : Half) (p : Phase) (b : Byte) (u v : State) : Prop where
  reached : x.Reaches (v.atPhase p .assert)
  inbox : v.env.inbox = []
  cmd : v.ctl.cmd = w
  byte : (v.atPhase p .assert).phaseByte = b
  idx : v.seq.idx = u.seq.idx
  rx : v.rx = u.rx

/-- The sequencer has handed the byte `r` to the phase `p`, which started it with the data of `u`. -/
structure State.Taken (x : State) (w : Half) (p : Phase) (u : State) (r : Byte) (v : State) : Prop where
  reached : x.Reaches ((v.atPhase p .check).takeByte r)
  inbox : v.env.inbox = []
  cmd : v.ctl.cmd = w
  idx : v.seq.idx = u.seq.idx
  rx : v.rx = u.rx

/-- The end of a byte that times out in the phase `p` (R138, R247). -/
def State.lateIn (p : Phase) (v : State) : State :=
  (if (v.atPhase p .check).storesPayload then v.countStored else v).timedOut.atLevel .sequencer

/-- `byte_xfer` is run by the byte engine, attempt by attempt. -/
theorem State.At.byteXfer (h : x.At w p u) (hengine : p.usesEngine = true)
    (hstart : (u.atPhase p .idle).enterPhase = (u.atPhase p .idle).startByte) {b : Byte}
    (hb : (u.atPhase p .idle).phaseByte = b) :
    (byteXfer b u).Ends (fun r v => x.Taken w p u r v) fun v => x.Reaches (v.lateIn p) := by
  have hentered := h.enter hengine
  rw [hstart] at hentered
  have hfirst : x.Attempting w p b u (u.setAtt 0) := ⟨hentered, h.inbox, h.cmd, hb, rfl, rfl⟩
  have hattempt : ∀ v r rest, x.Attempting w p b u v → v.env.peer = r :: rest →
      x.Reaches ((v.attempt b r rest).atPhase p .check) := fun v r rest hv hp => by
    have hrun := run_attempt (s := v.atPhase p .assert) hv.inbox hengine rfl hp
    rw [hv.byte] at hrun
    exact hv.reached.run hrun
  refine xferLoop_ends (P := x.Attempting w p b u) (fun v r rest hv hp hr => ?done) (fun v rest hv hp hlimit => ?late)
    (fun v rest hv hp hlimit => ?retry) _ _ rfl hfirst
  case done =>
    have hcheck := step_check_byte (s := (v.attempt b r rest).atPhase p .check) hv.inbox hengine rfl hr
    exact ⟨(hattempt v r rest hv hp).step hcheck, hv.inbox, hv.cmd, hv.idx, hv.rx⟩
  case late =>
    have hcheck := step_check_busy (s := (v.attempt b Config.busy rest).atPhase p .check) hv.inbox hengine rfl rfl
    obtain ⟨hnot, -⟩ | ⟨-, htake⟩ := takeBusy_cases (s := (v.attempt b Config.busy rest).atPhase p .check) hengine
    · exact absurd (hlimit.symm.trans hnot) (by simp)
    · rw [htake] at hcheck
      have hlate := (hattempt v Config.busy rest hv hp).step hcheck
      rw [State.lateIn]
      split_ifs at hlate ⊢ <;> exact hlate
  case retry =>
    have hrun := run_busyAttempt (s := v.atPhase p .assert) hv.inbox hengine rfl hp hlimit
    rw [hv.byte] at hrun
    exact ⟨hv.reached.run hrun, hv.inbox, hv.cmd, hv.byte, hv.idx, hv.rx⟩

/-- A byte taken with which the phase goes on, or goes on to another. -/
theorem State.Taken.at {r : Byte} (h : x.Taken w p u r v) {v' : State}
    (htake : (v.atPhase p .check).takeByte r = v'.atPhase q .idle) (hinbox : v'.env.inbox = v.env.inbox)
    (hcmd : v'.ctl.cmd = v.ctl.cmd) : x.At w q v' :=
  ⟨htake ▸ h.reached, hinbox.trans h.inbox, hcmd.trans h.cmd⟩

/-- An index that steps towards its bound. -/
theorem toNat_succ {i : Byte} {k n : Nat} (h : i.toNat + (k + 1) = n) (hn : n ≤ 255) :
    (i + 1#8).toNat + k = n := by
  have hlt : i.toNat + 1 < 2 ^ 8 := by omega
  rw [BitVec.toNat_add_of_lt hlt]
  have : (1#8).toNat = 1 := rfl
  omega

/-- An index at its bound, by the bytes to go. -/
theorem eq_bound_iff {i a : Byte} {k : Nat} (h : i.toNat + k = a.toNat) : i = a ↔ k = 0 := by
  rw [← BitVec.toNat_inj]
  omega

/-! ### Several bytes -/

/-- The sequencer in a phase that runs `k` bytes more, up to the bound of `IDX`; `ended` holds after the last. -/
structure State.Loops (x : State) (w : Half) (p : Phase) (bound : Byte) (ended : State → Prop) (k : Nat) (u : State) :
    Prop where
  running : k ≠ 0 → x.At w p u
  ended : k = 0 → ended u
  index : u.seq.idx.toNat + k = bound.toNat

variable {bound : Byte} {ended : State → Prop} {k : Nat}

/-- By the test of the bound. -/
theorem State.Loops.of_index (hindex : u.seq.idx.toNat + k = bound.toNat) (hlast : u.seq.idx = bound → ended u)
    (hmore : u.seq.idx ≠ bound → x.At w p u) : x.Loops w p bound ended k u :=
  ⟨fun hk => hmore fun heq => hk ((eq_bound_iff hindex).mp heq), fun hk => hlast ((eq_bound_iff hindex).mpr hk), hindex⟩

/-- One byte of the phase, its index counted. -/
theorem State.Loops.byte (h : x.Loops w p bound ended (k + 1) u) (hengine : p.usesEngine = true)
    (hstart : u.seq.idx ≠ bound → (u.atPhase p .idle).enterPhase = (u.atPhase p .idle).startByte) {b : Byte}
    (hb : (u.atPhase p .idle).phaseByte = b) :
    (Sys2Proof.Machine.byteXfer b u).Ends
      (fun r v => x.Taken w p u r v ∧ (v.seq.idx + 1#8).toNat + k = bound.toNat) fun v => x.Reaches (v.lateIn p) := by
  have hne : u.seq.idx ≠ bound := fun heq => by simpa using (eq_bound_iff h.index).mp heq
  exact ((h.running (by simp)).byteXfer hengine (hstart hne) hb).mono
    (fun r v hv => ⟨hv, hv.idx ▸ toNat_succ h.index (toNat_le_255 bound)⟩) fun _ hv => hv

/-! ### The send phase -/

/-- How many bytes a word of the send phase sends. -/
def sentBy (w : Half) : Byte := if opField w = 1#4 then 1#8 else argField w

theorem enterPhase_send (u : State) :
    (u.atPhase .send .idle).enterPhase = if u.seq.idx = sentBy u.ctl.cmd then u.completed.atLevel .sequencer
      else (u.atPhase .send .idle).startByte := rfl

theorem takeByte_atSend (v : State) (r : Byte) :
    (v.atPhase .send .check).takeByte r =
      if v.stepIdx.seq.idx = sentBy v.ctl.cmd then v.stepIdx.completed.atLevel .sequencer
      else v.stepIdx.atPhase .send .idle := rfl

theorem phaseByte_send (u : State) :
    (u.atPhase .send .idle).phaseByte =
      if opField u.ctl.cmd = 1#4 then argField u.ctl.cmd else u.readByte .txp u.seq.idx.toNat := rfl

/-- The sequencer sends; after the last byte the operation is completed. -/
abbrev State.Sends (x : State) (w : Half) : Nat → State → Prop :=
  x.Loops w .send (sentBy w) fun v => x.Reaches (v.completed.atLevel .sequencer)

theorem State.At.sends (h : x.At w .send u) (hindex : u.seq.idx.toNat + k = (sentBy w).toNat) : x.Sends w k u := by
  refine .of_index hindex (fun hlast => ?_) fun _ => h
  have hentered := h.enter rfl
  rwa [enterPhase_send, h.cmd, if_pos hlast] at hentered

/-- One byte sent. -/
theorem State.Loops.sendByte (h : x.Sends w (k + 1) u) {b : Byte} (hb : (u.atPhase .send .idle).phaseByte = b) :
    (Sys2Proof.Machine.byteXfer b u).Ends (fun _ v => x.Sends w k v.stepIdx)
      fun v => x.Reaches (v.timedOut.atLevel .sequencer) := by
  have hcmd := (h.running (by simp)).cmd
  refine (h.byte rfl (fun hne => by rw [enterPhase_send, hcmd, if_neg hne]) hb).mono (fun r v ⟨hv, hindex⟩ => ?taken)
    fun v hv => hv
  case taken =>
    have htake := takeByte_atSend v r
    rw [hv.cmd] at htake
    refine .of_index hindex (fun hlast => ?_) fun hmore => hv.at (htake.trans (if_neg hmore)) rfl rfl
    have hreached := hv.reached
    rwa [htake, if_pos hlast] at hreached

/-- SEND_BYTE at the two levels. -/
theorem State.At.sendByteBody {a : Byte} (h : x.At (opWord 1#4 a) .send u) (hidx : u.seq.idx = 0#8) {t : State}
    (ht : sendByteBody a u = some t) : x.Reaches (t.atLevel .sequencer) := by
  have hsends := h.sends (k := 1) (by rw [hidx, sentBy, opField_opWord]; rfl)
  have hb : (u.atPhase .send .idle).phaseByte = a := by
    rw [phaseByte_send, h.cmd, opField_opWord, argField_opWord]
    rfl
  have hrun : ((Sys2Proof.Machine.byteXfer a u).andThen fun _ s => Run.done () s).Ends
      (fun _ v => x.Reaches (v.completed.atLevel .sequencer)) fun v => x.Reaches (v.timedOut.atLevel .sequencer) :=
    (hsends.sendByte hb).andThen fun _ v hv => hv.ended rfl
  exact Run.Ends.outcome (P := fun t => x.Reaches (t.atLevel .sequencer)) hrun ht

/-- SEND_BYTES at the two levels. -/
theorem State.At.sendBytesBody {n : Byte} (h : x.At (opWord 2#4 n) .send u) (hidx : u.seq.idx = 0#8) {t : State}
    (ht : sendBytesBody n u = some t) : x.Reaches (t.atLevel .sequencer) := by
  have hcount : sentBy (opWord 2#4 n) = n := by rw [sentBy, opField_opWord, argField_opWord]; rfl
  have hsends : x.Sends (opWord 2#4 n) n.toNat (u.setIdx 0#8) := by
    rw [show u.setIdx 0#8 = u by rw [← hidx]; rfl]
    exact h.sends (by rw [hidx, hcount]; exact Nat.zero_add _)
  have hrun := (sendLoop_ends (b := .txp) (P := x.Sends (opWord 2#4 n)) (fun k v hv => hv.sendByte (by
    rw [phaseByte_send, (hv.running (by simp)).cmd, opField_opWord]
    rfl)) n.toNat _ hsends).mono (fun _ v hv => hv.ended rfl) fun _ hv => hv
  exact Run.Ends.outcome (P := fun t => x.Reaches (t.atLevel .sequencer)) hrun ht

/-! ### The receive phase -/

theorem enterPhase_recv (u : State) :
    (u.atPhase .recv .idle).enterPhase =
      if opField u.ctl.cmd == 3#4 then (u.atPhase .recv .idle).startByte
      else if u.seq.idx = argField u.ctl.cmd then u.countStored.completed.atLevel .sequencer
      else (u.atPhase .recv .idle).startByte := rfl

/-- A byte stored and counted (R139). -/
def State.stores (v : State) (b : Space) (base : Nat) (r : Byte) : State :=
  (v.writeByte b (base + v.seq.idx.toNat) r).stepIdx

theorem takeByte_atRecv (v : State) (r : Byte) :
    (v.atPhase .recv .check).takeByte r =
      if opField v.ctl.cmd == 3#4 then v.completed.atLevel .sequencer
      else if r = Config.endOfData then (v.raiseFlag bitEod).countStored.completed.atLevel .sequencer
      else if (v.stores .rxp 0 r).seq.idx = argField v.ctl.cmd then
        (v.stores .rxp 0 r).countStored.completed.atLevel .sequencer
      else (v.stores .rxp 0 r).atPhase .recv .idle := by
  rw [State.stores, Nat.zero_add]
  rfl

theorem lateIn_recv (v : State) :
    v.lateIn .recv = (if !(opField v.ctl.cmd == 3#4) then v.countStored else v).timedOut.atLevel .sequencer := rfl

/-- RECV_BYTE at the two levels. -/
theorem State.At.recvByteBody {a : Byte} (h : x.At (opWord 3#4 a) .recv u) {t : State} (ht : recvByteBody u = some t) :
    x.Reaches (t.atLevel .sequencer) := by
  have hsingle : (opField (opWord 3#4 a) == 3#4) = true := by rw [opField_opWord]; rfl
  have hbyte := (h.byteXfer (b := u.env.params.filler) rfl (by rw [enterPhase_recv, h.cmd, if_pos hsingle]) rfl).and
    (byteXfer_cmd u.env.params.filler u)
  have hrun : ((receiveByte u).andThen fun _ s => Run.done () s).Ends
      (fun _ v => x.Reaches (v.completed.atLevel .sequencer)) fun v => x.Reaches (v.timedOut.atLevel .sequencer) := by
    refine (hbyte.mono (fun r v ⟨hv, _⟩ => ?taken) fun v ⟨hv, hcmd⟩ => ?late).andThen fun _ v hv => hv
    case taken =>
      have hreached := hv.reached
      rwa [takeByte_atRecv, hv.cmd, if_pos hsingle] at hreached
    case late => rwa [lateIn_recv, hcmd, h.cmd, hsingle] at hv
  exact Run.Ends.outcome (P := fun t => x.Reaches (t.atLevel .sequencer)) hrun ht

/-- RECV_BYTES at the two levels. -/
theorem State.At.recvBytesBody {m : Byte} (h : x.At (opWord 4#4 m) .recv u) (hidx : u.seq.idx = 0#8) {t : State}
    (ht : recvBytesBody m u = some t) : x.Reaches (t.atLevel .sequencer) := by
  have hmany : ¬ (opField (opWord 4#4 m) == 3#4) = true := by rw [opField_opWord]; decide
  have harg : argField (opWord 4#4 m) = m := argField_opWord ..
  have hloop : x.Loops (opWord 4#4 m) .recv m (fun v => x.Reaches (v.countStored.completed.atLevel .sequencer)) m.toNat
      (u.setIdx 0#8) := by
    rw [show u.setIdx 0#8 = u by rw [← hidx]; rfl]
    refine .of_index (by rw [hidx]; exact Nat.zero_add _) (fun hlast => ?_) fun _ => h
    have hentered := h.enter rfl
    rwa [enterPhase_recv, h.cmd, if_neg hmany, harg, if_pos hlast] at hentered
  have hrun : (recvPayload m.toNat u).Ends (fun _ v => x.Reaches (v.completed.atLevel .sequencer))
      fun v => x.Reaches (v.timedOut.atLevel .sequencer) := by
    refine recvPayload_ends (recvLoop_ends (P := x.Loops (opWord 4#4 m) .recv m
      (fun v => x.Reaches (v.countStored.completed.atLevel .sequencer))) (fun k v hv => ?byte)
      (fun v hv => hv.ended rfl) m.toNat _ hloop)
    case byte =>
      have hcmd := (hv.running (by simp)).cmd
      refine ((hv.byte rfl (fun hne => by rw [enterPhase_recv, hcmd, if_neg hmany, harg, if_neg hne]) rfl).and
        (byteXfer_cmd v.env.params.filler v)).mono (fun r v' ⟨⟨hv', hindex⟩, _⟩ => ?taken)
        fun v' ⟨hv', hsame⟩ => ?late
      case taken =>
        have htake := takeByte_atRecv v' r
        rw [hv'.cmd, if_neg hmany, harg] at htake
        refine ⟨fun heod => ?_, fun heod => ?_⟩
        · have hreached := hv'.reached
          rwa [htake, if_pos heod] at hreached
        · rw [if_neg heod] at htake
          refine .of_index (u := v'.stores .rxp 0 r) hindex (fun hlast => ?_) fun hmore =>
            hv'.at (htake.trans (if_neg hmore)) rfl rfl
          have hreached := hv'.reached
          rwa [htake, if_pos hlast] at hreached
      case late =>
        rwa [lateIn_recv, hsame, hcmd, Bool.eq_false_iff.mpr hmany] at hv'
  exact Run.Ends.outcome (P := fun t => x.Reaches (t.atLevel .sequencer)) hrun ht

/-! ### The codec phase -/

/-- A header met where it stands in `RXH` is taken by the bytes of `RXH`. -/
theorem exec_decode_rxhWord (s : State) :
    exec (decode (.hdr s.rxhWord)) s =
      .next (s.takeHeader s.rxhBytes.h0 s.rxhBytes.h1 s.rxhBytes.h2 s.rxhBytes.h3) := by
  rw [exec_decode_hdr, State.rxhWord, hdrType_hdrWord, hdrLow_hdrWord, hdrHigh_hdrWord, hdrLength_hdrWord]
  rfl

/-- ENC_HDR at the two levels. -/
theorem State.At.encHdrBody {a : Byte} (h : x.At (opWord 5#4 a) .codec u) {t : State} (ht : encHdrBody u = some t) :
    x.Reaches (t.atLevel .sequencer) := by
  obtain rfl := Option.some.inj ht
  have hturn : (u.atPhase .codec .idle).blockTurn = if opField u.ctl.cmd = 6#4
      then .run (decode (.hdr (u.atPhase .codec .idle).rxhWord)) (u.atPhase .codec .idle)
      else .move (u.encodeToTxh.completed.atLevel .sequencer) := rfl
  refine h.block (by decide) ?_
  rw [hturn, h.cmd, opField_opWord, if_neg (by decide)]
  rfl

/-- DEC_HDR at the two levels. -/
theorem State.At.decHdrBody {a : Byte} (h : x.At (opWord 6#4 a) .codec u) {t : State} (ht : decHdrBody u = some t) :
    x.Reaches (t.atLevel .sequencer) := by
  obtain rfl := Option.some.inj ht
  have hturn : (u.atPhase .codec .idle).blockTurn = if opField u.ctl.cmd = 6#4
      then .run (decode (.hdr (u.atPhase .codec .idle).rxhWord)) (u.atPhase .codec .idle)
      else .move (u.encodeToTxh.completed.atLevel .sequencer) := rfl
  refine h.block (by decide) ?_
  rw [hturn, h.cmd, opField_opWord, if_pos rfl, Turn.outcome_run, exec_decode_rxhWord]
  rfl

end

end Sys2Proof.Machine
end

section
/-! DISPATCH at the two levels (44_orchestrator.md R202 to R208, R212): each phase of the sequencer runs the part of the
transaction that its pseudocode names. -/

namespace Sys2Proof.Machine

section
variable {x u v : State} {w : Half} {p q : Phase} {k : Nat}

/-! ### The sends -/

theorem takeByte_atTxHdr (v : State) (r : Byte) :
    (v.atPhase .txHdr .check).takeByte r =
      if v.stepIdx.seq.idx = 4#8 then (v.stepIdx.setIdx 0#8).atPhase .txPay .idle
      else v.stepIdx.atPhase .txHdr .idle := rfl

/-- The request header is sent, then the phase of the command begins. -/
theorem State.At.sendHeader (h : x.At w .txHdr (u.setIdx 0#8)) :
    (sendBytes .txh 4 u).Ends (fun _ v => x.At w .txPay (v.setIdx 0#8))
      fun v => x.Reaches (v.timedOut.atLevel .sequencer) := by
  have hloop : x.Loops w .txHdr 4#8 (fun v => x.At w .txPay (v.setIdx 0#8)) 4 (u.setIdx 0#8) :=
    .of_index rfl (fun hlast => absurd hlast (by simp)) fun _ => h
  refine (sendLoop_ends (P := x.Loops w .txHdr 4#8 fun v => x.At w .txPay (v.setIdx 0#8)) (fun k v hv => ?byte) 4 _
    hloop).mono (fun _ v hv => hv.ended rfl) fun _ hv => hv
  case byte =>
    refine (hv.byte rfl (fun _ => rfl) rfl).mono (fun r v' ⟨hv', hindex⟩ => ?taken) fun v' hv' => hv'
    case taken =>
      have htake := takeByte_atTxHdr v' r
      exact .of_index hindex (fun hlast => hv'.at (htake.trans (if_pos hlast)) rfl rfl)
        fun hmore => hv'.at (htake.trans (if_neg hmore)) rfl rfl

theorem enterPhase_txPay (u : State) :
    (u.atPhase .txPay .idle).enterPhase =
      if u.seq.idx = argField u.ctl.cmd then (u.setPolls 0).atPhase .pollWait .idle
      else (u.atPhase .txPay .idle).startByte := rfl

/-- A phase that tests its bound on entry goes on to the next. -/
theorem State.At.next (h : x.At w p u) (hengine : p.usesEngine = true) {v : State}
    (henter : (u.atPhase p .idle).enterPhase = v.atPhase q .idle) (hinbox : v.env.inbox = u.env.inbox)
    (hcmd : v.ctl.cmd = u.ctl.cmd) : x.At w q v :=
  ⟨henter ▸ h.enter hengine, hinbox.trans h.inbox, hcmd.trans h.cmd⟩

/-- The command is sent, then the poll begins. -/
theorem State.At.sendCommand {l : Byte} (h : x.At (opWord 7#4 l) .txPay (u.setIdx 0#8)) :
    (sendBytes .txp l.toNat u).Ends (fun _ v => x.At (opWord 7#4 l) .pollWait (v.setPolls 0))
      fun v => x.Reaches (v.timedOut.atLevel .sequencer) := by
  have harg : argField (opWord 7#4 l) = l := argField_opWord ..
  have hloop : ∀ {k} {v : State}, x.At (opWord 7#4 l) .txPay v → v.seq.idx.toNat + k = l.toNat →
      x.Loops (opWord 7#4 l) .txPay l (fun v => x.At (opWord 7#4 l) .pollWait (v.setPolls 0)) k v :=
    fun {k v} hv hindex => .of_index hindex (fun hlast =>
      hv.next rfl (by rw [enterPhase_txPay, hv.cmd, harg, if_pos hlast]) rfl rfl) fun _ => hv
  refine (sendLoop_ends (P := x.Loops (opWord 7#4 l) .txPay l fun v => x.At (opWord 7#4 l) .pollWait (v.setPolls 0))
    (fun k v hv => ?byte) l.toNat _ (hloop h (Nat.zero_add _))).mono (fun _ v hv => hv.ended rfl) fun _ hv => hv
  case byte =>
    have hcmd := (hv.running (by simp)).cmd
    refine (hv.byte rfl (fun hne => by rw [enterPhase_txPay, hcmd, harg, if_neg hne]) rfl).mono
      (fun r v' ⟨hv', hindex⟩ => hloop (hv'.at (v' := v'.stepIdx) rfl rfl rfl) hindex) fun v' hv' => hv'

/-! ### The sync poll -/

theorem takeByte_atPollRx (v : State) (r : Byte) :
    (v.atPhase .pollRx .check).takeByte r =
      if r = Config.tagResponse then
        (((v.setPolls (v.polls + 1)).writeByte .rxh 0 Config.tagResponse).setIdx 0#8).atPhase .rxHdr .idle
      else if limitReached (v.polls + 1) v.env.params.syncLimit then
        (v.setPolls (v.polls + 1)).timedOut.atLevel .sequencer
      else (v.setPolls (v.polls + 1)).atPhase .pollWait .idle := rfl

/-- The polls, until the sync byte is kept and the header tail begins. -/
theorem State.At.syncPoll (h : x.At w .pollWait (u.setPolls 0)) :
    (syncPoll u).Ends (fun _ v => x.At w .rxHdr (v.setIdx 0#8)) fun v => x.Reaches (v.timedOut.atLevel .sequencer) := by
  refine syncPoll_ends (pollLoop_ends (P := x.At w .pollWait) (fun v hv => ?byte) _ _ h)
  case byte =>
    have hdelayed : x.At w .pollRx v.delayPoll := ⟨hv.block (by decide) rfl, hv.inbox, hv.cmd⟩
    refine (hdelayed.byteXfer rfl rfl rfl).mono (fun r v' hv' => ?taken) fun v' hv' => hv'
    case taken =>
      have htake := takeByte_atPollRx v' r
      refine ⟨fun hr => hv'.at (htake.trans (if_pos hr)) rfl rfl, fun hr hlimit => ?_, fun hr hlimit => ?_⟩
      · have hreached := hv'.reached
        rwa [htake, if_neg hr, if_pos hlimit] at hreached
      · exact hv'.at (htake.trans ((if_neg hr).trans (if_neg (Bool.eq_false_iff.mp hlimit)))) rfl rfl

/-! ### The header tail -/

theorem enterPhase_rxHdr (u : State) :
    (u.atPhase .rxHdr .idle).enterPhase =
      if u.seq.idx = 3#8 then u.atPhase .decode .idle else (u.atPhase .rxHdr .idle).startByte := rfl

theorem takeByte_atRxHdr (v : State) (r : Byte) :
    (v.atPhase .rxHdr .check).takeByte r =
      if r = Config.endOfData then ((v.raiseFlag bitEod).raiseFlag bitHdrShort).atPhase .decode .idle
      else (v.stores .rxh 1 r).atPhase .rxHdr .idle := rfl

/-- The header tail, full or cut short, then the phase that decodes it, short tails reported. -/
theorem State.At.recvHeader (h : x.At w .rxHdr (u.setIdx 0#8)) :
    (recvBytes .rxh 1 3 u).Ends (fun _ v => x.At w .decode v.markShortHeader)
      fun v => x.Reaches (v.timedOut.atLevel .sequencer) := by
  have hloop : ∀ {k} {v : State}, x.At w .rxHdr v → v.seq.idx.toNat + k = (3#8).toNat →
      x.Loops w .rxHdr 3#8 (fun v => x.At w .decode v.markShortHeader) k v :=
    fun {k v} hv hindex => .of_index hindex (fun hlast => by
      rw [State.markShortHeader, if_neg (by rw [hlast]; decide)]
      exact hv.next rfl (by rw [enterPhase_rxHdr, if_pos hlast]) rfl rfl) fun _ => hv
  refine recvLoop_ends (P := x.Loops w .rxHdr 3#8 fun v => x.At w .decode v.markShortHeader)
    (fun k v hv => ?byte) (fun v hv => hv.ended rfl) 3 _ (hloop h rfl)
  case byte =>
    refine (hv.byte rfl (fun hne => by rw [enterPhase_rxHdr, if_neg hne]) rfl).mono
      (fun r v' ⟨hv', hindex⟩ => ?taken) fun v' hv' => hv'
    case taken =>
      have htake := takeByte_atRxHdr v' r
      refine ⟨fun heod => ?_, fun heod => hloop (hv'.at (htake.trans (if_neg heod)) rfl rfl) hindex⟩
      have hshort : (v'.raiseFlag bitEod).seq.idx.toNat < 3 := by
        have hbound := hv.index
        rw [← hv'.idx] at hbound
        have : (3#8).toNat = 3 := rfl
        show v'.seq.idx.toNat < 3
        omega
      rw [State.markShortHeader, if_pos hshort]
      exact hv'.at (htake.trans (if_pos heod)) rfl rfl

/-- The header decoded, then the phase of the payload. -/
theorem State.At.decodeHeader (h : x.At w .decode u) :
    x.At w .rxPay ((u.putReceived (decodeHeader u.rxhBytes)).setIdx 0#8) :=
  ⟨h.block (by decide) (exec_decode_rxhWord (u.atPhase .decode .idle)), h.inbox, h.cmd⟩

/-! ### The payload -/

theorem enterPhase_rxPay (u : State) :
    (u.atPhase .rxPay .idle).enterPhase =
      if u.seq.idx = u.rx.len then u.atPhase .term .idle else (u.atPhase .rxPay .idle).startByte := rfl

theorem takeByte_atRxPay (v : State) (r : Byte) :
    (v.atPhase .rxPay .check).takeByte r =
      if r = Config.endOfData then (v.raiseFlag bitEod).atPhase .term .idle
      else (v.stores .rxp 0 r).atPhase .rxPay .idle := by
  rw [State.stores, Nat.zero_add]
  rfl

theorem terminatePhase_atPhase (v : State) :
    (v.atPhase .term .idle).terminatePhase = v.countStored.terminate.reportReply.completed.atLevel .sequencer := by
  have hreply : (v.atPhase .term .idle).countStored.renderReply = v.countStored.renderReply :=
    renderReply_congr rfl rfl rfl
  rw [State.terminatePhase, reportReply_terminate, reportReply_terminate, hreply]
  rfl

/-- The payload, full or cut short, then the last phase. -/
theorem State.At.recvPayload (h : x.At w .rxPay (u.setIdx 0#8)) :
    (recvPayload u.rx.len.toNat u).Ends (fun _ v => x.Reaches (v.terminate.reportReply.completed.atLevel .sequencer))
      fun v => x.Reaches (v.timedOut.atLevel .sequencer) := by
  have hloop : ∀ {k} {v : State}, x.At w .rxPay v ∧ v.rx = u.rx → v.seq.idx.toNat + k = u.rx.len.toNat →
      x.Loops w .rxPay u.rx.len (x.At w .term) k v ∧ v.rx = u.rx :=
    fun {k v} hv hindex => ⟨.of_index hindex (fun hlast =>
      hv.1.next rfl (by rw [enterPhase_rxPay, hv.2, if_pos hlast]) rfl rfl) fun _ => hv.1, hv.2⟩
  have hend : ∀ v, x.At w .term v → x.Reaches (v.countStored.terminate.reportReply.completed.atLevel .sequencer) :=
    fun v hv => hv.block (by decide) (next_congr (terminatePhase_atPhase v))
  refine recvPayload_ends (recvLoop_ends (P := fun k v => x.Loops w .rxPay u.rx.len (x.At w .term) k v ∧ v.rx = u.rx)
    (fun k v hv => ?byte) (fun v hv => hend v (hv.1.ended rfl)) _ _ (hloop ⟨h, rfl⟩ (Nat.zero_add _)))
  case byte =>
    refine (hv.1.byte rfl (fun hne => by rw [enterPhase_rxPay, hv.2, if_neg hne]) rfl).mono
      (fun r v' ⟨hv', hindex⟩ => ?taken) fun v' hv' => hv'
    case taken =>
      have htake := takeByte_atRxPay v' r
      exact ⟨fun heod => hend _ (hv'.at (htake.trans (if_pos heod)) rfl rfl), fun heod =>
        hloop ⟨hv'.at (htake.trans (if_neg heod)) rfl rfl, hv'.rx.trans hv.2⟩ hindex⟩

/-! ### The transaction -/

theorem State.At.transaction {l : Byte} (h : x.At (opWord 7#4 l) .txHdr (u.setIdx 0#8)) :
    (transaction l u).Ends (fun _ v => x.Reaches (v.completed.atLevel .sequencer))
      fun v => x.Reaches (v.timedOut.atLevel .sequencer) :=
  h.sendHeader.andThen fun _ _ h => h.sendCommand.andThen fun _ _ h => h.syncPoll.andThen fun _ _ h =>
    h.recvHeader.andThen fun _ _ h => h.decodeHeader.recvPayload.andThen fun _ _ h => h

theorem checkKeyword_atPhase (u : State) :
    (u.atPhase .keyChk .idle).checkKeyword = if u.isResetKeyword (argField u.ctl.cmd)
      then u.sysResetRequested.atLevel .sequencer else u.atPhase .build .idle := by
  have hkeyword : ∀ l, (u.atPhase .keyChk .idle).isResetKeyword l = u.isResetKeyword l := fun l =>
    congrArg (fun bytes => decide (bytes = u.env.params.resetKeyword)) (readRange_congr (by rfl) (by rfl) ..)
  rw [State.checkKeyword, hkeyword]
  rfl

theorem buildPhase_atPhase (u : State) :
    (u.atPhase .build .idle).buildPhase = ((u.buildRequest (argField u.ctl.cmd)).setIdx 0#8).atPhase .txHdr .idle := rfl

/-- DISPATCH at the two levels. -/
theorem State.At.dispatchBody {l : Byte} (h : x.At (opWord 7#4 l) .keyChk u) {t : State}
    (ht : dispatchBody l u = some t) : x.Reaches (t.atLevel .sequencer) := by
  have harg : argField u.ctl.cmd = l := by rw [h.cmd, argField_opWord]
  have hchecked := h.block (by decide) (next_congr (checkKeyword_atPhase u))
  rw [harg] at hchecked
  rw [Sys2Proof.Machine.dispatchBody] at ht
  split_ifs at hchecked ht
  · exact Option.some.inj ht ▸ hchecked
  · have hbuild : x.At (opWord 7#4 l) .build u := ⟨hchecked, h.inbox, h.cmd⟩
    have hbuilt := hbuild.block (by decide) (next_congr (buildPhase_atPhase u))
    rw [harg] at hbuilt
    have hheader : x.At (opWord 7#4 l) .txHdr ((u.buildRequest l).setIdx 0#8) :=
      ⟨hbuilt, h.inbox, h.cmd⟩
    exact Run.Ends.outcome (P := fun t => x.Reaches (t.atLevel .sequencer)) hheader.transaction ht

/-! ### Every operation -/

/-- An operation accepted at the sequencer level reaches what its body leaves. -/
theorem exec_isOperation_reaches {i : Instr} (hi : isOperation i = true) :
    ∃ w p body, (∀ s, exec i s = .next (s.operate w p body)) ∧
      ∀ x s t : State, x.At w p (s.accept w p) → body (s.accept w p) = some t → x.Reaches (t.atLevel .sequencer) := by
  cases i with
  | sendByte a => exact ⟨_, _, _, fun _ => rfl, fun _ _ _ h => h.sendByteBody rfl⟩
  | sendBytes a => exact ⟨_, _, _, fun _ => rfl, fun _ _ _ h => h.sendBytesBody rfl⟩
  | recvByte => exact ⟨_, _, _, fun _ => rfl, fun _ _ _ h => h.recvByteBody⟩
  | recvBytes a => exact ⟨_, _, _, fun _ => rfl, fun _ _ _ h => h.recvBytesBody rfl⟩
  | encHdr => exact ⟨_, _, _, fun _ => rfl, fun _ _ _ h => h.encHdrBody⟩
  | decHdr => exact ⟨_, _, _, fun _ => rfl, fun _ _ _ h => h.decHdrBody⟩
  | dispatch l => exact ⟨_, _, _, fun _ => rfl, fun _ _ _ h => h.dispatchBody⟩
  | _ => cases hi

/-- Settles O60: refused, or without an end on the answers given, the two levels leave the same state; else the
sequencer runs the pseudocode's parts, each in its phase. -/
theorem sequencerReachesOperationResult : Obligations.SequencerReachesOperationResult := by
  intro i s t u hi hinbox ht hu
  obtain ⟨w, p, body, hexec, hreaches⟩ := exec_isOperation_reaches hi
  obtain rfl := Host.Outcome.next.inj ((hexec _).symm.trans ht)
  obtain rfl := Host.Outcome.next.inj ((hexec _).symm.trans hu)
  cases hactive : s.active with
  | true =>
    rw [operate_active (s := s.atLevel .operation) hactive, operate_active (s := s.atLevel .sequencer) hactive]
    exact ⟨0, rfl⟩
  | false =>
    rw [operate_sequencer (s := s.atLevel .sequencer) hactive rfl,
      operate_operation (s := s.atLevel .operation) hactive rfl]
    cases hbody : body ((s.atLevel .operation).accept w p) with
    | none => exact ⟨0, rfl⟩
    | some t => exact hreaches _ (s.atLevel .operation) t ⟨.refl _, hinbox, rfl⟩ hbody

end

end Sys2Proof.Machine
end
